-- ==== Sys2Proof/Word.lean ====
section
/-! DEFINITION. The words of the lowfer-tx CORE: port words and the patterns of its two number formats. -/

namespace Sys2Proof

/-- A port word, bit 31 the most significant (R66). -/
abbrev Word := BitVec 32

/-- A byte of a serialised command stream (R66). -/
abbrev Byte := BitVec 8

/-- A binary32 number as its 32-bit pattern, sign in bit 31 (R7). -/
abbrev F32 := BitVec 32

/-- A binary64 number as its 64-bit pattern, sign in bit 63 (R9). -/
abbrev F64 := BitVec 64

end Sys2Proof
end

