-- ==== Sys2Proof/Syntax.lean ====
section
/-! DEFINITION. The nine commands of R84 with the fields and operand words each one reads (R85 to R88). -/

namespace Sys2Proof

/-- One transfer of the command port (R80): the header word and the two operand words. -/
structure Command where
  w0   : Word
  arg0 : Word
  arg1 : Word
  deriving DecidableEq, Repr

/-- The commands of R84. A command carries the operand words it reads; the words R88 calls ignored are no part of it. -/
inductive Instr where
  /-- `CFG`, R100: `MODE`, `CH`, `FIR_EN` of R85, frequency and source rate. -/
  | cfg (mode ch : BitVec 2) (firEn : Bool) (arg0 arg1 : F32)
  /-- `PWR`, R110: power in percent. -/
  | pwr (arg0 : F32)
  /-- `ONEXT`, R111. -/
  | onext
  /-- `FPUSH`, R136: the input sample. -/
  | fpush (arg0 : F32)
  /-- `STEP`, R150: the two channel samples. -/
  | step (arg0 arg1 : F32)
  /-- `AUDW`, R170: the two channel samples. -/
  | audw (arg0 arg1 : F32)
  /-- `BLOCK`, R171. -/
  | block
  /-- `STOP`, R185: the reason of R86. -/
  | stop (reason : BitVec 8)
  /-- `RDREG`, R186: the register number of R87. -/
  | rdreg (reg : BitVec 8)
  deriving DecidableEq, Repr

end Sys2Proof
end

