-- ==== Sys2Proof/WellFormed.lean ====
section
/-! DEFINITION. Which field values of a command are defined (R85, R86, R87): what a legal header word can hold. -/

namespace Sys2Proof

/-- R85: `MODE = 3` is a reserved encoding. -/
def modeDefined (m : BitVec 2) : Bool := m != 3

/-- R86: `REASON` 0x00 to 0x06 is defined. -/
def reasonDefined (r : BitVec 8) : Bool := r ≤ 6

/-- R87: register numbers 0x00 to 0x0C are defined. -/
def regDefined (n : BitVec 8) : Bool := n ≤ 0x0C

/-- A command whose fields a legal header word can hold (R89). The combinations of R101 are no part of it: they are checked when `CFG` executes. -/
def Instr.WellFormed : Instr → Bool
  | .cfg mode _ _ _ _ => modeDefined mode
  | .pwr _ => true
  | .onext => true
  | .fpush _ => true
  | .step _ _ => true
  | .audw _ _ => true
  | .block => true
  | .stop reason => reasonDefined reason
  | .rdreg reg => regDefined reg

end Sys2Proof
end

