-- ==== Sys2Proof/Decode.lean ====
section
/-! DEFINITION. Decoding of header words and of serialised commands (R81, R84 to R90, R95, R66), total and rejecting by name, and the encoder of R92 after it. -/

namespace Sys2Proof

/-- Why a header word is illegal (R89), or that the bytes are no whole command (R80). -/
inductive Illegal where
  /-- `OPC` is not 0x01 to 0x09. -/
  | opcode (opc : BitVec 8)
  /-- `RSV` is not zero. -/
  | reserved (rsv : BitVec 16)
  /-- `SUB`, or its reserved part in `CFG`, is not zero. -/
  | subfield (sub : BitVec 8)
  /-- `CFG` with `MODE = 3`. -/
  | mode
  /-- `STOP` with `REASON` above 0x06. -/
  | reason (r : BitVec 8)
  /-- `RDREG` with `REG` above 0x0C. -/
  | reg (n : BitVec 8)
  /-- Fewer than twelve bytes: no command has been transferred. -/
  | short
  deriving DecidableEq, Repr

/-- `OPC`, bits 31:24 (R81). -/
def opcOf (w0 : Word) : BitVec 8 := w0.extractLsb' 24 8

/-- `RSV`, bits 23:8 (R81). -/
def rsvOf (w0 : Word) : BitVec 16 := w0.extractLsb' 8 16

/-- `SUB`, bits 7:0 (R81). -/
def subOf (w0 : Word) : BitVec 8 := w0.extractLsb' 0 8

/-- A command that defines no subfield: `SUB` must be zero (R89). -/
def noSub (sub : BitVec 8) (i : Instr) : Except Illegal Instr :=
  if sub = 0 then .ok i else .error (.subfield sub)

/-- The subfield of `CFG` (R85). -/
def decodeCfg (sub : BitVec 8) (arg0 arg1 : F32) : Except Illegal Instr :=
  if sub.extractLsb' 5 3 = 0 then
    if modeDefined (sub.extractLsb' 0 2) then
      .ok (.cfg (sub.extractLsb' 0 2) (sub.extractLsb' 2 2) (sub.getLsbD 4) arg0 arg1)
    else .error .mode
  else .error (.subfield sub)

/-- The subfield rule of the command that `opc` names (R84 to R87, step 3 of R95). -/
def decodeSub (opc sub : BitVec 8) (arg0 arg1 : F32) : Except Illegal Instr :=
  match opc.toNat with
  | 1 => decodeCfg sub arg0 arg1
  | 2 => noSub sub (.pwr arg0)
  | 3 => noSub sub .onext
  | 4 => noSub sub (.fpush arg0)
  | 5 => noSub sub (.step arg0 arg1)
  | 6 => noSub sub (.audw arg0 arg1)
  | 7 => noSub sub .block
  | 8 => if reasonDefined sub then .ok (.stop sub) else .error (.reason sub)
  | 9 => if regDefined sub then .ok (.rdreg sub) else .error (.reg sub)
  | _ => .error (.opcode opc)

/-- `OPC` is 0x01 to 0x09 (step 1 of R95). -/
def opcDefined (opc : BitVec 8) : Bool := 1 ≤ opc && opc ≤ 9

/-- The decoding procedure of R95, in its order: opcode, `RSV`, subfield. -/
def decode (c : Command) : Except Illegal Instr :=
  if opcDefined (opcOf c.w0) then
    if rsvOf c.w0 = 0 then decodeSub (opcOf c.w0) (subOf c.w0) c.arg0 c.arg1
    else .error (.reserved (rsvOf c.w0))
  else .error (.opcode (opcOf c.w0))

/-- Four bytes as a word, the least significant byte first (R66). -/
def wordOfBytes (b0 b1 b2 b3 : Byte) : Word := b3 ++ b2 ++ b1 ++ b0

/-- The bytes of a word, the least significant byte first (R66). -/
def bytesOfWord (w : Word) : List Byte :=
  [w.extractLsb' 0 8, w.extractLsb' 8 8, w.extractLsb' 16 8, w.extractLsb' 24 8]

/-- The first command of a serialised stream, `W0`, `ARG0`, `ARG1` at ascending addresses (R66), and the rest of the stream. -/
def commandOfBytes : List Byte → Option (Command × List Byte)
  | a0 :: a1 :: a2 :: a3 :: b0 :: b1 :: b2 :: b3 :: c0 :: c1 :: c2 :: c3 :: rest =>
    some (⟨wordOfBytes a0 a1 a2 a3, wordOfBytes b0 b1 b2 b3, wordOfBytes c0 c1 c2 c3⟩, rest)
  | _ => none

/-- Decoding of a serialised stream: one command and the rest of the bytes. Every command has the one length of R91. -/
def decodeBytes (bs : List Byte) : Except Illegal (Instr × List Byte) :=
  match commandOfBytes bs with
  | some (c, rest) => match decode c with
    | .ok i => .ok (i, rest)
    | .error e => .error e
  | none => .error .short

/-- A header word `OPC ## 0x0000 ## SUB` (R92). -/
def header (opc sub : BitVec 8) : Word := opc ++ (0 : BitVec 16) ++ sub

/-- The `CFG` subfield of R85: three zero bits, `FIR_EN`, `CH`, `MODE`. -/
def cfgSub (mode ch : BitVec 2) (firEn : Bool) : BitVec 8 :=
  (0 : BitVec 3) ++ BitVec.ofBool firEn ++ ch ++ mode

/-- The three words of a command (R84 to R88), unused operand words zero (R92). -/
def encode : Instr → Command
  | .cfg mode ch firEn arg0 arg1 => ⟨header 0x01 (cfgSub mode ch firEn), arg0, arg1⟩
  | .pwr arg0 => ⟨header 0x02 0, arg0, 0⟩
  | .onext => ⟨header 0x03 0, 0, 0⟩
  | .fpush arg0 => ⟨header 0x04 0, arg0, 0⟩
  | .step arg0 arg1 => ⟨header 0x05 0, arg0, arg1⟩
  | .audw arg0 arg1 => ⟨header 0x06 0, arg0, arg1⟩
  | .block => ⟨header 0x07 0, 0, 0⟩
  | .stop reason => ⟨header 0x08 reason, 0, 0⟩
  | .rdreg reg => ⟨header 0x09 reg, 0, 0⟩

/-- The twelve bytes of a command (R66). -/
def bytesOfCommand (c : Command) : List Byte :=
  bytesOfWord c.w0 ++ bytesOfWord c.arg0 ++ bytesOfWord c.arg1

/-- The twelve bytes of a command's encoding (R66). -/
def encodeBytes (i : Instr) : List Byte := bytesOfCommand (encode i)

/-- The command whose bits are `w`, bit 0 the least significant bit of `W0` and the operand words following it; the bits at `nbits` and above are zero. -/
def tableCommand (nbits w : Nat) : Command :=
  ⟨BitVec.ofNat 32 (w % 2 ^ nbits), BitVec.ofNat 32 (w % 2 ^ nbits / 2 ^ 32), BitVec.ofNat 32 (w % 2 ^ nbits / 2 ^ 64)⟩

/-- What the decoder reads from the command whose bits are `w`, laid out in bytes as the hardware stores it. -/
def decodeTableWord (nbits w : Nat) : Option Instr :=
  match decodeBytes (bytesOfCommand (tableCommand nbits w)) with
  | .ok (i, _) => some i
  | .error _ => none

end Sys2Proof
end

