-- ==== Sys2Proof/Machine/Float.lean ====
section
/-! DEFINITION. The binary32 and binary64 primitives of R8 and R9, by exact integer arithmetic and one rounding to nearest, ties to even. -/

namespace Sys2Proof.Machine

/-- A binary interchange format: exponent bits and fraction bits. -/
structure Fmt where
  eb : Nat
  fb : Nat
  deriving DecidableEq, Repr

/-- binary32 (R7). -/
def f32 : Fmt := ⟨8, 23⟩

/-- binary64 (R9). -/
def f64 : Fmt := ⟨11, 52⟩

/-- The exponent of the least significant bit of a subnormal: -149 in binary32, -1074 in binary64. -/
def Fmt.emin (F : Fmt) : Int := -((2 ^ (F.eb - 1) : Nat) + F.fb - 2 : Int)

/-- The magnitude pattern of an infinity. -/
def Fmt.infMag (F : Fmt) : Nat := (2 ^ F.eb - 1) * 2 ^ F.fb

/-- What a pattern denotes: a NaN, an infinity, or `(-1)^neg * m * 2^e`. -/
inductive FVal where
  | nan
  | inf (neg : Bool)
  | fin (neg : Bool) (m : Nat) (e : Int)
  deriving DecidableEq, Repr

/-- The sign bit of a pattern. -/
def Fmt.sign (F : Fmt) (bits : Nat) : Bool := bits / 2 ^ (F.eb + F.fb) % 2 == 1

/-- The pattern without its sign bit. -/
def Fmt.mag (F : Fmt) (bits : Nat) : Nat := bits % 2 ^ (F.eb + F.fb)

/-- What a magnitude pattern below the infinity denotes, as significand and exponent; exponent field zero is the subnormals (R8: kept). -/
def Fmt.magVal (F : Fmt) (mag : Nat) : Nat × Int :=
  if mag / 2 ^ F.fb = 0 then (mag, F.emin)
  else (mag % 2 ^ F.fb + 2 ^ F.fb, F.emin + ((mag / 2 ^ F.fb : Nat) - 1 : Int))

/-- What a pattern denotes. -/
def Fmt.unpack (F : Fmt) (bits : Nat) : FVal :=
  if F.mag bits < F.infMag then .fin (F.sign bits) (F.magVal (F.mag bits)).1 (F.magVal (F.mag bits)).2
  else if F.mag bits = F.infMag then .inf (F.sign bits)
  else .nan

/-- A sign and a magnitude pattern as one pattern. -/
def Fmt.pack (F : Fmt) (neg : Bool) (mag : Nat) : Nat :=
  (if neg then 2 ^ (F.eb + F.fb) else 0) + mag

/-- `m / 2^k` to the nearest integer, ties to even. -/
def rneShift (m k : Nat) : Nat :=
  if 2 * (m % 2 ^ k) < 2 ^ k then m / 2 ^ k
  else if 2 * (m % 2 ^ k) = 2 ^ k ∧ m / 2 ^ k % 2 = 0 then m / 2 ^ k
  else m / 2 ^ k + 1

/-- `m * 2^-d` to the nearest integer, ties to even; exact when `d ≤ 0`. -/
def rneScale (m : Nat) (d : Int) : Nat :=
  if d ≤ 0 then m * 2 ^ (-d).toNat else rneShift m d.toNat

/-- The exponent of the last significand bit that `F` keeps of `m * 2^e`, `m > 0`. -/
def Fmt.lastExp (F : Fmt) (m : Nat) (e : Int) : Int :=
  max F.emin (e + (Nat.log2 m : Int) - F.fb)

/-- The magnitude pattern of `m * 2^e` rounded once to `F`, to nearest, ties to even; a result beyond the largest finite number is the infinity (R8). -/
def Fmt.roundMag (F : Fmt) (m : Nat) (e : Int) : Nat :=
  if m = 0 then 0
  else min ((F.lastExp m e - F.emin).toNat * 2 ^ F.fb + rneScale m (F.lastExp m e - e)) F.infMag

/-- A signed integer times `2^e`, rounded once to `F`; an exact zero takes the sign given. -/
def Fmt.roundInt (F : Fmt) (zeroNeg : Bool) (x : Int) (e : Int) : Nat :=
  if x = 0 then F.pack zeroNeg 0 else F.pack (decide (x < 0)) (F.roundMag x.natAbs e)

/-- A significand with its sign, brought to the lower exponent `lo`. -/
def alignTo (lo : Int) (neg : Bool) (m : Nat) (e : Int) : Int :=
  if neg then -((m * 2 ^ (e - lo).toNat : Nat) : Int) else ((m * 2 ^ (e - lo).toNat : Nat) : Int)

/-- Addition (R8). The sum of two zeros is negative only when both are; an exact cancellation is `+0`. -/
def Fmt.add (F : Fmt) (nan a b : Nat) : Nat :=
  match F.unpack a, F.unpack b with
  | .nan, _ => nan
  | _, .nan => nan
  | .inf s, .inf t => if s = t then F.pack s F.infMag else nan
  | .inf s, .fin _ _ _ => F.pack s F.infMag
  | .fin _ _ _, .inf t => F.pack t F.infMag
  | .fin s m e, .fin t n g =>
    F.roundInt (s && t) (alignTo (min e g) s m e + alignTo (min e g) t n g) (min e g)

/-- Multiplication (R8). -/
def Fmt.mul (F : Fmt) (nan a b : Nat) : Nat :=
  match F.unpack a, F.unpack b with
  | .nan, _ => nan
  | _, .nan => nan
  | .inf s, .inf t => F.pack (s != t) F.infMag
  | .inf s, .fin t n _ => if n = 0 then nan else F.pack (s != t) F.infMag
  | .fin s m _, .inf t => if m = 0 then nan else F.pack (s != t) F.infMag
  | .fin s m e, .fin t n g => F.pack (s != t) (F.roundMag (m * n) (e + g))

/-- How far a dividend is scaled up before the integer division, so that the quotient has more bits than `F` keeps. -/
def Fmt.divScale (F : Fmt) (n : Nat) : Nat := F.fb + 4 + Nat.log2 n

/-- Twice the scaled integer quotient, with a last bit that says whether the division left a remainder: it rounds as the exact quotient does. -/
def stickyQuot (k m n : Nat) : Nat :=
  2 * (m * 2 ^ k / n) + (if m * 2 ^ k % n = 0 then 0 else 1)

/-- Division (R8). -/
def Fmt.div (F : Fmt) (nan a b : Nat) : Nat :=
  match F.unpack a, F.unpack b with
  | .nan, _ => nan
  | _, .nan => nan
  | .inf _, .inf _ => nan
  | .inf s, .fin t _ _ => F.pack (s != t) F.infMag
  | .fin s _ _, .inf t => F.pack (s != t) 0
  | .fin s m e, .fin t n g =>
    if n = 0 then (if m = 0 then nan else F.pack (s != t) F.infMag)
    else F.pack (s != t) (F.roundMag (stickyQuot (F.divScale n) m n) (e - g - (F.divScale n : Int) - 1))

/-- Conversion between formats, rounded once (R8 `cvt64to32`, `cvt32to64`). -/
def Fmt.convert (F G : Fmt) (nan a : Nat) : Nat :=
  match F.unpack a with
  | .nan => nan
  | .inf s => G.pack s G.infMag
  | .fin s m e => G.pack s (G.roundMag m e)

/-- The pattern is a NaN's. -/
def Fmt.isNan (F : Fmt) (a : Nat) : Bool := F.infMag < F.mag a

/-- Patterns that are not NaNs in numerical order; both zeros have key 0. -/
def Fmt.key (F : Fmt) (a : Nat) : Int :=
  if F.sign a then -(F.mag a : Int) else (F.mag a : Int)

/-- The quiet comparison `a < b`: false on a NaN (R8). -/
def Fmt.lt (F : Fmt) (a b : Nat) : Bool :=
  !F.isNan a && !F.isNan b && decide (F.key a < F.key b)

/-- The quiet comparison `a ≤ b`: false on a NaN (R8). -/
def Fmt.le (F : Fmt) (a b : Nat) : Bool :=
  !F.isNan a && !F.isNan b && decide (F.key a ≤ F.key b)

/-! The primitives of R8 and R9 on patterns. An operation that can answer a NaN takes the NaN it answers (R12). -/

def fadd32 (nan a b : F32) : F32 := BitVec.ofNat 32 (f32.add nan.toNat a.toNat b.toNat)
def fmul32 (nan a b : F32) : F32 := BitVec.ofNat 32 (f32.mul nan.toNat a.toNat b.toNat)
def fdiv32 (nan a b : F32) : F32 := BitVec.ofNat 32 (f32.div nan.toNat a.toNat b.toNat)
def fadd64 (nan a b : F64) : F64 := BitVec.ofNat 64 (f64.add nan.toNat a.toNat b.toNat)
def fmul64 (nan a b : F64) : F64 := BitVec.ofNat 64 (f64.mul nan.toNat a.toNat b.toNat)
def fdiv64 (nan a b : F64) : F64 := BitVec.ofNat 64 (f64.div nan.toNat a.toNat b.toNat)

/-- Clears the sign bit (R8). -/
def fabs32 (a : F32) : F32 := a &&& 0x7FFFFFFF#32

/-- Clears the sign bit (R9). -/
def fabs64 (a : F64) : F64 := a &&& 0x7FFFFFFFFFFFFFFF#64

def flt32 (a b : F32) : Bool := f32.lt a.toNat b.toNat
def fle32 (a b : F32) : Bool := f32.le a.toNat b.toNat
def flt64 (a b : F64) : Bool := f64.lt a.toNat b.toNat

/-- `a` when `a < b`, otherwise `b` (R8). -/
def fmin32 (a b : F32) : F32 := if flt32 a b then a else b

/-- Rounds a binary64 to binary32 (R8). -/
def cvt64to32 (nan : F32) (a : F64) : F32 := BitVec.ofNat 32 (f64.convert f32 nan.toNat a.toNat)

/-- Exact (R8). -/
def cvt32to64 (nan : F64) (a : F32) : F64 := BitVec.ofNat 64 (f32.convert f64 nan.toNat a.toNat)

/-- An unsigned integer as a binary64, exact below 2^53 (R8). -/
def u2f64 (n : Nat) : F64 := BitVec.ofNat 64 (f64.roundMag n 0)

/-- An unsigned integer as a binary32, exact up to 2^24: `FS32` of R10. -/
def u2f32 (n : Nat) : F32 := BitVec.ofNat 32 (f32.roundMag n 0)

/-- A binary32 NaN (R12). -/
def isNan32 (a : F32) : Bool := f32.isNan a.toNat

/-- The quiet NaN that takes its sign and payload from `p` (R12): exponent field all ones and the top fraction bit set. Log entry 8. -/
def quiet32 (p : F32) : F32 := p ||| 0x7FC00000#32

/-- The same in binary64. -/
def quiet64 (p : F64) : F64 := p ||| 0x7FF8000000000000#64

/-! The constants of R6 and R10. -/

def half32 : F32 := 0x3F000000#32
def one32 : F32 := 0x3F800000#32
def hundred32 : F32 := 0x42C80000#32
def fcMax32 : F32 := 0x457A0000#32
def inf32 : F32 := 0x7F800000#32
def eps64 : F64 := 0x3E7AD7F29ABCAF48#64
def pi64 : F64 := 0x400921FB54442D18#64
def twoPi64 : F64 := 0x401921FB54442D18#64
def winA64 : F64 := 0x3FE147AE147AE148#64
def winB64 : F64 := 0x3FDD70A3D70A3D71#64

end Sys2Proof.Machine
end

