-- ==== Sys2Proof/Machine/Real.lean ====
section
/-! DEFINITION. The real numbers patterns denote (R8, R9), in which the properties of the numerics functions are said. -/

namespace Sys2Proof.Machine

/-- The real number `(-1)^neg * m * 2^e`; an infinity and a NaN denote none and are given 0. -/
noncomputable def FVal.real : FVal → ℝ
  | .fin neg m e => (if neg then -1 else 1) * (m : ℝ) * (2 : ℝ) ^ e
  | _ => 0

/-- The real number a finite pattern denotes. -/
noncomputable def Fmt.real (F : Fmt) (bits : Nat) : ℝ := (F.unpack bits).real

/-- The pattern is a finite number's. -/
def Fmt.finite (F : Fmt) (bits : Nat) : Bool := decide (F.mag bits < F.infMag)

/-- A finite binary32 or binary64 pattern. -/
def finite32 (a : F32) : Bool := f32.finite a.toNat
def finite64 (a : F64) : Bool := f64.finite a.toNat

/-- The real number a finite pattern denotes. -/
noncomputable def real32 (a : F32) : ℝ := f32.real a.toNat
noncomputable def real64 (a : F64) : ℝ := f64.real a.toNat

/-- The properties R9 names of `SIN64` and `COS64`, and no other: P-zero, and P-bound at every finite argument. P-fun is that they are functions. -/
structure NumericsProps (sin64 cos64 : F64 → F64) : Prop where
  sin_zero  : sin64 0 = 0
  cos_zero  : cos64 0 = 0x3FF0000000000000#64
  sin_bound : ∀ x, finite64 x = true →
    finite64 (sin64 x) = true ∧ |real64 (sin64 x) - Real.sin (real64 x)| ≤ (2 : ℝ) ^ (-52 : ℤ)
  cos_bound : ∀ x, finite64 x = true →
    finite64 (cos64 x) = true ∧ |real64 (cos64 x) - Real.cos (real64 x)| ≤ (2 : ℝ) ^ (-52 : ℤ)

end Sys2Proof.Machine
end

