-- ==== Sys2Proof/Config.lean ====
section
/-! DEFINITION. What an implementation fixes and the spec leaves open (R6, R9, R12, U15), as constants without a body. -/

namespace Sys2Proof

/-- Picks `FS` (R6, D2); see `Machine.impl`. Log entry 5. -/
opaque Config.freeFs : Nat
/-- Picks `TBL_MAX` (R6, D5). Log entry 5. -/
opaque Config.freeTblMax : Nat
/-- Picks `NH` (R6, D6). Log entry 5. -/
opaque Config.freeNh : Nat
/-- Picks `BLOCKSIZE` (R6, D7). Log entry 5. -/
opaque Config.freeBlockSize : Nat
/-- Picks `ABUF_MAX` (R6, D8). Log entry 5. -/
opaque Config.freeAbufMax : Nat
/-- A pair of functions R9 allows as `SIN64` and `COS64`. -/
structure Numerics where
  sin64 : F64 → F64
  cos64 : F64 → F64
  ok    : Machine.NumericsProps sin64 cos64

/-- Picks `SIN64` and `COS64` among all pairs R9 allows; where it picks none, `Machine.impl` takes a reference pair that R9 allows as well. Log entries 6 and 9. -/
opaque Config.freeNumerics : Option Numerics
/-- Sign and payload of the n-th binary32 NaN result (R12). Log entry 7. -/
opaque Config.freeNan32 : Nat → BitVec 32
/-- Sign and payload of a binary64 NaN result (R12). Log entries 7 and 19. -/
opaque Config.freeNan64 : Nat → BitVec 64
/-- How many samples a command cut short by `rst` has emitted (U15). Log entry 14. -/
opaque Config.freeCut : Nat → Nat

/-- The parameters of one implementation: the quantities of R6, the numerics functions of R9, and the open values of R12 and U15. The hardware's own is `Machine.impl`. -/
structure Impl where
  /-- `FS`, internal sample rate in Hz. -/
  fs        : Nat
  /-- `TBL_MAX`, entries of each table memory. -/
  tblMax    : Nat
  /-- `NH`, stored half-length of the FIR kernel. -/
  nh        : Nat
  /-- `BLOCKSIZE`, samples of a CARRIER block. -/
  blockSize : Nat
  /-- `ABUF_MAX`, frames of the audio frame buffer. -/
  abufMax   : Nat
  /-- `SIN64`. -/
  sin64     : F64 → F64
  /-- `COS64`. -/
  cos64     : F64 → F64
  /-- The n-th binary32 NaN result. -/
  nan32     : Nat → F32
  /-- The n-th binary64 NaN result. -/
  nan64     : Nat → F64
  /-- The n-th choice of U15. -/
  cut       : Nat → Nat

/-- `L = 2*NH - 1`, full length of the kernel and of the history (R6). -/
def Impl.len (I : Impl) : Nat := 2 * I.nh - 1

/-- The constraints of R6. -/
def Impl.Legal (I : Impl) : Prop :=
  (2 ≤ I.fs ∧ I.fs ≤ 2 ^ 24) ∧ (2 ≤ I.tblMax ∧ I.tblMax < 2 ^ 31) ∧ (2 ≤ I.nh ∧ I.nh < 2 ^ 15) ∧
    (1 ≤ I.blockSize ∧ I.blockSize < 2 ^ 31) ∧ (1 ≤ I.abufMax ∧ I.abufMax < 2 ^ 31)

end Sys2Proof
end

