-- ==== Sys2Proof/Machine/State.lean ====
section
/-! DEFINITION. The state of the core (R22 to R37, R60), why a step can stop, and the state after reset (R43, R231). -/

namespace Sys2Proof.Machine

/-- The modulation mode (R26); the code 3 is never stored, so it is no constructor. -/
inductive Mode where
  | carrier
  | am
  | iq
  deriving DecidableEq, Repr

/-- The five memories of R60. -/
inductive Space where
  | ti
  | tq
  | h
  | hist
  | abuf
  deriving DecidableEq, Repr

/-- A memory: the entries written so far as (index, entry) pairs, indices strictly rising (`Mem.wf`). An index not listed is unwritten and holds no value (R60). Log entry 4. -/
abbrev Mem (α : Type) := List (Nat × α)

/-- An audio frame (R64): one sample for each of two channels. -/
structure Frame where
  c0 : F32
  c1 : F32
  deriving DecidableEq, Repr

/-- A response (R82). -/
structure Response where
  code : BitVec 8
  d0   : Word
  d1   : Word
  deriving DecidableEq, Repr

/-- What the host does to the core next (R80, R231, U15). Log entries 1 and 14. -/
inductive Input where
  /-- A command is transferred and runs to completion. -/
  | command (c : Command)
  /-- `rst` between two commands. -/
  | rst
  /-- A command is transferred and `rst` cuts it short before its response. -/
  | cutShort (c : Command)
  deriving DecidableEq, Repr

structure State where
  /-- R22: configured. -/
  cfgv    : Bool
  /-- R23: `txp` has been written. -/
  pwrv    : Bool
  /-- R24: the sticky fault flag. -/
  fault   : Bool
  /-- R24: code of the first fault. -/
  errcode : BitVec 8
  /-- R25: the over-range warning. -/
  ovr     : Bool
  /-- R26. -/
  mode    : Mode
  /-- R26: channel count of the audio source. -/
  ch      : BitVec 2
  /-- R26: the filter is present. -/
  firen   : Bool
  /-- R27: carrier frequency. -/
  freq    : F32
  /-- R28: source sample rate. -/
  srate   : F32
  /-- R28: resampling ratio. -/
  ratio   : F32
  /-- R29: table length. -/
  tlen    : Word
  /-- R29: table index of the next sample. -/
  phase   : Word
  /-- R30: power factor; while `pwrv` is clear it is unwritten and this field is not read (log entry 11). -/
  txp     : F32
  /-- R31: FIR cutoff. -/
  fcut    : F32
  /-- R32: FIR write cursor. -/
  wr      : Word
  /-- R33: frames in `abuf`. -/
  afill   : Word
  /-- R34: reason of the most recent `STOP`. -/
  exitc   : BitVec 8
  /-- R61: in-phase table. -/
  ti      : Mem F32
  /-- R61: quadrature table. -/
  tq      : Mem F32
  /-- R62: coefficient store. -/
  h       : Mem F32
  /-- R63: history buffer. -/
  hist    : Mem F32
  /-- R64: audio frame buffer. -/
  abuf    : Mem Frame
  /-- R37, R82: responses sent, oldest first. -/
  rsp     : List Response
  /-- R37, R83: samples sent, oldest first. -/
  out     : List F32
  /-- What the host will do, oldest first. Not the spec's: log entry 1. -/
  inputs  : List Input
  /-- How many free values have been used (R12, U15). Not the spec's: log entry 7. -/
  draws   : Nat
  deriving DecidableEq, Repr

/-- Why the machine stops. Both are raised only in states that R44 excludes (R60, U8); safe: nothing is claimed of what follows. -/
inductive Fault where
  /-- An entry that has not been written is read. Raised by `readEntry`; safe. -/
  | unwritten (sp : Space)
  /-- An index at or beyond the size of the memory is read or written. Raised by `readEntry` and `writeEntry`; safe. -/
  | noEntry (sp : Space)
  deriving DecidableEq, Repr

/-- Why an instruction has no meaning. -/
inductive Refusal where
  /-- No meaning yet. Raised by an arm of `exec` only; safe. -/
  | notModelled (mnemonic : String)
  deriving DecidableEq, Repr

/-- The outcome of a step of this machine. -/
abbrev Result := Host.Outcome State Fault Refusal

/-- R43, R231: every register zero, `txp` and all memories unwritten, nothing sent; no command is waiting. -/
def State.reset : State where
  cfgv    := false
  pwrv    := false
  fault   := false
  errcode := 0
  ovr     := false
  mode    := .carrier
  ch      := 0
  firen   := false
  freq    := 0
  srate   := 0
  ratio   := 0
  tlen    := 0
  phase   := 0
  txp     := 0
  fcut    := 0
  wr      := 0
  afill   := 0
  exitc   := 0
  ti      := []
  tq      := []
  h       := []
  hist    := []
  abuf    := []
  rsp     := []
  out     := []
  inputs  := []
  draws   := 0

end Sys2Proof.Machine
end

