-- ==== Sys2Proof/Machine/Ops.lean ====
section
/-! DEFINITION. The named operations over memories, streams and the fault state (R60 to R68, R82, R83, R206 to R208, R231). -/

namespace Sys2Proof.Machine

/-! ## Memories -/

/-- The canonical form of a memory: indices strictly rising. -/
abbrev Mem.wf {α : Type} (m : Mem α) : Prop := (m.map Prod.fst).Pairwise (· < ·)

/-- The entry at an index, if it has been written. -/
def Mem.read {α : Type} : Mem α → Nat → Option α
  | [], _ => none
  | (j, v) :: r, i => if i = j then some v else Mem.read r i

/-- The memory with one entry written, in canonical form. -/
def Mem.write {α : Type} : Mem α → Nat → α → Mem α
  | [], i, v => [(i, v)]
  | (j, w) :: r, i, v =>
    if i < j then (i, v) :: (j, w) :: r
    else if i = j then (i, v) :: r
    else (j, w) :: Mem.write r i v

/-- The memory with a list of entries written at `k`, `k+1`, ... ascending. -/
def Mem.writeFrom {α : Type} (m : Mem α) (k : Nat) : List α → Mem α
  | [] => m
  | v :: r => Mem.writeFrom (m.write k v) (k + 1) r

/-- The number of entries of a memory (R60). -/
def Space.size (I : Impl) : Space → Nat
  | .ti => I.tblMax
  | .tq => I.tblMax
  | .h => I.nh
  | .hist => I.len
  | .abuf => I.abufMax

/-- `MemRead(space, idx)`; an unwritten entry holds no value, so reading one is stuck (R60, U8). -/
def readEntry {α : Type} (I : Impl) (sp : Space) (m : Mem α) (i : Nat) : Except Fault α :=
  if i < sp.size I then
    match m.read i with
    | some v => .ok v
    | none => .error (.unwritten sp)
  else .error (.noEntry sp)

/-- `MemWrite(space, idx, v)`. -/
def writeEntry {α : Type} (I : Impl) (sp : Space) (m : Mem α) (i : Nat) (v : α) : Except Fault (Mem α) :=
  if i < sp.size I then .ok (m.write i v) else .error (.noEntry sp)

/-! ## Responses and samples -/

/-- `respond(code, d0, d1)`: one response is sent (R82). -/
def respond (code : BitVec 8) (d0 d1 : Word) (s : State) : State :=
  { s with rsp := s.rsp ++ [⟨code, d0, d1⟩] }

/-- The response `OK` (R203). -/
def respondOk (d0 d1 : Word) (s : State) : State := respond 0x00 d0 d1 s

/-- The response `REJ` (R204). -/
def respondRej (s : State) : State := respond 0x01 0 0 s

/-- `emit(v)`: one sample is appended to the output stream (R83). -/
def emit (v : F32) (s : State) : State := { s with out := s.out ++ [v] }

/-- `n` free values have been used up (log entry 7). -/
def skip (n : Nat) (s : State) : State := { s with draws := s.draws + n }

/-! ## Faults -/

/-- The core-detected faults of R201, less `E_FAULTED`. -/
inductive ErrCode where
  | illegal
  | state
  | nopwr
  | chan
  | freq
  | rate
  | tblovf
  | mode
  | aovf
  deriving DecidableEq, Repr

/-- The codes of R201. -/
def errBits : ErrCode → BitVec 8
  | .illegal => 0x10
  | .state   => 0x11
  | .nopwr   => 0x12
  | .chan    => 0x13
  | .freq    => 0x14
  | .rate    => 0x15
  | .tblovf  => 0x16
  | .mode    => 0x17
  | .aovf    => 0x18

/-- `E_FAULTED` (R201): answered in the fault state, never stored. -/
def faultedBits : BitVec 8 := 0x1F

/-- Fault entry, `raise Fault(code)` (R206): only the first fault is recorded; one response, nothing else changes. -/
def enterFault (e : ErrCode) (s : State) : State :=
  respond (errBits e) 0 0
    { s with fault := true, errcode := if s.fault then s.errcode else errBits e }

/-- A command that ends in fault entry: a next state, not a stop. -/
def raiseFault (e : ErrCode) (s : State) : Result := .next (enterFault e s)

/-- A command refused in the fault state (R207): the response `E_FAULTED` and no other effect. -/
def refuseFaulted (s : State) : State := respond faultedBits 0 0 s

/-- The first check of R205, for every command but `STOP` and `RDREG`. -/
def unlessFaulted (s : State) (r : Result) : Result :=
  if s.fault then .next (refuseFaulted s) else r

/-- A header word that decodes to no command: in the fault state it is decoded only for `STOP` and `RDREG` (R205), otherwise `E_ILLEGAL` (R89). -/
def illegalWord (opc : BitVec 8) (s : State) : Result :=
  if opc = 0x08 ∨ opc = 0x09 then raiseFault .illegal s
  else unlessFaulted s (raiseFault .illegal s)

/-- A computation that ends in a state, as the outcome of a command. -/
def finish : Except Fault State → Result
  | .ok s => .next s
  | .error f => .fault f

/-! ## Leaving the fault state -/

/-- `STOP`'s tear-down (R185): every register and memory to its reset state but `exitc`; what has been sent stays sent. -/
def tearDown (reason : BitVec 8) (s : State) : State :=
  { s with
    cfgv := false, pwrv := false, fault := false, ovr := false, errcode := 0
    mode := .carrier, ch := 0, firen := false
    freq := 0, srate := 0, ratio := 0, fcut := 0
    tlen := 0, phase := 0, wr := 0, afill := 0
    txp := 0, ti := [], tq := [], h := [], hist := [], abuf := []
    exitc := reason }

/-- `rst` (R231): the reset state; samples and responses already transferred stay transferred, and the host's own plans are not the core's to clear. -/
def hardReset (s : State) : State :=
  { State.reset with rsp := s.rsp, out := s.out, inputs := s.inputs, draws := s.draws }

end Sys2Proof.Machine
end

