-- ==== Sys2Proof/Machine/Operands.lean ====
section
/-! DEFINITION. The operand forms: field codes, the operand checks of CFG and PWR, and every index expression of R65. -/

namespace Sys2Proof.Machine

/-- The code of a mode (R26). -/
def modeCode : Mode → BitVec 2
  | .carrier => 0
  | .am => 1
  | .iq => 2

/-- The mode a `MODE` field names; 3 is reserved (R85). -/
def modeOf (m : BitVec 2) : Option Mode :=
  if m = 0 then some .carrier else if m = 1 then some .am else if m = 2 then some .iq else none

/-- The legal combinations of R101. -/
def legalCombo (mode : Mode) (ch : BitVec 2) (firEn : Bool) : Bool :=
  match mode with
  | .carrier => ch == 0 && !firEn
  | .am => ch == 1 || ch == 2
  | .iq => ch == 2 && !firEn

/-- `FS32` (R10). -/
def fs32 (I : Impl) : F32 := u2f32 I.fs

/-- `FS64` (R10). -/
def fs64 (I : Impl) : F64 := u2f64 I.fs

/-- `freq_ok(f)` (R102); `d` picks the NaN of the product, which is never one. -/
def freqOk (I : Impl) (d : Nat) (f : F32) : Bool :=
  flt32 0 f && flt32 f (fmul32 (I.nan32 d) (fs32 I) half32)

/-- `rate_ok(r)` (R109). -/
def rateOk (r : F32) : Bool := flt32 0 r && flt32 r inf32

/-- The range test of `PWR` (R110). -/
def powerOk (p : F32) : Bool := fle32 0 p && fle32 p hundred32

/-- `advance()` (R112): `phase + 1` when that is below `tlen`, otherwise 0. -/
def nextPhase (phase tlen : Word) : Word :=
  if phase.toNat + 1 < tlen.toNat then BitVec.ofNat 32 (phase.toNat + 1) else 0

/-- `ctr`, the centre of the FIR window (R65, R134). -/
def firCentre (I : Impl) (wr : Nat) : Nat := (wr + I.nh) % I.len

/-- The index of the entry `i` after the centre (R65). -/
def firAhead (I : Impl) (ctr i : Nat) : Nat := (ctr + i) % I.len

/-- The index of the entry `i` before the centre (R65). -/
def firBehind (I : Impl) (ctr i : Nat) : Nat := (ctr + I.len - i) % I.len

/-- The write cursor after a push (R65). -/
def nextCursor (I : Impl) (wr : Nat) : Word := BitVec.ofNat 32 ((wr + 1) % I.len)

end Sys2Proof.Machine
end

