-- ==== Sys2Proof/Machine/Flags.lean ====
section
/-! DEFINITION. The flags: the over-range warning (R25, R156), and the STATUS and CTRL words (R41, R42) with the whole register map (R40). -/

namespace Sys2Proof.Machine

/-- `|o| > 1`; false on a NaN (R156). -/
def overRange (o : F32) : Bool := flt32 one32 (fabs32 o)

/-- Sets `ovr` on an over-range sample and never clears it (R156). -/
def noteRange (o : F32) (s : State) : State := { s with ovr := s.ovr || overRange o }

/-- STATUS (R41). -/
def statusWord (s : State) : Word :=
  (0 : BitVec 28) ++ BitVec.ofBool s.ovr ++ BitVec.ofBool s.fault ++ BitVec.ofBool s.pwrv ++ BitVec.ofBool s.cfgv

/-- CTRL (R42). -/
def ctrlWord (s : State) : Word :=
  (0 : BitVec 27) ++ BitVec.ofBool s.firen ++ s.ch ++ modeCode s.mode

/-- `reg(n)`: the register map of R40; a reserved number names no register. -/
def readReg (s : State) (n : BitVec 8) : Option Word :=
  match n.toNat with
  | 0x00 => some (statusWord s)
  | 0x01 => some (ctrlWord s)
  | 0x02 => some s.freq
  | 0x03 => some s.srate
  | 0x04 => some s.ratio
  | 0x05 => some s.tlen
  | 0x06 => some s.phase
  | 0x07 => some (if s.pwrv then s.txp else 0)
  | 0x08 => some s.fcut
  | 0x09 => some s.wr
  | 0x0A => some s.afill
  | 0x0B => some (s.errcode.setWidth 32)
  | 0x0C => some (s.exitc.setWidth 32)
  | _ => none

end Sys2Proof.Machine
end

