-- ==== Sys2Proof/Machine/Control.lean ====
section
/-! DEFINITION. The control commands STOP (R185) and RDREG (R186), accepted in every state. -/

namespace Sys2Proof.Machine

/-- `STOP` (R185): a `REASON` above 0x06 is no legal header, and nothing is torn down (R89). -/
def execStop (reason : BitVec 8) (s : State) : Result :=
  if reasonDefined reason then .next (respondOk 0 0 (tearDown reason s)) else raiseFault .illegal s

/-- `RDREG` (R186): a `REG` above 0x0C is no legal header (R89). -/
def execRdreg (reg : BitVec 8) (s : State) : Result :=
  match readReg s reg with
  | some v => .next (respondOk v 0 s)
  | none => raiseFault .illegal s

end Sys2Proof.Machine
end

