-- ==== Sys2Proof/Machine/Numerics.lean ====
section
/-! DEFINITION. A reference sine and cosine with the properties of R9, and the hardware's parameters `impl` (R6, R9). -/

namespace Sys2Proof.Machine

/-- One doubling of an angle, on cosine and sine as integers over `2^P`. -/
def doubleAngle (P : Nat) (z : Int × Int) : Int × Int :=
  ((z.1 * z.1 - z.2 * z.2) >>> P, (2 * (z.1 * z.2)) >>> P)

/-- `n` doublings. -/
def doubleTimes (P : Nat) : Nat → Int × Int → Int × Int
  | 0, z => z
  | n + 1, z => doubleAngle P (doubleTimes P n z)

/-- Cosine and sine of the small angle `T / 2^P`, by their Taylor polynomials of degree 3. -/
def smallAngle (P : Nat) (T : Int) : Int × Int :=
  ((2 : Int) ^ P - (T * T) >>> (P + 1), T - (T * T * T) / (6 * (2 : Int) ^ (2 * P)))

/-- The bits of `m * 2^e` above the binary point. -/
def intBits (m : Nat) (e : Int) : Nat := (e + (Nat.log2 m : Int) + 1).toNat

/-- How often the angle `m * 2^e` is halved to make it small. -/
def halvings (m : Nat) (e : Int) : Nat := 4 * intBits m e + 300

/-- The number of fraction bits the cosine and sine of `m * 2^e` are computed with. -/
def trigBits (m : Nat) (e : Int) : Nat := 12 * intBits m e + 2400

/-- Cosine and sine of the binary64 angle `(-1)^neg * m * 2^e` as integers over `2^(trigBits m e)`: far more exact than the bound of R9. -/
def trigRef (neg : Bool) (m : Nat) (e : Int) : Int × Int :=
  doubleTimes (trigBits m e) (halvings m e)
    (smallAngle (trigBits m e) (alignTo (halvings m e - trigBits m e : Int) neg m e))

/-- `S / 2^P` rounded once to binary64. -/
def fixedTo64 (P : Nat) (S : Int) : F64 := BitVec.ofNat 64 (f64.roundInt false S (-(P : Int)))

/-- A function with the properties R9 names of `SIN64`: the reference rounded, `+0` at `+0`, and a NaN at a NaN or an infinity, of which R9 says nothing. -/
def sinRef (x : F64) : F64 :=
  match f64.unpack x.toNat with
  | .fin neg m e => if x = 0 then 0 else fixedTo64 (trigBits m e) (trigRef neg m e).2
  | _ => quiet64 0

/-- A function with the properties R9 names of `COS64`. -/
def cosRef (x : F64) : F64 :=
  match f64.unpack x.toNat with
  | .fin neg m e => if x = 0 then 0x3FF0000000000000#64 else fixedTo64 (trigBits m e) (trigRef neg m e).1
  | _ => quiet64 0

/-- `SIN64` of the hardware: any function R9 allows. Log entries 6 and 9. -/
def implSin : F64 → F64 :=
  match Config.freeNumerics with
  | some n => n.sin64
  | none => sinRef

/-- `COS64` of the hardware: any function R9 allows beside that `SIN64`. Log entries 6 and 9. -/
def implCos : F64 → F64 :=
  match Config.freeNumerics with
  | some n => n.cos64
  | none => cosRef

/-- The hardware: every value the constraints of R6 and the properties of R9 allow. Log entries 5, 6, 7, 8, 14. -/
def impl : Impl where
  fs        := 2 + Config.freeFs % (2 ^ 24 - 1)
  tblMax    := 2 + Config.freeTblMax % (2 ^ 31 - 2)
  nh        := 2 + Config.freeNh % (2 ^ 15 - 2)
  blockSize := 1 + Config.freeBlockSize % (2 ^ 31 - 1)
  abufMax   := 1 + Config.freeAbufMax % (2 ^ 31 - 1)
  sin64     := implSin
  cos64     := implCos
  nan32 n   := quiet32 (Config.freeNan32 n)
  nan64 n   := quiet64 (Config.freeNan64 n)
  cut       := Config.freeCut

end Sys2Proof.Machine
end

