-- ==== Sys2Proof/Machine/Filter.lean ====
section
/-! DEFINITION. The Band-limiting Filter: cutoff, coefficients, the push (R130 to R135), and FPUSH (R136). -/

namespace Sys2Proof.Machine

/-- `theta(f, k)` (R103): `((2*pi*f)*k)/FS` in binary64, three roundings in that order. -/
def theta (I : Impl) (d : Nat) (f : F32) (k : Nat) : F64 :=
  fdiv64 (I.nan64 d)
    (fmul64 (I.nan64 d) (fmul64 (I.nan64 d) twoPi64 (cvt32to64 (I.nan64 d) f)) (u2f64 k)) (fs64 I)

/-- The cutoff (R131). -/
def cutoff (I : Impl) (d : Nat) (srate : F32) : F32 := fmin32 (fmul32 (I.nan32 d) srate half32) fcMax32

/-- `H[i]` (R132): the halved centre tap at 0, the Hamming-windowed sinc above. -/
def coefficient (I : Impl) (d : Nat) (fcut : F32) (i : Nat) : F32 :=
  if i = 0 then
    cvt64to32 (I.nan32 d) (fdiv64 (I.nan64 d) (cvt32to64 (I.nan64 d) fcut) (fs64 I))
  else
    let sinc := fdiv64 (I.nan64 d) (I.sin64 (theta I d fcut i)) (fmul64 (I.nan64 d) pi64 (u2f64 i))
    let win := fadd64 (I.nan64 d) winA64
      (fmul64 (I.nan64 d) winB64
        (I.cos64 (fdiv64 (I.nan64 d) (fmul64 (I.nan64 d) pi64 (u2f64 i)) (u2f64 (I.nh - 1)))))
    cvt64to32 (I.nan32 d) (fmul64 (I.nan64 d) sinc win)

/-- `H[0 .. NH-1]` (R132). -/
def coefficients (I : Impl) (d : Nat) (fcut : F32) : List F32 :=
  (List.range I.nh).map (coefficient I d fcut)

/-- One term of the sum of R134 added to the accumulator: pair, product, sum, each rounded. -/
def firTerm (I : Impl) (d : Nat) (acc c a b : F32) : F32 :=
  fadd32 (I.nan32 (d + 2)) acc (fmul32 (I.nan32 (d + 1)) c (fadd32 (I.nan32 d) a b))

/-- The accumulator of R134 after the terms `0 .. n-1`, from `+0.0` upward. -/
def firSum (I : Impl) (d : Nat) (h hist : Mem F32) (ctr : Nat) : Nat → Except Fault F32
  | 0 => .ok 0
  | i + 1 => do
    let acc ← firSum I d h hist ctr i
    let a ← readEntry I .hist hist (firAhead I ctr i)
    let b ← readEntry I .hist hist (firBehind I ctr i)
    let c ← readEntry I .h h i
    .ok (firTerm I (d + 3 * i) acc c a b)

/-- `fir_push(x)` (R134). -/
def firPush (I : Impl) (x : F32) (s : State) : Except Fault (F32 × State) := do
  let hist ← writeEntry I .hist s.hist s.wr.toNat x
  let y ← firSum I s.draws s.h hist (firCentre I s.wr.toNat) I.nh
  .ok (y, skip (3 * I.nh) { s with hist := hist, wr := nextCursor I s.wr.toNat })

/-- `FPUSH` (R136) on an implementation `I`. -/
def fpushOn (I : Impl) (x : F32) (s : State) : Result :=
  unlessFaulted s <|
    if !s.cfgv then raiseFault .state s
    else if !s.firen then raiseFault .mode s
    else finish do
      let (y, t) ← firPush I x s
      .ok (respondOk y 0 t)

/-- The meaning of `FPUSH`: R136 on the hardware's parameters. -/
def execFpush (arg0 : F32) (s : State) : Result := fpushOn impl arg0 s

end Sys2Proof.Machine
end

