-- ==== Sys2Proof/Machine/Oscillator.lean ====
section
/-! DEFINITION. The oscillator commands CFG (R100 to R109), PWR (R110) and ONEXT (R111, R112). -/

namespace Sys2Proof.Machine

/-- `hit(s)` (R105). -/
def isHit (s : F64) : Bool := flt64 (fabs64 s) eps64

/-- The entries stored at index `k` (R104): cosine and sine in IQ mode, otherwise the sine. The second is stored in IQ mode only. -/
def tableEntry (I : Impl) (d : Nat) (mode : Mode) (f : F32) (k : Nat) : F32 × F32 :=
  let th := theta I d f k
  match mode with
  | .iq => (cvt64to32 (I.nan32 d) (I.cos64 th), cvt64to32 (I.nan32 d) (I.sin64 th))
  | _ => (cvt64to32 (I.nan32 d) (I.sin64 th), 0)

/-- The loop of R104 from index `k`, after `hits` hits, with `room` entries left: the entries from `k` to just before the third hit, or none when the table overflows (R106). -/
def tableFrom (I : Impl) (d : Nat) (mode : Mode) (f : F32) : Nat → Nat → Nat → Option (List (F32 × F32))
  | room, k, hits =>
    let hits' := if isHit (I.sin64 (theta I d f k)) then hits + 1 else hits
    if hits' = 3 then some []
    else match room with
      | 0 => none
      | room + 1 => (tableFrom I d mode f room (k + 1) hits').map (tableEntry I d mode f k :: ·)

/-- `build_table(f, MODE)` (R104). -/
def buildTable (I : Impl) (d : Nat) (mode : Mode) (f : F32) : Option (List (F32 × F32)) :=
  tableFrom I d mode f I.tblMax 0 0

/-- The filter part of the commit (R131 to R133), or its absence (R107). -/
def commitFilter (I : Impl) (firEn : Bool) (r : F32) (s : State) : State :=
  if firEn then
    { s with
      fcut := cutoff I s.draws r
      h := s.h.writeFrom 0 (coefficients I s.draws (cutoff I s.draws r))
      hist := s.hist.writeFrom 0 (List.replicate I.len 0)
      wr := 0 }
  else { s with fcut := 0, wr := 0 }

/-- The source rate and the ratio (R109). -/
def commitRate (I : Impl) (mode : Mode) (r : F32) (s : State) : State :=
  if mode = .carrier then { s with srate := 0, ratio := 0 }
  else { s with srate := r, ratio := fdiv32 (I.nan32 s.draws) (fs32 I) r }

/-- `commit` (R107). -/
def commit (I : Impl) (mode : Mode) (ch : BitVec 2) (firEn : Bool) (f r : F32) (tab : List (F32 × F32))
    (s : State) : State :=
  commitFilter I firEn r <| commitRate I mode r
    { s with
      cfgv := true, mode := mode, ch := ch, firen := firEn, freq := f
      tlen := BitVec.ofNat 32 tab.length, phase := 0, afill := 0
      ti := s.ti.writeFrom 0 (tab.map Prod.fst)
      tq := if mode = .iq then s.tq.writeFrom 0 (tab.map Prod.snd) else s.tq }

/-- `CFG` (R100) on an implementation `I`. A `MODE` of 3 is no legal header (R89). -/
def cfgOn (I : Impl) (m ch : BitVec 2) (firEn : Bool) (f r : F32) (s : State) : Result :=
  unlessFaulted s <|
    match modeOf m with
    | none => raiseFault .illegal s
    | some mode =>
      if s.cfgv then raiseFault .state s
      else if !legalCombo mode ch firEn then raiseFault .chan s
      else if !freqOk I s.draws f then raiseFault .freq s
      else if mode != .carrier && !rateOk r then raiseFault .rate s
      else match buildTable I s.draws mode f with
        | none => raiseFault .tblovf s
        | some tab =>
          .next (respondOk (BitVec.ofNat 32 tab.length) 0 (commit I mode ch firEn f r tab s))

/-- `PWR` (R110) on an implementation `I`. -/
def pwrOn (I : Impl) (p : F32) (s : State) : Result :=
  unlessFaulted s <|
    if powerOk p then
      let q := fdiv32 (I.nan32 s.draws) p hundred32
      .next (respondOk q 0 { s with txp := q, pwrv := true })
    else .next (respondRej s)

/-- `advance()` on the state (R112). -/
def advance (s : State) : State := { s with phase := nextPhase s.phase s.tlen }

/-- `TI[phase]`. -/
def readTi (I : Impl) (s : State) : Except Fault F32 := readEntry I .ti s.ti s.phase.toNat

/-- `TQ[phase]`. -/
def readTq (I : Impl) (s : State) : Except Fault F32 := readEntry I .tq s.tq s.phase.toNat

/-- What `ONEXT` returns beside the in-phase entry (R111): the quadrature entry in IQ mode, otherwise zero. -/
def readQ (I : Impl) (s : State) : Except Fault F32 := if s.mode = .iq then readTq I s else .ok 0

/-- `ONEXT` (R111) on an implementation `I`. -/
def onextOn (I : Impl) (s : State) : Result :=
  unlessFaulted s <|
    if !s.cfgv then raiseFault .state s
    else finish do
      let i ← readTi I s
      let q ← readQ I s
      .ok (respondOk i q (advance s))

/-- The meaning of `CFG`: R100 on the hardware's parameters. -/
def execCfg (mode ch : BitVec 2) (firEn : Bool) (arg0 arg1 : F32) (s : State) : Result :=
  cfgOn impl mode ch firEn arg0 arg1 s

/-- The meaning of `PWR`: R110 on the hardware's parameters. -/
def execPwr (arg0 : F32) (s : State) : Result := pwrOn impl arg0 s

/-- The meaning of `ONEXT`: R111 on the hardware's parameters. -/
def execOnext (s : State) : Result := onextOn impl s

end Sys2Proof.Machine
end

