-- ==== Sys2Proof/Machine/Modulator.lean ====
section
/-! DEFINITION. The modulator (R151 to R157) and STEP (R150). -/

namespace Sys2Proof.Machine

/-- `carrier(i)` (R152). -/
def carrier (I : Impl) (d : Nat) (i txp : F32) : F32 := fmul32 (I.nan32 d) i txp

/-- `mono(c0, c1)` (R154). -/
def mono (I : Impl) (d : Nat) (ch : BitVec 2) (c0 c1 : F32) : F32 :=
  if ch = 1 then c0 else fmul32 (I.nan32 (d + 1)) (fadd32 (I.nan32 d) c0 c1) half32

/-- The four arithmetic steps of the AM envelope (R153). -/
def envelope (I : Impl) (d : Nat) (i a txp : F32) : F32 :=
  fmul32 (I.nan32 (d + 3))
    (fmul32 (I.nan32 (d + 2)) (fmul32 (I.nan32 d) i half32) (fadd32 (I.nan32 (d + 1)) a one32)) txp

/-- `iq(i, q, c0, c1)` (R155). -/
def quadrature (I : Impl) (d : Nat) (i q c0 c1 txp : F32) : F32 :=
  fmul32 (I.nan32 (d + 3))
    (fadd32 (I.nan32 (d + 2)) (fmul32 (I.nan32 d) i c0) (fmul32 (I.nan32 (d + 1)) q c1)) txp

/-- The audio sample as the envelope takes it (R153): filtered when the filter is present. -/
def filtered (I : Impl) (a : F32) (s : State) : Except Fault (F32 × State) :=
  if s.firen then firPush I a s else .ok (a, s)

/-- `am(i, c0, c1)` (R153): downmix, filter when present, envelope. -/
def amSample (I : Impl) (i c0 c1 : F32) (s : State) : Except Fault (F32 × State) := do
  let (b, t) ← filtered I (mono I s.draws s.ch c0 c1) (skip 2 s)
  .ok (envelope I t.draws i b t.txp, skip 4 t)

/-- The mode dispatch of R151: the sample value, and the state after the filter. -/
def modulate (I : Impl) (i c0 c1 : F32) (s : State) : Except Fault (F32 × State) :=
  match s.mode with
  | .carrier => .ok (carrier I s.draws i s.txp, skip 1 s)
  | .am => amSample I i c0 c1 s
  | .iq => do
    let q ← readTq I s
    .ok (quadrature I s.draws i q c0 c1 s.txp, skip 4 s)

/-- `sample(c0, c1)` (R151): table read, modulation, phase advance, over-range flag, emission. -/
def sample (I : Impl) (c0 c1 : F32) (s : State) : Except Fault (F32 × State) := do
  let i ← readTi I s
  let (o, t) ← modulate I i c0 c1 s
  .ok (o, emit o (noteRange o (advance t)))

/-- `STEP` (R150) on an implementation `I`. -/
def stepOn (I : Impl) (c0 c1 : F32) (s : State) : Result :=
  unlessFaulted s <|
    if !s.cfgv then raiseFault .state s
    else if !s.pwrv then raiseFault .nopwr s
    else finish do
      let (o, t) ← sample I c0 c1 s
      .ok (respondOk o 0 t)

/-- The meaning of `STEP`: R150 on the hardware's parameters. -/
def execStep (arg0 arg1 : F32) (s : State) : Result := stepOn impl arg0 arg1 s

end Sys2Proof.Machine
end

