-- ==== Sys2Proof/Machine/Pump.lean ====
section
/-! DEFINITION. The block pump: AUDW (R170) and BLOCK (R171 to R175). -/

namespace Sys2Proof.Machine

/-- `AUDW` (R170) on an implementation `I`. -/
def audwOn (I : Impl) (c0 c1 : F32) (s : State) : Result :=
  unlessFaulted s <|
    if !s.cfgv then raiseFault .state s
    else if s.mode = .carrier then raiseFault .mode s
    else if s.afill.toNat = I.abufMax then raiseFault .aovf s
    else finish do
      let abuf ← writeEntry I .abuf s.abuf s.afill.toNat ⟨c0, c1⟩
      .ok (respondOk (s.afill + 1) 0 { s with abuf := abuf, afill := s.afill + 1 })

/-- `n` samples of a CARRIER block (R172). -/
def carrierBlock (I : Impl) : Nat → State → Except Fault State
  | 0, s => .ok s
  | n + 1, s => do
    let (_, t) ← sample I 0 0 s
    carrierBlock I n t

/-- The samples of the frames `j .. j+n-1` of `ABUF`, in order (R173). -/
def audioBlock (I : Impl) : Nat → Nat → State → Except Fault State
  | 0, _, s => .ok s
  | n + 1, j, s => do
    let fr ← readEntry I .abuf s.abuf j
    let (_, t) ← sample I fr.c0 fr.c1 s
    audioBlock I n (j + 1) t

/-- After an AM or IQ block every frame is discarded (R64, R173). -/
def dropFrames (s : State) : State := { s with afill := 0, abuf := [] }

/-- `BLOCK` (R171) on an implementation `I`. -/
def blockOn (I : Impl) (s : State) : Result :=
  unlessFaulted s <|
    if !s.cfgv then raiseFault .state s
    else if !s.pwrv then raiseFault .nopwr s
    else if s.mode = .carrier then finish do
      let t ← carrierBlock I I.blockSize s
      .ok (respondOk (BitVec.ofNat 32 I.blockSize) 0 t)
    else finish do
      let t ← audioBlock I s.afill.toNat 0 s
      .ok (respondOk s.afill 0 (dropFrames t))

/-- The meaning of `AUDW`: R170 on the hardware's parameters. -/
def execAudw (arg0 arg1 : F32) (s : State) : Result := audwOn impl arg0 arg1 s

/-- The meaning of `BLOCK`: R171 on the hardware's parameters. -/
def execBlock (s : State) : Result := blockOn impl s

end Sys2Proof.Machine
end

