-- ==== Sys2Proof/Machine/Dispatch.lean ====
section
/-! DEFINITION. The meaning of each command (R84). -/

namespace Sys2Proof.Machine

def exec (i : Instr) (s : State) : Host.Outcome State Fault Refusal :=
  match i with
  | .cfg mode ch firEn arg0 arg1 => Sys2Proof.Machine.execCfg mode ch firEn arg0 arg1 s
  | .pwr arg0 => Sys2Proof.Machine.execPwr arg0 s
  | .onext => Sys2Proof.Machine.execOnext s
  | .fpush arg0 => Sys2Proof.Machine.execFpush arg0 s
  | .step arg0 arg1 => Sys2Proof.Machine.execStep arg0 arg1 s
  | .audw arg0 arg1 => Sys2Proof.Machine.execAudw arg0 arg1 s
  | .block => Sys2Proof.Machine.execBlock s
  | .stop reason => Sys2Proof.Machine.execStop reason s
  | .rdreg reg => Sys2Proof.Machine.execRdreg reg s

end Sys2Proof.Machine
end

