-- ==== Sys2Proof/Machine/Accept.lean ====
section
/-! DEFINITION. Accepting what the host does next: a command from the command port, or `rst` (R80, R95, R205, R231). -/

namespace Sys2Proof.Machine

/-- A command accepted from the port runs to completion: its decoding of R95, then its meaning. -/
def runCommand (c : Command) (s : State) : Result :=
  match decode c with
  | .ok i => exec i s
  | .error _ => illegalWord (opcOf c.w0) s

/-- How many of `n` samples a command cut short by `rst` has emitted: any number from 0 to `n` (U15). -/
def cutAt (I : Impl) (d n : Nat) : Nat := I.cut d % (n + 1)

/-- What `rst` leaves of a command in progress (R231): some first samples of it, no response, the reset state. -/
def cutOff (I : Impl) (s t : State) : State :=
  let fresh := t.out.drop s.out.length
  hardReset (skip 1 { t with out := s.out ++ fresh.take (cutAt I t.draws fresh.length), rsp := s.rsp })

/-- A command that `rst` cuts short (R231, U15). -/
def runCutShort (c : Command) (s : State) : Result :=
  match runCommand c s with
  | .next t => .next (cutOff impl s t)
  | r => r

/-- One thing the host does. -/
def accept (i : Input) (s : State) : Result :=
  match i with
  | .command c => runCommand c s
  | .rst => .next (hardReset s)
  | .cutShort c => runCutShort c s

/-- The next thing the host does; with nothing presented the core is idle and holds its state (R218). -/
def acceptNext (s : State) : Result :=
  match s.inputs with
  | [] => .next s
  | i :: rest => accept i { s with inputs := rest }

end Sys2Proof.Machine
end

