-- ==== Sys2Proof/Machine/Step.lean ====
section
/-! DEFINITION. One step: the next command or reset the host presents (R2, R71). -/

namespace Sys2Proof.Machine

/-- One command, or one `rst`, or an idle step. -/
def step (s : State) : Host.Outcome State Fault Refusal := acceptNext s

/-- `s` with the command whose bits are `w` presented at the command port next; the bits at `nbits` and above are zero. Log entry 2. -/
def State.withFetchWord (s : State) (nbits w : Nat) : State :=
  { s with inputs := .command (tableCommand nbits w) :: s.inputs }

end Sys2Proof.Machine
end

