-- ==== Sys2Proof/Safety.lean ====
section
/-! DEFINITION. The terms claims use: the invariants of R44, rounding to a real number (R8), the properties of R9, and runs of commands. -/

namespace Sys2Proof.Machine

/-! ## Written entries and the invariants of R44 -/

/-- Exactly the entries `0 .. n-1` are written (R60). -/
def WrittenBelow {α : Type} (m : Mem α) (n : Nat) : Prop := ∀ i, (m.read i).isSome = true ↔ i < n

/-- Every memory is in its canonical form. -/
structure MemsWf (s : State) : Prop where
  ti   : s.ti.wf
  tq   : s.tq.wf
  h    : s.h.wf
  hist : s.hist.wf
  abuf : s.abuf.wf

/-- R44 (a): what an unconfigured core holds (R22). -/
structure Unconfigured (s : State) : Prop where
  mode  : s.mode = .carrier
  ch    : s.ch = 0
  firen : s.firen = false
  freq  : s.freq = 0
  srate : s.srate = 0
  ratio : s.ratio = 0
  tlen  : s.tlen = 0
  phase : s.phase = 0
  fcut  : s.fcut = 0
  wr    : s.wr = 0
  afill : s.afill = 0
  ti    : s.ti = []
  tq    : s.tq = []
  h     : s.h = []
  hist  : s.hist = []
  abuf  : s.abuf = []

/-- R44 (b), with R26 and R42: what a configured core holds. -/
structure Configured (I : Impl) (s : State) : Prop where
  combo    : legalCombo s.mode s.ch s.firen = true
  tlen_lo  : 2 ≤ s.tlen.toNat
  tlen_hi  : s.tlen.toNat ≤ I.tblMax
  phase_lt : s.phase.toNat < s.tlen.toNat
  ti       : WrittenBelow s.ti s.tlen.toNat
  tq_iq    : s.mode = .iq → WrittenBelow s.tq s.tlen.toNat
  tq_none  : s.mode ≠ .iq → s.tq = []

/-- R44 (c), with R62 and R63: the filter when it is present. -/
structure FilterPresent (I : Impl) (s : State) : Prop where
  cfgv  : s.cfgv = true
  mode  : s.mode = .am
  h     : WrittenBelow s.h I.nh
  hist  : WrittenBelow s.hist I.len
  wr_lt : s.wr.toNat < I.len

/-- The filter when it is absent (R32, R130). -/
structure FilterAbsent (s : State) : Prop where
  h    : s.h = []
  hist : s.hist = []
  wr   : s.wr = 0

/-- The invariants of R44, (a) to (f), with the canonical form of the memories. -/
structure Inv (I : Impl) (s : State) : Prop where
  mems         : MemsWf s
  unconfigured : s.cfgv = false → Unconfigured s
  configured   : s.cfgv = true → Configured I s
  filterOn     : s.firen = true → FilterPresent I s
  filterOff    : s.firen = false → FilterAbsent s
  afill_le     : s.afill.toNat ≤ I.abufMax
  abuf         : WrittenBelow s.abuf s.afill.toNat
  afill_mode   : 0 < s.afill.toNat → s.mode ≠ .carrier
  noFault      : s.fault = false → s.errcode = 0
  power        : s.pwrv = true → fle32 0 s.txp = true ∧ fle32 s.txp one32 = true

/-! ## Rounding, comparison, the numerics functions -/

/-- From this magnitude on a number rounds to an infinity: the largest finite number and half a unit in its last place. -/
noncomputable def Fmt.overflowAt (F : Fmt) : ℝ :=
  ((2 : ℝ) ^ (F.fb + 2) - 1) * (2 : ℝ) ^ (F.emin + (2 ^ F.eb : Nat) - 4)

/-- `r` is the real `x`, not zero, rounded once to nearest, ties to even, with IEEE 754 overflow, and the sign of `x` (R8). -/
structure Fmt.Rounds (F : Fmt) (x : ℝ) (r : Nat) : Prop where
  sign     : F.sign r = decide (x < 0)
  overflow : F.overflowAt ≤ |x| → F.mag r = F.infMag
  finite   : |x| < F.overflowAt → F.finite r = true
  nearest  : |x| < F.overflowAt → ∀ y, F.finite y = true → |F.real r - x| ≤ |F.real y - x|
  even     : |x| < F.overflowAt → ∀ y, F.finite y = true → F.real y ≠ F.real r →
    |F.real r - x| = |F.real y - x| → r % 2 = 0

/-- What a pattern that is no NaN denotes, the infinities among them, as an extended real number: the order IEEE 754 compares in. -/
noncomputable def Fmt.ext (F : Fmt) (bits : Nat) : EReal :=
  match F.unpack bits with
  | .inf neg => if neg then ⊥ else ⊤
  | v => (v.real : EReal)

/-- What a pattern that is no NaN denotes, as an extended real number. -/
noncomputable def ext32 (a : F32) : EReal := f32.ext a.toNat
noncomputable def ext64 (a : F64) : EReal := f64.ext a.toNat

/-- A NaN, quiet or signalling: exponent field all ones and a fraction other than zero. -/
def NanPattern32 (a : F32) : Prop := 0x7F800000 < (a &&& 0x7FFFFFFF#32).toNat
def NanPattern64 (a : F64) : Prop := 0x7FF0000000000000 < (a &&& 0x7FFFFFFFFFFFFFFF#64).toNat

/-- The numerics functions of an implementation have the properties R9 names. -/
def NumericsOk (I : Impl) : Prop := NumericsProps I.sin64 I.cos64

/-! ## Parts of statements -/

/-- The header words of R89, read from the number the word is: `OPC` is `w / 2^24`, `RSV` is `w / 2^8 % 2^16`, `SUB` is `w % 2^8`. -/
def IllegalWord (w : Nat) : Prop :=
  ¬(1 ≤ w / 2 ^ 24 ∧ w / 2 ^ 24 ≤ 9) ∨ w / 2 ^ 8 % 2 ^ 16 ≠ 0 ∨
    (2 ≤ w / 2 ^ 24 ∧ w / 2 ^ 24 ≤ 7 ∧ w % 2 ^ 8 ≠ 0) ∨
    (w / 2 ^ 24 = 1 ∧ (w / 2 ^ 5 % 2 ^ 3 ≠ 0 ∨ w % 2 ^ 2 = 3)) ∨
    (w / 2 ^ 24 = 8 ∧ 0x06 < w % 2 ^ 8) ∨ (w / 2 ^ 24 = 9 ∧ 0x0C < w % 2 ^ 8)

/-- `s` with one response more (R82). -/
def Answered (code : BitVec 8) (d0 d1 : Word) (s : State) : State := { s with rsp := s.rsp ++ [⟨code, d0, d1⟩] }

/-- What fault entry leaves of a state without a fault (R206). -/
def FaultEntered (code : BitVec 8) (s : State) : State :=
  { s with fault := true, errcode := code, rsp := s.rsp ++ [⟨code, 0, 0⟩] }

/-- What the emission of one sample `o` leaves (R112, R151, R156): the phase one further modulo the table length, the over-range warning, the sample sent. -/
def Emitted (o : F32) (s : State) : State :=
  { s with
    phase := BitVec.ofNat 32 ((s.phase.toNat + 1) % s.tlen.toNat)
    ovr := s.ovr || flt32 one32 (fabs32 o)
    out := s.out ++ [o] }

/-- A binary32 quiet NaN (R12): exponent field all ones, top fraction bit set (PRESUMED, log entry 8). -/
def QuietNan (a : F32) : Prop := a &&& 0x7FC00000#32 = 0x7FC00000#32

/-- A choice of NaN results (R12): which quiet NaN the operation numbered `j` answers where it answers one. Log entries 7 and 8. -/
def NanChoice (n : Nat → F32) : Prop := ∀ j, QuietNan (n j)

/-- `s` can produce samples: no fault, configured, power written (R150, R171). -/
structure Ready (s : State) : Prop where
  fault : s.fault = false
  cfgv  : s.cfgv = true
  pwrv  : s.pwrv = true

/-- The carrier tables of `s` are inside their memories and `phase` is inside the table (R44 b). -/
structure PhaseInside (I : Impl) (s : State) : Prop where
  tlen_le  : s.tlen.toNat ≤ I.tblMax
  phase_lt : s.phase.toNat < s.tlen.toNat

/-- `theta(g, k)` of R103, written out with the constants of R10: `((2*pi*g)*k)/FS`, three roundings in that order; `n` is what a NaN result would be. -/
def angle (I : Impl) (n : F64) (g : F32) (k : Nat) : F64 :=
  fdiv64 n (fmul64 n (fmul64 n 0x401921FB54442D18#64 (cvt32to64 n g)) (u2f64 k)) (u2f64 I.fs)

/-- `hit(SIN64(theta(f, k)))` (R104, R105), with `EPS` of R10. -/
def hitAt (I : Impl) (d : Nat) (f : F32) (k : Nat) : Bool :=
  flt64 (fabs64 (I.sin64 (angle I (I.nan64 d) f k))) 0x3E7AD7F29ABCAF48#64

/-- `K` is the least index such that exactly three indices up to it are hits (R104). -/
structure ThirdHit (I : Impl) (d : Nat) (f : F32) (K : Nat) : Prop where
  hit    : hitAt I d f K = true
  before : ((List.range K).filter (hitAt I d f)).length = 2

/-- The legal (`MODE`, `CH`, `FIR_EN`) of R101. -/
def legalCombos : List (BitVec 2 × BitVec 2 × Bool) :=
  [(0, 0, false), (1, 1, false), (1, 1, true), (1, 2, false), (1, 2, true), (2, 2, false)]

/-- A memory holds the list `l` from index 0 on. -/
def Holds {α : Type} (m : Mem α) (l : List α) : Prop := ∀ i < l.length, m.read i = l[i]?

/-- The history holds `ws`, the most recent `L` samples pushed, oldest first (R63): the oldest stands where the next push writes. -/
structure Window (I : Impl) (s : State) (ws : List F32) : Prop where
  length : ws.length = I.len
  entry  : ∀ j < I.len, s.hist.read ((s.wr.toNat + j) % I.len) = ws[j]?

/-- The filter can run (R44 c): coefficients `hs`, history `ws`, cursor inside the history. -/
structure FilterHolds (I : Impl) (s : State) (hs ws : List F32) : Prop where
  taps   : hs.length = I.nh
  coeff  : Holds s.h hs
  window : Window I s ws
  wr_lt  : s.wr.toNat < I.len

/-- The sum of R134 on lists: `hs` the coefficients, `ws` the last `2*NH - 1` samples, oldest first, so that the centre stands at `NH - 1`; the terms `0 .. k-1` from `+0.0` upward. -/
def firRef (n : Nat → F32) (hs ws : List F32) : Nat → F32
  | 0 => 0
  | i + 1 =>
    fadd32 (n (3 * i + 2)) (firRef n hs ws i)
      (fmul32 (n (3 * i + 1)) (hs.getD i 0)
        (fadd32 (n (3 * i)) (ws.getD (hs.length - 1 + i) 0) (ws.getD (hs.length - 1 - i) 0)))

/-- The accumulator of R135 for a constant input whose double is `w`: the terms `0 .. k-1` from `+0.0` upward. -/
def dcRef (n : Nat → F32) (hs : List F32) (w : F32) : Nat → F32
  | 0 => 0
  | i + 1 => fadd32 (n (2 * i + 1)) (dcRef n hs w i) (fmul32 (n (2 * i)) (hs.getD i 0) w)

/-- The state after a push of `x` into the filter (R65, R134): one history entry written, the cursor one further modulo `L`. -/
def Pushed (I : Impl) (x : F32) (s : State) : State :=
  { s with hist := s.hist.write s.wr.toNat x, wr := BitVec.ofNat 32 ((s.wr.toNat + 1) % I.len) }

/-! ## Runs -/

/-- Commands executed one after another (R71), up to the first stop. -/
def execAll : List Instr → State → Result
  | [], s => .next s
  | i :: r, s =>
    match exec i s with
    | .next t => execAll r t
    | o => o

/-- The memory that holds a list from index 0 on. -/
def Mem.ofList {α : Type} (l : List α) : Mem α := Mem.writeFrom [] 0 l

end Sys2Proof.Machine
end

