-- ==== Sys2Proof/Certificates/Slice0/Obligations.lean ====
section
/-! DEFINITION. The statements for the provers. -/

open Sys2Proof Sys2Proof.Machine

/-! ## Encoding -/

/-- R92, R95, R66: decoding an encoded command gives it back, whatever follows it in a serialised stream. -/
def Obligations.DecodeEncode : Prop :=
  ∀ i : Instr, i.WellFormed = true →
    decode (encode i) = .ok i ∧ ∀ rest, decodeBytes (encodeBytes i ++ rest) = .ok (i, rest)

/-- R84 to R87: a header word that decodes is the header word of the command it decodes to, and that command is well formed. -/
def Obligations.EncodeDecode : Prop :=
  ∀ (c : Command) (i : Instr), decode c = .ok i → i.WellFormed = true ∧ (encode i).w0 = c.w0

/-- R89: exactly these header words are illegal; each raises `E_ILLEGAL` and does nothing else. -/
def Obligations.IllegalWords : Prop :=
  (∀ c : Command, (∃ e, decode c = .error e) ↔ IllegalWord c.w0.toNat) ∧
  (∀ (c : Command) (s : State), IllegalWord c.w0.toNat → s.fault = false →
    runCommand c s = .next (FaultEntered 0x10 s)) ∧
  IllegalWord 0x00000000 ∧ IllegalWord 0xFFFFFFFF

/-- R88: the operand words a command ignores have no effect. That a NaN result of the two runs is the same bit for bit is the model's choice, log entry 7. -/
def Obligations.IgnoredWords : Prop :=
  ∀ (w0 a b a' b' : Word) (s : State),
    ((∃ e, decode ⟨w0, a, b⟩ = .error e) ↔ ∃ e, decode ⟨w0, a', b'⟩ = .error e) ∧
    (w0.toNat / 2 ^ 24 ∈ [0x03, 0x07, 0x08, 0x09] → runCommand ⟨w0, a, b⟩ s = runCommand ⟨w0, a', b'⟩ s) ∧
    (w0.toNat / 2 ^ 24 ∈ [0x02, 0x04] → runCommand ⟨w0, a, b⟩ s = runCommand ⟨w0, a, b'⟩ s) ∧
    (w0.toNat / 2 ^ 24 = 0x01 → w0.toNat % 4 = 0 → runCommand ⟨w0, a, b⟩ s = runCommand ⟨w0, a, b'⟩ s) ∧
    (w0.toNat / 2 ^ 24 = 0x05 → s.mode = .carrier → runCommand ⟨w0, a, b⟩ s = runCommand ⟨w0, a', b'⟩ s) ∧
    (w0.toNat / 2 ^ 24 = 0x05 → s.mode = .am → s.ch = 1 → runCommand ⟨w0, a, b⟩ s = runCommand ⟨w0, a, b'⟩ s)

/-- A few words of V1, for every operand word. -/
def Obligations.SampleWords : Prop :=
  ∀ a b : Word,
    decode ⟨0x01000019, a, b⟩ = .ok (.cfg 1 2 true a b) ∧ decode ⟨0x02000000, a, b⟩ = .ok (.pwr a) ∧
    decode ⟨0x03000000, a, b⟩ = .ok .onext ∧ decode ⟨0x04000000, a, b⟩ = .ok (.fpush a) ∧
    decode ⟨0x05000000, a, b⟩ = .ok (.step a b) ∧ decode ⟨0x06000000, a, b⟩ = .ok (.audw a b) ∧
    decode ⟨0x07000000, a, b⟩ = .ok .block ∧ decode ⟨0x08000004, a, b⟩ = .ok (.stop 4) ∧
    decode ⟨0x0900000C, a, b⟩ = .ok (.rdreg 0x0C)

/-- R71: a step runs the command the host presents next, and takes it off the host's list; nothing else stands around it. -/
def Obligations.StepRunsCommand : Prop :=
  ∀ (s : State) (c : Command) (i : Instr) (rest : List Input), s.inputs = .command c :: rest → decode c = .ok i →
    step s = exec i { s with inputs := rest }

/-! ## Reset -/

/-- R43: after reset every register of R40 reads zero, and `txp` and every memory are unwritten. -/
def Obligations.ResetValues : Prop :=
  (∀ n : BitVec 8, n ≤ 0x0C → readReg State.reset n = some 0) ∧
  (State.reset.cfgv = false ∧ State.reset.pwrv = false ∧ State.reset.fault = false ∧ State.reset.ovr = false) ∧
  (State.reset.mode = .carrier ∧ State.reset.ch = 0 ∧ State.reset.firen = false) ∧
  (State.reset.freq = 0 ∧ State.reset.srate = 0 ∧ State.reset.ratio = 0 ∧ State.reset.fcut = 0) ∧
  (State.reset.tlen = 0 ∧ State.reset.phase = 0 ∧ State.reset.wr = 0 ∧ State.reset.afill = 0) ∧
  (State.reset.errcode = 0 ∧ State.reset.exitc = 0) ∧
  ∀ k, State.reset.ti.read k = none ∧ State.reset.tq.read k = none ∧ State.reset.h.read k = none ∧
    State.reset.hist.read k = none ∧ State.reset.abuf.read k = none

/-- R231, R208 and U15: `rst` takes every register and memory to its reset value, from any state; what was sent stays sent. During a command it leaves no response, and the first samples of the command, however many. That `rst` and the commands come from the list `inputs` is the model's own, log entries 1 and 14; that a NaN sample is that of the whole command bit for bit, log entry 7. -/
def Obligations.HardwareReset : Prop :=
  (∀ (s : State) (rest : List Input), s.inputs = .rst :: rest →
    step s = .next { State.reset with rsp := s.rsp, out := s.out, inputs := rest, draws := s.draws }) ∧
  ∀ (s t u : State) (c : Command) (rest : List Input), s.inputs = .cutShort c :: rest → step s = .next t →
    runCommand c { s with inputs := rest } = .next u →
    ∃ d k, t = { State.reset with rsp := s.rsp, out := u.out.take (s.out.length + k), inputs := rest, draws := d }

/-! ## Invariants -/

/-- R43, R44: the invariants hold after reset. -/
def Obligations.InvAtReset : Prop := Inv impl State.reset

/-- R44: every step keeps the invariants, the canonical form of the memories (log entry 4) among them. -/
def Obligations.InvKept : Prop := ∀ s t : State, Inv impl s → step s = .next t → Inv impl t

/-- R60, R236: where the invariants hold no step is stuck: no unwritten entry is read, no index is outside its memory, every command ends. -/
def Obligations.NeverStuck : Prop := ∀ s : State, Inv impl s → ∃ t, step s = .next t

/-! ## CFG -/

/-- R100, R103, R104, R107, R109, R131 to R133: a `CFG` that passes its checks commits its table of `K` entries, its registers and its filter, changes nothing else, and answers `K`. `n` and `m` stand where a rounding could answer a NaN, log entry 19. The coefficients are R132 primitive by primitive, the angle of the table and of the sinc (`angle`) is R103 primitive by primitive. -/
def Obligations.CfgCompletes : Prop :=
  ∀ (s : State) (mode : Mode) (ch : BitVec 2) (firEn : Bool) (f r : F32) (K : Nat) (n : F64) (m : F32),
    n = impl.nan64 s.draws → m = impl.nan32 s.draws →
    s.fault = false → s.cfgv = false → (modeCode mode, ch, firEn) ∈ legalCombos →
    flt32 0 f = true → flt32 f (fmul32 m (fs32 impl) half32) = true →
    (mode ≠ .carrier → flt32 0 r = true ∧ flt32 r inf32 = true) →
    ThirdHit impl s.draws f K → K ≤ impl.tblMax →
    ∃ t, exec (.cfg (modeCode mode) ch firEn f r) s = .next t ∧
      t = { Answered 0x00 (BitVec.ofNat 32 K) 0 s with
        cfgv := true, mode := mode, ch := ch, firen := firEn, freq := f
        tlen := t.tlen, phase := 0, afill := 0, wr := 0, fcut := t.fcut
        srate := t.srate, ratio := t.ratio, ti := t.ti, tq := t.tq, h := t.h, hist := t.hist } ∧
      t.tlen.toNat = K ∧
      (∀ k < K, t.ti.read k = some (cvt64to32 m
        (if mode = .iq then impl.cos64 (angle impl n f k) else impl.sin64 (angle impl n f k)))) ∧
      (∀ k, K ≤ k → t.ti.read k = s.ti.read k) ∧
      (mode = .iq → (∀ k < K, t.tq.read k = some (cvt64to32 m (impl.sin64 (angle impl n f k)))) ∧
        ∀ k, K ≤ k → t.tq.read k = s.tq.read k) ∧
      (mode ≠ .iq → t.tq = s.tq) ∧
      (mode = .carrier → t.srate = 0 ∧ t.ratio = 0) ∧
      (mode ≠ .carrier → t.srate = r ∧ t.ratio = fdiv32 m (fs32 impl) r) ∧
      (firEn = false → t.fcut = 0 ∧ t.h = s.h ∧ t.hist = s.hist) ∧
      (firEn = true → t.fcut = fmin32 (fmul32 m r half32) fcMax32 ∧
        t.h.read 0 = some (cvt64to32 m (fdiv64 n (cvt32to64 n t.fcut) (u2f64 impl.fs))) ∧
        (∀ i, 1 ≤ i → i < impl.nh → t.h.read i = some (cvt64to32 m (fmul64 n
          (fdiv64 n (impl.sin64 (angle impl n t.fcut i)) (fmul64 n 0x400921FB54442D18 (u2f64 i)))
          (fadd64 n 0x3FE147AE147AE148 (fmul64 n 0x3FDD70A3D70A3D71
            (impl.cos64 (fdiv64 n (fmul64 n 0x400921FB54442D18 (u2f64 i)) (u2f64 (impl.nh - 1))))))))) ∧
        (∀ i, impl.nh ≤ i → t.h.read i = s.h.read i) ∧
        (∀ i < impl.len, t.hist.read i = some 0) ∧ (∀ i, impl.len ≤ i → t.hist.read i = s.hist.read i))

/-- R101: `E_CHAN` exactly for the combinations that are not legal. -/
def Obligations.LegalCombinations : Prop :=
  ∀ (s : State) (m ch : BitVec 2) (firEn : Bool) (f r : F32), s.fault = false → s.cfgv = false → m ≠ 3 →
    ((m, ch, firEn) ∉ [(0, 0, false), (1, 1, false), (1, 1, true), (1, 2, false), (1, 2, true), (2, 2, false)] ↔
      exec (.cfg m ch firEn f r) s = .next (FaultEntered 0x13 s))

/-- R100, R205: the other checks of `CFG` in their order, each the first that fails. -/
def Obligations.CfgFaults : Prop :=
  ∀ (s : State) (m ch : BitVec 2) (firEn : Bool) (f r : F32), s.fault = false → m ≠ 3 →
    (s.cfgv = true → exec (.cfg m ch firEn f r) s = .next (FaultEntered 0x11 s)) ∧
    (s.cfgv = false → (m, ch, firEn) ∈ legalCombos →
      ¬(finite32 f = true ∧ 0 < real32 f ∧ real32 f < (impl.fs : ℝ) / 2) →
      exec (.cfg m ch firEn f r) s = .next (FaultEntered 0x14 s)) ∧
    (s.cfgv = false → (m, ch, firEn) ∈ legalCombos →
      finite32 f = true → 0 < real32 f → real32 f < (impl.fs : ℝ) / 2 →
      m ≠ 0 → ¬(finite32 r = true ∧ 0 < real32 r) →
      exec (.cfg m ch firEn f r) s = .next (FaultEntered 0x15 s))

/-- R106: with no third hit at any index up to `TBL_MAX`, `CFG` raises `E_TBLOVF` and commits nothing. Stated for every implementation, since one with a large `TBL_MAX` may have no such frequency. -/
def Obligations.TableOverflow : Prop :=
  (∀ (I : Impl) (s : State) (m ch : BitVec 2) (firEn : Bool) (f r : F32), s.fault = false → s.cfgv = false →
    (m, ch, firEn) ∈ legalCombos → freqOk I s.draws f = true → (m ≠ 0 → rateOk r = true) →
    (∀ K ≤ I.tblMax, ¬ThirdHit I s.draws f K) →
    cfgOn I m ch firEn f r s = .next (FaultEntered 0x16 s)) ∧
  ∀ (s : State) (m ch : BitVec 2) (firEn : Bool) (f r : F32), exec (.cfg m ch firEn f r) s = cfgOn impl m ch firEn f r s

/-- R102, R109, R110: the operand ranges as real numbers. -/
def Obligations.OperandRanges : Prop :=
  ∀ (d : Nat) (x : F32),
    (freqOk impl d x = true ↔ finite32 x = true ∧ 0 < real32 x ∧ real32 x < (impl.fs : ℝ) / 2) ∧
    (rateOk x = true ↔ finite32 x = true ∧ 0 < real32 x) ∧
    (powerOk x = true ↔ finite32 x = true ∧ 0 ≤ real32 x ∧ real32 x ≤ 100)

/-- R104, R105, R112: the table starts at phase 0 of the waveform, index 0 is the first hit, and the table has two entries at least. -/
def Obligations.TableStart : Prop :=
  ∀ (s t : State) (m ch : BitVec 2) (firEn : Bool) (f r : F32), s.fault = false → s.cfgv = false →
    exec (.cfg m ch firEn f r) s = .next t → t.fault = false →
    hitAt impl s.draws f 0 = true ∧ 2 ≤ t.tlen.toNat ∧ t.tlen.toNat ≤ impl.tblMax ∧ t.phase = 0 ∧
    (t.mode ≠ .iq → t.ti.read 0 = some 0) ∧ (t.mode = .iq → t.ti.read 0 = some one32 ∧ t.tq.read 0 = some 0)

/-- R108, on every implementation whose parameters meet R6 and whose `SIN64` and `COS64` have the properties of R9: for `f/FS = p/q` in lowest terms with `q` at most `2^20` the third hit is at `q` or `2*q`, so that the table spans whole cycles. A `CFG` that passes its other checks leaves `tlen` there when the table memory is large enough, and otherwise raises `E_TBLOVF`. The hardware's `CFG` is `cfgOn impl` (TableOverflow). -/
def Obligations.TableSpansWholeCycles : Prop :=
  ∀ (I : Impl) (d : Nat) (f : F32) (p q K : Nat), I.Legal → NumericsOk I → freqOk I d f = true →
    p.Coprime q → 0 < q → q ≤ 2 ^ 20 → real32 f * q = p * (I.fs : ℝ) → K = (if q % 2 = 0 then q else 2 * q) →
    (∀ j, ThirdHit I d f j ↔ j = K) ∧
    ∀ (s : State) (m ch : BitVec 2) (firEn : Bool) (r : F32), s.draws = d → s.fault = false → s.cfgv = false →
      (m, ch, firEn) ∈ legalCombos → (m ≠ 0 → rateOk r = true) →
      (K ≤ I.tblMax → ∃ t, cfgOn I m ch firEn f r s = .next t ∧ t.fault = false ∧ t.tlen.toNat = K ∧
        t.rsp = s.rsp ++ [⟨0x00, BitVec.ofNat 32 K, 0⟩]) ∧
      (I.tblMax < K → cfgOn I m ch firEn f r s = .next (FaultEntered 0x16 s))

/-! ## PWR, ONEXT, FPUSH -/

/-- R110: an accepted `PWR` stores `p/100`, no NaN among its possible results, and changes nothing else. -/
def Obligations.PwrAccepted : Prop :=
  ∀ (s : State) (p n : F32), s.fault = false → fle32 0 p = true → fle32 p hundred32 = true →
    exec (.pwr p) s = .next
      { Answered 0x00 (fdiv32 n p hundred32) 0 s with txp := fdiv32 n p hundred32, pwrv := true }

/-- R204, R110: any other power, a NaN among them, is answered `REJ` and changes nothing. -/
def Obligations.PwrRejected : Prop :=
  ∀ (s : State) (p : F32), s.fault = false → ¬(fle32 0 p = true ∧ fle32 p hundred32 = true) →
    exec (.pwr p) s = .next (Answered 0x01 0 0 s)

/-- R111, R112: `ONEXT` answers the table entries at `phase` and advances it; nothing else changes, no sample is sent. -/
def Obligations.OnextCompletes : Prop :=
  ∀ (s : State) (i q : F32), s.fault = false → s.cfgv = true → PhaseInside impl s →
    s.ti.read s.phase.toNat = some i → (s.mode = .iq → s.tq.read s.phase.toNat = some q) →
    exec .onext s = .next
      { Answered 0x00 i (if s.mode = .iq then q else 0) s with
        phase := BitVec.ofNat 32 ((s.phase.toNat + 1) % s.tlen.toNat) }

/-- R63, R134, R136: `FPUSH` answers the symmetric sum over the last `2*NH - 1` samples, the pushed one the newest; the history moves on by one sample and nothing else changes. A NaN result is some quiet NaN, of the family's form, log entry 8. -/
def Obligations.FpushCompletes : Prop :=
  ∀ (s : State) (x : F32) (hs ws : List F32), s.fault = false → s.cfgv = true → s.firen = true →
    FilterHolds impl s hs ws →
    ∃ n d, NanChoice n ∧
      exec (.fpush x) s = .next { Answered 0x00 (firRef n hs (ws.drop 1 ++ [x]) impl.nh) 0 (Pushed impl x s) with draws := d } ∧
      FilterHolds impl (Pushed impl x s) hs (ws.drop 1 ++ [x])

/-- R63, R134: after any pushes the history holds the most recent `L` samples. -/
def Obligations.HistoryHoldsRecent : Prop :=
  ∀ (xs : List F32) (s : State) (hs ws : List F32), s.fault = false → s.cfgv = true → s.firen = true →
    FilterHolds impl s hs ws →
    ∃ t, execAll (xs.map .fpush) s = .next t ∧ FilterHolds impl t hs ((ws ++ xs).drop xs.length) ∧
      t.rsp.length = s.rsp.length + xs.length ∧ t.out = s.out

/-- R135: after `L` pushes or more of one finite value `v` the answer is constant: the sum of the coefficients times `2*v`, which is exact. A NaN among the sums is some quiet NaN, whose form is the family's, log entry 8. -/
def Obligations.DcSteadyState : Prop :=
  ∀ (k : Nat) (s : State) (v : F32) (hs ws : List F32), s.fault = false → s.cfgv = true → s.firen = true →
    FilterHolds impl s hs ws → finite32 v = true → |2 * real32 v| < f32.overflowAt → impl.len ≤ k + 1 →
    ∃ t u n w, execAll (List.replicate k (.fpush v)) s = .next t ∧ exec (.fpush v) t = .next u ∧ NanChoice n ∧
      finite32 w = true ∧ real32 w = 2 * real32 v ∧ u.rsp = t.rsp ++ [⟨0x00, dcRef n hs w impl.nh, 0⟩]

/-! ## STEP -/

/-- R152: in CARRIER mode the sample is `fmul32(TI[phase], txp)`, whatever the frame. A NaN result is some quiet NaN, of the family's form, log entry 8. -/
def Obligations.StepCarrier : Prop :=
  ∀ (s : State) (c0 c1 i : F32), Ready s → PhaseInside impl s → s.mode = .carrier →
    s.ti.read s.phase.toNat = some i →
    ∃ n d, NanChoice n ∧
      exec (.step c0 c1) s = .next
        { Answered 0x00 (fmul32 (n 0) i s.txp) 0 (Emitted (fmul32 (n 0) i s.txp) s) with draws := d }

/-- R153, R154 without the filter: downmix, then the envelope in four rounded steps. A NaN result is some quiet NaN, of the family's form, log entry 8. -/
def Obligations.StepAm : Prop :=
  ∀ (s : State) (c0 c1 i : F32), Ready s → PhaseInside impl s → s.mode = .am → s.ch = 1 ∨ s.ch = 2 →
    s.firen = false → s.ti.read s.phase.toNat = some i →
    ∃ n d a o, NanChoice n ∧
      a = (if s.ch = 1 then c0 else fmul32 (n 1) (fadd32 (n 0) c0 c1) half32) ∧
      o = fmul32 (n 5) (fmul32 (n 4) (fmul32 (n 2) i half32) (fadd32 (n 3) a one32)) s.txp ∧
      exec (.step c0 c1) s = .next { Answered 0x00 o 0 (Emitted o s) with draws := d }

/-- R153, R154, R134 with the filter: downmix, then the filter, then the envelope. A NaN result is some quiet NaN, of the family's form, log entry 8. -/
def Obligations.StepAmFiltered : Prop :=
  ∀ (s : State) (c0 c1 i : F32) (hs ws : List F32), Ready s → PhaseInside impl s → s.mode = .am →
    s.ch = 1 ∨ s.ch = 2 → s.firen = true → s.ti.read s.phase.toNat = some i → FilterHolds impl s hs ws →
    ∃ n m d x o, NanChoice n ∧ NanChoice m ∧
      x = (if s.ch = 1 then c0 else fmul32 (n 1) (fadd32 (n 0) c0 c1) half32) ∧
      o = fmul32 (n 5) (fmul32 (n 4) (fmul32 (n 2) i half32)
        (fadd32 (n 3) (firRef m hs (ws.drop 1 ++ [x]) impl.nh) one32)) s.txp ∧
      exec (.step c0 c1) s = .next { Answered 0x00 o 0 (Emitted o (Pushed impl x s)) with draws := d }

/-- R155: the in-phase entry times channel 0 plus the quadrature entry times channel 1, times the power. A NaN result is some quiet NaN, of the family's form, log entry 8. -/
def Obligations.StepIq : Prop :=
  ∀ (s : State) (c0 c1 i q : F32), Ready s → PhaseInside impl s → s.mode = .iq →
    s.ti.read s.phase.toNat = some i → s.tq.read s.phase.toNat = some q →
    ∃ n d o, NanChoice n ∧
      o = fmul32 (n 3) (fadd32 (n 2) (fmul32 (n 0) i c0) (fmul32 (n 1) q c1)) s.txp ∧
      exec (.step c0 c1) s = .next { Answered 0x00 o 0 (Emitted o s) with draws := d }

/-- R158: the exact identities (a) to (f), for a table entry that is finite and zero or at least `2^-125` in magnitude. -/
def Obligations.ExactIdentities : Prop :=
  ∀ (I : Impl) (d : Nat) (i txp : F32), finite32 i = true → (real32 i = 0 ∨ (2 : ℝ) ^ (-125 : ℤ) ≤ |real32 i|) →
    fle32 0 txp = true → fle32 txp one32 = true →
    (txp = one32 → carrier I d i txp = i) ∧
    (∀ n, envelope I d i 0 txp = fmul32 n (fmul32 n i half32) txp) ∧
    (∀ n, envelope I d i one32 txp = fmul32 n i txp) ∧
    (∀ n, fadd32 n 0xBF800000 one32 = 0 ∧ fmul32 n (fmul32 n i half32) 0 = i &&& 0x80000000#32 ∧
      envelope I d i 0xBF800000 txp &&& 0x7FFFFFFF#32 = 0) ∧
    (∀ n q, finite32 q = true → (i &&& 0x7FFFFFFF#32 ≠ 0 → quadrature I d i q one32 0 txp = fmul32 n i txp) ∧
      real32 (quadrature I d i q one32 0 txp) = real32 (fmul32 n i txp)) ∧
    (∀ n q, finite32 q = true → (i &&& 0x7FFFFFFF#32 ≠ 0 → quadrature I d q i 0 one32 txp = fmul32 n i txp) ∧
      real32 (quadrature I d q i 0 one32 txp) = real32 (fmul32 n i txp))

/-! ## AUDW and BLOCK -/

/-- R170, R64: the frame is stored at `afill` as given, `afill` counts it and is answered, nothing else changes. -/
def Obligations.AudwCompletes : Prop :=
  ∀ (s : State) (c0 c1 : F32), s.fault = false → s.cfgv = true → s.mode ≠ .carrier → s.afill.toNat < impl.abufMax →
    exec (.audw c0 c1) s = .next
      { Answered 0x00 (BitVec.ofNat 32 (s.afill.toNat + 1)) 0 s with
        abuf := s.abuf.write s.afill.toNat ⟨c0, c1⟩, afill := BitVec.ofNat 32 (s.afill.toNat + 1) } ∧
    (s.abuf.write s.afill.toNat ⟨c0, c1⟩).read s.afill.toNat = some ⟨c0, c1⟩ ∧
    ∀ j, j ≠ s.afill.toNat → (s.abuf.write s.afill.toNat ⟨c0, c1⟩).read j = s.abuf.read j

/-- R171, R172: a CARRIER block sends `BLOCKSIZE` samples, the table from `phase` on and round again, each times the power. A NaN result is some quiet NaN, of the family's form, log entry 8. -/
def Obligations.BlockCarrier : Prop :=
  ∀ (s : State) (tab : List F32), Ready s → PhaseInside impl s → s.mode = .carrier → tab.length = s.tlen.toNat →
    Holds s.ti tab →
    ∃ n d l, NanChoice n ∧
      l = (List.range impl.blockSize).map
        (fun j => fmul32 (n j) (tab.getD ((s.phase.toNat + j) % s.tlen.toNat) 0) s.txp) ∧
      exec .block s = .next { Answered 0x00 (BitVec.ofNat 32 impl.blockSize) 0 s with
        phase := BitVec.ofNat 32 ((s.phase.toNat + impl.blockSize) % s.tlen.toNat)
        ovr := s.ovr || l.any (fun o => flt32 one32 (fabs32 o)), out := s.out ++ l, draws := d }

/-- R171, R173, R175, R234: an AM or IQ block is `STEP` on each buffered frame in order, none inserted, dropped or repeated; it then empties the buffer and answers the count. That a NaN sample of the block is bit for bit the NaN of the step, and that `draws` ends the same, is the model's choice, log entry 7: R12 leaves sign and payload of a NaN open and compares NaNs by an is-NaN test only. -/
def Obligations.BlockIsSteps : Prop :=
  ∀ (s : State) (frames : List Frame), Inv impl s → Ready s → s.mode ≠ .carrier →
    frames.length = s.afill.toNat → Holds s.abuf frames →
    ∃ u l, execAll (frames.map fun fr => .step fr.c0 fr.c1) s = .next u ∧
      u.out = s.out ++ l ∧ l.length = s.afill.toNat ∧ u.rsp = s.rsp ++ l.map (fun o => ⟨0x00, o, 0⟩) ∧
      exec .block s = .next { u with rsp := s.rsp ++ [⟨0x00, s.afill, 0⟩], afill := 0, abuf := [] }

/-! ## STOP and RDREG -/

/-- R185, R208: from every state, a fault among them, `STOP` leaves the reset state but for `exitc`; what was sent stays sent. -/
def Obligations.StopCompletes : Prop :=
  ∀ (s : State) (reason : BitVec 8), reason ≤ 0x06 →
    exec (.stop reason) s = .next
      { State.reset with
        exitc := reason, rsp := s.rsp ++ [⟨0x00, 0, 0⟩], out := s.out, inputs := s.inputs, draws := s.draws }

/-- R40 to R42, R186: in every state `RDREG` answers the register's value, bit by bit for STATUS and CTRL, and changes nothing. -/
def Obligations.RdregCompletes : Prop :=
  ∀ (s : State) (status ctrl : Word),
    status.toNat = s.cfgv.toNat + 2 * s.pwrv.toNat + 4 * s.fault.toNat + 8 * s.ovr.toNat →
    ctrl.toNat = (match s.mode with | .carrier => 0 | .am => 1 | .iq => 2) + 4 * s.ch.toNat + 16 * s.firen.toNat →
    ∀ k v, [status, ctrl, s.freq, s.srate, s.ratio, s.tlen, s.phase, if s.pwrv then s.txp else 0, s.fcut, s.wr,
        s.afill, BitVec.ofNat 32 s.errcode.toNat, BitVec.ofNat 32 s.exitc.toNat][k]? = some v →
      exec (.rdreg (BitVec.ofNat 8 k)) s = .next (Answered 0x00 v 0 s)

/-! ## Faults -/

/-- R201, R205: the checks of the other commands, in order; fault entry changes nothing but the flag, the code and the response (R206). -/
def Obligations.CommandFaults : Prop :=
  ∀ (s : State) (x y : F32), s.fault = false →
    (s.cfgv = false → ∀ i ∈ [Instr.onext, .fpush x, .step x y, .audw x y, .block],
      exec i s = .next (FaultEntered 0x11 s)) ∧
    (s.cfgv = true → s.firen = false → exec (.fpush x) s = .next (FaultEntered 0x17 s)) ∧
    (s.cfgv = true → s.pwrv = false → exec (.step x y) s = .next (FaultEntered 0x12 s) ∧
      exec .block s = .next (FaultEntered 0x12 s)) ∧
    (s.cfgv = true → s.mode = .carrier → exec (.audw x y) s = .next (FaultEntered 0x17 s)) ∧
    (s.cfgv = true → s.mode ≠ .carrier → s.afill.toNat = impl.abufMax →
      exec (.audw x y) s = .next (FaultEntered 0x18 s))

/-- R205, R206, R207: in the fault state every word but `STOP`'s and `RDREG`'s is answered `E_FAULTED` undecoded, a malformed `STOP` or `RDREG` `E_ILLEGAL`; neither changes anything. -/
def Obligations.FaultState : Prop :=
  ∀ (s : State) (c : Command), s.fault = true →
    (c.w0.toNat / 2 ^ 24 ≠ 0x08 → c.w0.toNat / 2 ^ 24 ≠ 0x09 → runCommand c s = .next (Answered 0x1F 0 0 s)) ∧
    (c.w0.toNat / 2 ^ 24 = 0x08 ∨ c.w0.toNat / 2 ^ 24 = 0x09 → IllegalWord c.w0.toNat →
      runCommand c s = .next (Answered 0x10 0 0 s))

/-- R24, R207, R208: `fault` and `errcode` change in the fault state only by a well-formed `STOP` or by `rst`. -/
def Obligations.FaultSticky : Prop :=
  ∀ (s t : State) (i : Input) (rest : List Input), s.inputs = i :: rest → step s = .next t → s.fault = true →
    (t.fault = true ∧ t.errcode = s.errcode) ∨ i = .rst ∨ (∃ c, i = .cutShort c) ∨
      ∃ c r, i = .command c ∧ decode c = .ok (.stop r)

/-- R203, R82: every command sends exactly one response, with one of these codes; every response but `OK` has `d0 = d1 = 0`; `REJ` answers `PWR` alone, and `E_FAULTED` is never stored. -/
def Obligations.ResponseCodes : Prop :=
  ∀ (s t : State) (c : Command), runCommand c s = .next t →
    ∃ r : Response, t.rsp = s.rsp ++ [r] ∧
      r.code ∈ [0x00, 0x01, 0x10, 0x11, 0x12, 0x13, 0x14, 0x15, 0x16, 0x17, 0x18, 0x1F] ∧
      (r.code ≠ 0x00 → r.d0 = 0 ∧ r.d1 = 0) ∧ (r.code = 0x01 → ∃ p, decode c = .ok (.pwr p)) ∧
      (t.errcode = s.errcode ∨ t.errcode = 0 ∨ (t.errcode = r.code ∧ r.code ≠ 0x1F))

/-! ## Whole-machine rules -/

/-- R83, R37: samples are only appended, and only by a `STEP` or `BLOCK` answered `OK`. -/
def Obligations.OnlyStepAndBlockEmit : Prop :=
  ∀ (s t : State) (c : Command), runCommand c s = .next t →
    ∃ l, t.out = s.out ++ l ∧
      (l ≠ [] → ((∃ x y, decode c = .ok (.step x y)) ∨ decode c = .ok .block) ∧
        ∃ d0, t.rsp = s.rsp ++ [⟨0x00, d0, 0⟩])

/-- R25, R156, R212: over every command but `STOP`, `ovr` is set by the samples beyond 1 in magnitude and by nothing else, and never cleared. -/
def Obligations.OverRangeWarning : Prop :=
  ∀ (s t : State) (i : Instr), (∀ r, i ≠ .stop r) → exec i s = .next t →
    ∃ l, t.out = s.out ++ l ∧ t.ovr = (s.ovr || l.any (fun o => flt32 one32 (fabs32 o)))

/-- The "written by" column of R40, with R24, R25, R61 to R64, R112 and R157: a command that is not listed for a register or memory leaves it as it was. STATUS is taken flag by flag (R41); fault entry is every response but `OK`, `REJ` and `E_FAULTED` (R203, R206). -/
def Obligations.RegisterWriters : Prop :=
  ∀ (s t : State) (i : Instr), exec i s = .next t →
    ((∀ m ch b f r, i ≠ .cfg m ch b f r) → (∀ r, i ≠ .stop r) →
      t.cfgv = s.cfgv ∧ t.mode = s.mode ∧ t.ch = s.ch ∧ t.firen = s.firen ∧ t.freq = s.freq ∧ t.srate = s.srate ∧
      t.ratio = s.ratio ∧ t.tlen = s.tlen ∧ t.fcut = s.fcut ∧ t.ti = s.ti ∧ t.tq = s.tq ∧ t.h = s.h) ∧
    ((∀ p, i ≠ .pwr p) → (∀ r, i ≠ .stop r) → t.txp = s.txp ∧ t.pwrv = s.pwrv) ∧
    ((∀ m ch b f r, i ≠ .cfg m ch b f r) → i ≠ .onext → (∀ x y, i ≠ .step x y) → i ≠ .block → (∀ r, i ≠ .stop r) →
      t.phase = s.phase) ∧
    ((∀ m ch b f r, i ≠ .cfg m ch b f r) → (∀ x, i ≠ .fpush x) → (∀ x y, i ≠ .step x y) → i ≠ .block →
      (∀ r, i ≠ .stop r) → t.wr = s.wr ∧ t.hist = s.hist) ∧
    ((∀ m ch b f r, i ≠ .cfg m ch b f r) → (∀ x y, i ≠ .audw x y) → i ≠ .block → (∀ r, i ≠ .stop r) →
      t.afill = s.afill ∧ t.abuf = s.abuf) ∧
    ((∀ r, i ≠ .stop r) → t.exitc = s.exitc) ∧
    ((∀ r, i ≠ .stop r) → ∀ a : Response, t.rsp = s.rsp ++ [a] → a.code ∈ [0x00, 0x01, 0x1F] →
      t.fault = s.fault ∧ t.errcode = s.errcode) ∧
    ((∀ x y, i ≠ .step x y) → i ≠ .block → (∀ r, i ≠ .stop r) → t.ovr = s.ovr) ∧
    t.inputs = s.inputs

/-! ## Arithmetic -/

/-- R8: addition of finite numbers is the exact sum rounded once. -/
def Obligations.AddRounds : Prop :=
  ∀ F ∈ [f32, f64], ∀ nan a b : Nat, F.finite a = true → F.finite b = true → F.real a + F.real b ≠ 0 →
    F.Rounds (F.real a + F.real b) (F.add nan a b)

/-- R8: multiplication of finite numbers is the exact product rounded once. -/
def Obligations.MulRounds : Prop :=
  ∀ F ∈ [f32, f64], ∀ nan a b : Nat, F.finite a = true → F.finite b = true → F.real a * F.real b ≠ 0 →
    F.Rounds (F.real a * F.real b) (F.mul nan a b)

/-- R8: division of finite numbers is the exact quotient rounded once. -/
def Obligations.DivRounds : Prop :=
  ∀ F ∈ [f32, f64], ∀ nan a b : Nat, F.finite a = true → F.finite b = true → F.real a ≠ 0 → F.real b ≠ 0 →
    F.Rounds (F.real a / F.real b) (F.div nan a b)

/-- R8, R10: narrowing rounds once; widening and the conversion of integers are exact. -/
def Obligations.Conversions : Prop :=
  (∀ (n : F32) (x : F64), finite64 x = true → real64 x ≠ 0 → f32.Rounds (real64 x) (cvt64to32 n x).toNat) ∧
  (∀ (n : F64) (a : F32), finite32 a = true → finite64 (cvt32to64 n a) = true ∧ real64 (cvt32to64 n a) = real32 a) ∧
  (∀ k < 2 ^ 53, finite64 (u2f64 k) = true ∧ real64 (u2f64 k) = k) ∧
  (finite32 (fs32 impl) = true ∧ real32 (fs32 impl) = impl.fs) ∧
  (finite64 (fs64 impl) = true ∧ real64 (fs64 impl) = impl.fs)

/-- R8: the quiet comparisons are false on every NaN, quiet or signalling, and otherwise order the numbers, the infinities among them; `fabs` is the absolute value and keeps a NaN one; `fmin32`. An infinity of either sign is above 1 in magnitude, so that it sets `ovr` (R156). -/
def Obligations.Comparisons : Prop :=
  (∀ a b : F32, finite32 a = true → finite32 b = true →
    (flt32 a b = true ↔ real32 a < real32 b) ∧ (fle32 a b = true ↔ real32 a ≤ real32 b) ∧
    real32 (fabs32 a) = |real32 a| ∧ (real32 a < real32 b → fmin32 a b = a) ∧ (real32 b ≤ real32 a → fmin32 a b = b)) ∧
  (∀ a b : F64, finite64 a = true → finite64 b = true →
    (flt64 a b = true ↔ real64 a < real64 b) ∧ real64 (fabs64 a) = |real64 a|) ∧
  (∀ a b : F32, ¬NanPattern32 a → ¬NanPattern32 b →
    (flt32 a b = true ↔ ext32 a < ext32 b) ∧ (fle32 a b = true ↔ ext32 a ≤ ext32 b) ∧
    ext32 (fabs32 a) = max (ext32 a) (-ext32 a) ∧ (ext32 a < ext32 b → fmin32 a b = a) ∧ (ext32 b ≤ ext32 a → fmin32 a b = b)) ∧
  (∀ a b : F64, ¬NanPattern64 a → ¬NanPattern64 b →
    (flt64 a b = true ↔ ext64 a < ext64 b) ∧ ext64 (fabs64 a) = max (ext64 a) (-ext64 a)) ∧
  (ext32 0x7F800000 = ⊤ ∧ ext32 0xFF800000 = ⊥ ∧ ext64 0x7FF0000000000000 = ⊤ ∧ ext64 0xFFF0000000000000 = ⊥) ∧
  (flt32 one32 (fabs32 0x7F800000) = true ∧ flt32 one32 (fabs32 0xFF800000) = true) ∧
  (∀ a b : F32, NanPattern32 a ∨ NanPattern32 b → flt32 a b = false ∧ fle32 a b = false ∧ fmin32 a b = b) ∧
  (∀ a b : F64, NanPattern64 a ∨ NanPattern64 b → flt64 a b = false) ∧
  (∀ a : F32, NanPattern32 (fabs32 a) ↔ NanPattern32 a) ∧ ∀ a : F64, NanPattern64 (fabs64 a) ↔ NanPattern64 a

/-- R8, in the details IEEE 754 adds (log entry 10): infinities, zeros and their signs, in both formats and for every sign: with another of their kind, with a finite number `x` on either side, and converted. First binary32 by its patterns, then both formats. -/
def Obligations.SpecialOperands : Prop :=
  (∀ n x : F32, finite32 x = true →
    (fadd32 n inf32 x = inf32 ∧ fadd32 n inf32 0xFF800000 = n ∧ fdiv32 n x inf32 = x &&& 0x80000000#32) ∧
    (real32 x ≠ 0 → fmul32 n inf32 x = inf32 ||| (x &&& 0x80000000#32) ∧ fdiv32 n x 0 = inf32 ||| (x &&& 0x80000000#32)) ∧
    (real32 x = 0 → fmul32 n inf32 x = n ∧ fdiv32 n x 0 = n) ∧
    fadd32 n x (x ^^^ 0x80000000#32) = 0 ∧ fadd32 n 0x80000000 0x80000000 = 0x80000000) ∧
  (f32.pack false f32.infMag = 0x7F800000 ∧ f32.pack true f32.infMag = 0xFF800000 ∧
    f32.pack false 0 = 0 ∧ f32.pack true 0 = 0x80000000 ∧
    f64.pack false f64.infMag = 0x7FF0000000000000 ∧ f64.pack true f64.infMag = 0xFFF0000000000000 ∧
    f64.pack false 0 = 0 ∧ f64.pack true 0 = 0x8000000000000000) ∧
  ∀ F ∈ [f32, f64], ∀ (n : Nat) (inf zero : Bool → Nat), (∀ s, inf s = F.pack s F.infMag) → (∀ s, zero s = F.pack s 0) →
    (∀ s t : Bool,
      F.add n (inf s) (inf t) = (if s = t then inf s else n) ∧ F.add n (zero s) (zero t) = zero (s && t) ∧
      F.mul n (inf s) (inf t) = inf (s ^^ t) ∧ F.mul n (inf s) (zero t) = n ∧ F.mul n (zero s) (inf t) = n ∧
      F.mul n (zero s) (zero t) = zero (s ^^ t) ∧
      F.div n (inf s) (inf t) = n ∧ F.div n (zero s) (zero t) = n ∧
      F.div n (inf s) (zero t) = inf (s ^^ t) ∧ F.div n (zero s) (inf t) = zero (s ^^ t)) ∧
    (∀ (s : Bool) (x : Nat), F.finite x = true →
      F.add n (inf s) x = inf s ∧ F.add n x (inf s) = inf s ∧
      F.mul n (zero s) x = zero (s ^^ F.sign x) ∧ F.mul n x (zero s) = zero (F.sign x ^^ s) ∧
      F.div n (inf s) x = inf (s ^^ F.sign x) ∧ F.div n x (inf s) = zero (F.sign x ^^ s) ∧
      (F.real x ≠ 0 →
        F.mul n (inf s) x = inf (s ^^ F.sign x) ∧ F.mul n x (inf s) = inf (F.sign x ^^ s) ∧
        F.div n (zero s) x = zero (s ^^ F.sign x) ∧ F.div n x (zero s) = inf (F.sign x ^^ s) ∧
        ∀ y, F.finite y = true → F.real y = -F.real x → F.add n x y = zero false)) ∧
    ∀ G ∈ [f32, f64], ∀ s, F.convert G n (inf s) = G.pack s G.infMag ∧ F.convert G n (zero s) = G.pack s 0

/-- R12: where an operation answers a NaN it answers the quiet NaN chosen for it, and every choice of the hardware is quiet, of the family's form, log entry 8. -/
def Obligations.NanResults : Prop :=
  (∀ k, QuietNan (impl.nan32 k)) ∧
  ∀ n a b : F32,
    (isNan32 (fadd32 n a b) = true → fadd32 n a b = n) ∧ (isNan32 (fmul32 n a b) = true → fmul32 n a b = n) ∧
    (isNan32 (fdiv32 n a b) = true → fdiv32 n a b = n) ∧
    ((isNan32 a = true ∨ isNan32 b = true) → fadd32 n a b = n ∧ fmul32 n a b = n ∧ fdiv32 n a b = n)

/-- R8, R9: the primitives on patterns are the operations of their formats, so that what is stated of a format holds of them. -/
def Obligations.PrimitivesOnPatterns : Prop :=
  (∀ n a b : F32, (fadd32 n a b).toNat = f32.add n.toNat a.toNat b.toNat ∧
    (fmul32 n a b).toNat = f32.mul n.toNat a.toNat b.toNat ∧ (fdiv32 n a b).toNat = f32.div n.toNat a.toNat b.toNat) ∧
  (∀ n a b : F64, (fadd64 n a b).toNat = f64.add n.toNat a.toNat b.toNat ∧
    (fmul64 n a b).toNat = f64.mul n.toNat a.toNat b.toNat ∧ (fdiv64 n a b).toNat = f64.div n.toNat a.toNat b.toNat) ∧
  (∀ (n : F32) (a : F64), (cvt64to32 n a).toNat = f64.convert f32 n.toNat a.toNat) ∧
  ∀ (n : F64) (a : F32), (cvt32to64 n a).toNat = f32.convert f64 n.toNat a.toNat
end

