-- ==== Sys2Proof/Laws/State.lean ====
section
/-! SUPPORT. Each field after each named update of the state: one lemma per field per update. -/

namespace Sys2Proof.Machine

/-! ## respond -/

@[simp] theorem respond_cfgv (c : BitVec 8) (d0 d1 : Word) (s : State) : (respond c d0 d1 s).cfgv = s.cfgv := rfl
@[simp] theorem respond_pwrv (c : BitVec 8) (d0 d1 : Word) (s : State) : (respond c d0 d1 s).pwrv = s.pwrv := rfl
@[simp] theorem respond_fault (c : BitVec 8) (d0 d1 : Word) (s : State) : (respond c d0 d1 s).fault = s.fault := rfl
@[simp] theorem respond_errcode (c : BitVec 8) (d0 d1 : Word) (s : State) : (respond c d0 d1 s).errcode = s.errcode := rfl
@[simp] theorem respond_ovr (c : BitVec 8) (d0 d1 : Word) (s : State) : (respond c d0 d1 s).ovr = s.ovr := rfl
@[simp] theorem respond_mode (c : BitVec 8) (d0 d1 : Word) (s : State) : (respond c d0 d1 s).mode = s.mode := rfl
@[simp] theorem respond_ch (c : BitVec 8) (d0 d1 : Word) (s : State) : (respond c d0 d1 s).ch = s.ch := rfl
@[simp] theorem respond_firen (c : BitVec 8) (d0 d1 : Word) (s : State) : (respond c d0 d1 s).firen = s.firen := rfl
@[simp] theorem respond_freq (c : BitVec 8) (d0 d1 : Word) (s : State) : (respond c d0 d1 s).freq = s.freq := rfl
@[simp] theorem respond_srate (c : BitVec 8) (d0 d1 : Word) (s : State) : (respond c d0 d1 s).srate = s.srate := rfl
@[simp] theorem respond_ratio (c : BitVec 8) (d0 d1 : Word) (s : State) : (respond c d0 d1 s).ratio = s.ratio := rfl
@[simp] theorem respond_tlen (c : BitVec 8) (d0 d1 : Word) (s : State) : (respond c d0 d1 s).tlen = s.tlen := rfl
@[simp] theorem respond_phase (c : BitVec 8) (d0 d1 : Word) (s : State) : (respond c d0 d1 s).phase = s.phase := rfl
@[simp] theorem respond_txp (c : BitVec 8) (d0 d1 : Word) (s : State) : (respond c d0 d1 s).txp = s.txp := rfl
@[simp] theorem respond_fcut (c : BitVec 8) (d0 d1 : Word) (s : State) : (respond c d0 d1 s).fcut = s.fcut := rfl
@[simp] theorem respond_wr (c : BitVec 8) (d0 d1 : Word) (s : State) : (respond c d0 d1 s).wr = s.wr := rfl
@[simp] theorem respond_afill (c : BitVec 8) (d0 d1 : Word) (s : State) : (respond c d0 d1 s).afill = s.afill := rfl
@[simp] theorem respond_exitc (c : BitVec 8) (d0 d1 : Word) (s : State) : (respond c d0 d1 s).exitc = s.exitc := rfl
@[simp] theorem respond_ti (c : BitVec 8) (d0 d1 : Word) (s : State) : (respond c d0 d1 s).ti = s.ti := rfl
@[simp] theorem respond_tq (c : BitVec 8) (d0 d1 : Word) (s : State) : (respond c d0 d1 s).tq = s.tq := rfl
@[simp] theorem respond_h (c : BitVec 8) (d0 d1 : Word) (s : State) : (respond c d0 d1 s).h = s.h := rfl
@[simp] theorem respond_hist (c : BitVec 8) (d0 d1 : Word) (s : State) : (respond c d0 d1 s).hist = s.hist := rfl
@[simp] theorem respond_abuf (c : BitVec 8) (d0 d1 : Word) (s : State) : (respond c d0 d1 s).abuf = s.abuf := rfl
@[simp] theorem respond_rsp (c : BitVec 8) (d0 d1 : Word) (s : State) : (respond c d0 d1 s).rsp = s.rsp ++ [⟨c, d0, d1⟩] := rfl
@[simp] theorem respond_out (c : BitVec 8) (d0 d1 : Word) (s : State) : (respond c d0 d1 s).out = s.out := rfl
@[simp] theorem respond_inputs (c : BitVec 8) (d0 d1 : Word) (s : State) : (respond c d0 d1 s).inputs = s.inputs := rfl
@[simp] theorem respond_draws (c : BitVec 8) (d0 d1 : Word) (s : State) : (respond c d0 d1 s).draws = s.draws := rfl

@[simp] theorem respondOk_eq (d0 d1 : Word) (s : State) : respondOk d0 d1 s = respond 0x00 d0 d1 s := rfl
@[simp] theorem respondRej_eq (s : State) : respondRej s = respond 0x01 0 0 s := rfl
@[simp] theorem refuseFaulted_eq (s : State) : refuseFaulted s = respond faultedBits 0 0 s := rfl

/-! ## emit -/

@[simp] theorem emit_cfgv (v : F32) (s : State) : (emit v s).cfgv = s.cfgv := rfl
@[simp] theorem emit_pwrv (v : F32) (s : State) : (emit v s).pwrv = s.pwrv := rfl
@[simp] theorem emit_fault (v : F32) (s : State) : (emit v s).fault = s.fault := rfl
@[simp] theorem emit_errcode (v : F32) (s : State) : (emit v s).errcode = s.errcode := rfl
@[simp] theorem emit_ovr (v : F32) (s : State) : (emit v s).ovr = s.ovr := rfl
@[simp] theorem emit_mode (v : F32) (s : State) : (emit v s).mode = s.mode := rfl
@[simp] theorem emit_ch (v : F32) (s : State) : (emit v s).ch = s.ch := rfl
@[simp] theorem emit_firen (v : F32) (s : State) : (emit v s).firen = s.firen := rfl
@[simp] theorem emit_freq (v : F32) (s : State) : (emit v s).freq = s.freq := rfl
@[simp] theorem emit_srate (v : F32) (s : State) : (emit v s).srate = s.srate := rfl
@[simp] theorem emit_ratio (v : F32) (s : State) : (emit v s).ratio = s.ratio := rfl
@[simp] theorem emit_tlen (v : F32) (s : State) : (emit v s).tlen = s.tlen := rfl
@[simp] theorem emit_phase (v : F32) (s : State) : (emit v s).phase = s.phase := rfl
@[simp] theorem emit_txp (v : F32) (s : State) : (emit v s).txp = s.txp := rfl
@[simp] theorem emit_fcut (v : F32) (s : State) : (emit v s).fcut = s.fcut := rfl
@[simp] theorem emit_wr (v : F32) (s : State) : (emit v s).wr = s.wr := rfl
@[simp] theorem emit_afill (v : F32) (s : State) : (emit v s).afill = s.afill := rfl
@[simp] theorem emit_exitc (v : F32) (s : State) : (emit v s).exitc = s.exitc := rfl
@[simp] theorem emit_ti (v : F32) (s : State) : (emit v s).ti = s.ti := rfl
@[simp] theorem emit_tq (v : F32) (s : State) : (emit v s).tq = s.tq := rfl
@[simp] theorem emit_h (v : F32) (s : State) : (emit v s).h = s.h := rfl
@[simp] theorem emit_hist (v : F32) (s : State) : (emit v s).hist = s.hist := rfl
@[simp] theorem emit_abuf (v : F32) (s : State) : (emit v s).abuf = s.abuf := rfl
@[simp] theorem emit_rsp (v : F32) (s : State) : (emit v s).rsp = s.rsp := rfl
@[simp] theorem emit_out (v : F32) (s : State) : (emit v s).out = s.out ++ [v] := rfl
@[simp] theorem emit_inputs (v : F32) (s : State) : (emit v s).inputs = s.inputs := rfl
@[simp] theorem emit_draws (v : F32) (s : State) : (emit v s).draws = s.draws := rfl

/-! ## skip -/

@[simp] theorem skip_cfgv (n : Nat) (s : State) : (skip n s).cfgv = s.cfgv := rfl
@[simp] theorem skip_pwrv (n : Nat) (s : State) : (skip n s).pwrv = s.pwrv := rfl
@[simp] theorem skip_fault (n : Nat) (s : State) : (skip n s).fault = s.fault := rfl
@[simp] theorem skip_errcode (n : Nat) (s : State) : (skip n s).errcode = s.errcode := rfl
@[simp] theorem skip_ovr (n : Nat) (s : State) : (skip n s).ovr = s.ovr := rfl
@[simp] theorem skip_mode (n : Nat) (s : State) : (skip n s).mode = s.mode := rfl
@[simp] theorem skip_ch (n : Nat) (s : State) : (skip n s).ch = s.ch := rfl
@[simp] theorem skip_firen (n : Nat) (s : State) : (skip n s).firen = s.firen := rfl
@[simp] theorem skip_freq (n : Nat) (s : State) : (skip n s).freq = s.freq := rfl
@[simp] theorem skip_srate (n : Nat) (s : State) : (skip n s).srate = s.srate := rfl
@[simp] theorem skip_ratio (n : Nat) (s : State) : (skip n s).ratio = s.ratio := rfl
@[simp] theorem skip_tlen (n : Nat) (s : State) : (skip n s).tlen = s.tlen := rfl
@[simp] theorem skip_phase (n : Nat) (s : State) : (skip n s).phase = s.phase := rfl
@[simp] theorem skip_txp (n : Nat) (s : State) : (skip n s).txp = s.txp := rfl
@[simp] theorem skip_fcut (n : Nat) (s : State) : (skip n s).fcut = s.fcut := rfl
@[simp] theorem skip_wr (n : Nat) (s : State) : (skip n s).wr = s.wr := rfl
@[simp] theorem skip_afill (n : Nat) (s : State) : (skip n s).afill = s.afill := rfl
@[simp] theorem skip_exitc (n : Nat) (s : State) : (skip n s).exitc = s.exitc := rfl
@[simp] theorem skip_ti (n : Nat) (s : State) : (skip n s).ti = s.ti := rfl
@[simp] theorem skip_tq (n : Nat) (s : State) : (skip n s).tq = s.tq := rfl
@[simp] theorem skip_h (n : Nat) (s : State) : (skip n s).h = s.h := rfl
@[simp] theorem skip_hist (n : Nat) (s : State) : (skip n s).hist = s.hist := rfl
@[simp] theorem skip_abuf (n : Nat) (s : State) : (skip n s).abuf = s.abuf := rfl
@[simp] theorem skip_rsp (n : Nat) (s : State) : (skip n s).rsp = s.rsp := rfl
@[simp] theorem skip_out (n : Nat) (s : State) : (skip n s).out = s.out := rfl
@[simp] theorem skip_inputs (n : Nat) (s : State) : (skip n s).inputs = s.inputs := rfl
@[simp] theorem skip_draws (n : Nat) (s : State) : (skip n s).draws = s.draws + n := rfl

/-! ## noteRange -/

@[simp] theorem noteRange_cfgv (o : F32) (s : State) : (noteRange o s).cfgv = s.cfgv := rfl
@[simp] theorem noteRange_pwrv (o : F32) (s : State) : (noteRange o s).pwrv = s.pwrv := rfl
@[simp] theorem noteRange_fault (o : F32) (s : State) : (noteRange o s).fault = s.fault := rfl
@[simp] theorem noteRange_errcode (o : F32) (s : State) : (noteRange o s).errcode = s.errcode := rfl
@[simp] theorem noteRange_ovr (o : F32) (s : State) : (noteRange o s).ovr = (s.ovr || overRange o) := rfl
@[simp] theorem noteRange_mode (o : F32) (s : State) : (noteRange o s).mode = s.mode := rfl
@[simp] theorem noteRange_ch (o : F32) (s : State) : (noteRange o s).ch = s.ch := rfl
@[simp] theorem noteRange_firen (o : F32) (s : State) : (noteRange o s).firen = s.firen := rfl
@[simp] theorem noteRange_freq (o : F32) (s : State) : (noteRange o s).freq = s.freq := rfl
@[simp] theorem noteRange_srate (o : F32) (s : State) : (noteRange o s).srate = s.srate := rfl
@[simp] theorem noteRange_ratio (o : F32) (s : State) : (noteRange o s).ratio = s.ratio := rfl
@[simp] theorem noteRange_tlen (o : F32) (s : State) : (noteRange o s).tlen = s.tlen := rfl
@[simp] theorem noteRange_phase (o : F32) (s : State) : (noteRange o s).phase = s.phase := rfl
@[simp] theorem noteRange_txp (o : F32) (s : State) : (noteRange o s).txp = s.txp := rfl
@[simp] theorem noteRange_fcut (o : F32) (s : State) : (noteRange o s).fcut = s.fcut := rfl
@[simp] theorem noteRange_wr (o : F32) (s : State) : (noteRange o s).wr = s.wr := rfl
@[simp] theorem noteRange_afill (o : F32) (s : State) : (noteRange o s).afill = s.afill := rfl
@[simp] theorem noteRange_exitc (o : F32) (s : State) : (noteRange o s).exitc = s.exitc := rfl
@[simp] theorem noteRange_ti (o : F32) (s : State) : (noteRange o s).ti = s.ti := rfl
@[simp] theorem noteRange_tq (o : F32) (s : State) : (noteRange o s).tq = s.tq := rfl
@[simp] theorem noteRange_h (o : F32) (s : State) : (noteRange o s).h = s.h := rfl
@[simp] theorem noteRange_hist (o : F32) (s : State) : (noteRange o s).hist = s.hist := rfl
@[simp] theorem noteRange_abuf (o : F32) (s : State) : (noteRange o s).abuf = s.abuf := rfl
@[simp] theorem noteRange_rsp (o : F32) (s : State) : (noteRange o s).rsp = s.rsp := rfl
@[simp] theorem noteRange_out (o : F32) (s : State) : (noteRange o s).out = s.out := rfl
@[simp] theorem noteRange_inputs (o : F32) (s : State) : (noteRange o s).inputs = s.inputs := rfl
@[simp] theorem noteRange_draws (o : F32) (s : State) : (noteRange o s).draws = s.draws := rfl

/-! ## advance -/

@[simp] theorem advance_cfgv (s : State) : (advance s).cfgv = s.cfgv := rfl
@[simp] theorem advance_pwrv (s : State) : (advance s).pwrv = s.pwrv := rfl
@[simp] theorem advance_fault (s : State) : (advance s).fault = s.fault := rfl
@[simp] theorem advance_errcode (s : State) : (advance s).errcode = s.errcode := rfl
@[simp] theorem advance_ovr (s : State) : (advance s).ovr = s.ovr := rfl
@[simp] theorem advance_mode (s : State) : (advance s).mode = s.mode := rfl
@[simp] theorem advance_ch (s : State) : (advance s).ch = s.ch := rfl
@[simp] theorem advance_firen (s : State) : (advance s).firen = s.firen := rfl
@[simp] theorem advance_freq (s : State) : (advance s).freq = s.freq := rfl
@[simp] theorem advance_srate (s : State) : (advance s).srate = s.srate := rfl
@[simp] theorem advance_ratio (s : State) : (advance s).ratio = s.ratio := rfl
@[simp] theorem advance_tlen (s : State) : (advance s).tlen = s.tlen := rfl
@[simp] theorem advance_phase (s : State) : (advance s).phase = nextPhase s.phase s.tlen := rfl
@[simp] theorem advance_txp (s : State) : (advance s).txp = s.txp := rfl
@[simp] theorem advance_fcut (s : State) : (advance s).fcut = s.fcut := rfl
@[simp] theorem advance_wr (s : State) : (advance s).wr = s.wr := rfl
@[simp] theorem advance_afill (s : State) : (advance s).afill = s.afill := rfl
@[simp] theorem advance_exitc (s : State) : (advance s).exitc = s.exitc := rfl
@[simp] theorem advance_ti (s : State) : (advance s).ti = s.ti := rfl
@[simp] theorem advance_tq (s : State) : (advance s).tq = s.tq := rfl
@[simp] theorem advance_h (s : State) : (advance s).h = s.h := rfl
@[simp] theorem advance_hist (s : State) : (advance s).hist = s.hist := rfl
@[simp] theorem advance_abuf (s : State) : (advance s).abuf = s.abuf := rfl
@[simp] theorem advance_rsp (s : State) : (advance s).rsp = s.rsp := rfl
@[simp] theorem advance_out (s : State) : (advance s).out = s.out := rfl
@[simp] theorem advance_inputs (s : State) : (advance s).inputs = s.inputs := rfl
@[simp] theorem advance_draws (s : State) : (advance s).draws = s.draws := rfl

/-! ## dropFrames -/

@[simp] theorem dropFrames_cfgv (s : State) : (dropFrames s).cfgv = s.cfgv := rfl
@[simp] theorem dropFrames_pwrv (s : State) : (dropFrames s).pwrv = s.pwrv := rfl
@[simp] theorem dropFrames_fault (s : State) : (dropFrames s).fault = s.fault := rfl
@[simp] theorem dropFrames_errcode (s : State) : (dropFrames s).errcode = s.errcode := rfl
@[simp] theorem dropFrames_ovr (s : State) : (dropFrames s).ovr = s.ovr := rfl
@[simp] theorem dropFrames_mode (s : State) : (dropFrames s).mode = s.mode := rfl
@[simp] theorem dropFrames_ch (s : State) : (dropFrames s).ch = s.ch := rfl
@[simp] theorem dropFrames_firen (s : State) : (dropFrames s).firen = s.firen := rfl
@[simp] theorem dropFrames_freq (s : State) : (dropFrames s).freq = s.freq := rfl
@[simp] theorem dropFrames_srate (s : State) : (dropFrames s).srate = s.srate := rfl
@[simp] theorem dropFrames_ratio (s : State) : (dropFrames s).ratio = s.ratio := rfl
@[simp] theorem dropFrames_tlen (s : State) : (dropFrames s).tlen = s.tlen := rfl
@[simp] theorem dropFrames_phase (s : State) : (dropFrames s).phase = s.phase := rfl
@[simp] theorem dropFrames_txp (s : State) : (dropFrames s).txp = s.txp := rfl
@[simp] theorem dropFrames_fcut (s : State) : (dropFrames s).fcut = s.fcut := rfl
@[simp] theorem dropFrames_wr (s : State) : (dropFrames s).wr = s.wr := rfl
@[simp] theorem dropFrames_afill (s : State) : (dropFrames s).afill = 0 := rfl
@[simp] theorem dropFrames_exitc (s : State) : (dropFrames s).exitc = s.exitc := rfl
@[simp] theorem dropFrames_ti (s : State) : (dropFrames s).ti = s.ti := rfl
@[simp] theorem dropFrames_tq (s : State) : (dropFrames s).tq = s.tq := rfl
@[simp] theorem dropFrames_h (s : State) : (dropFrames s).h = s.h := rfl
@[simp] theorem dropFrames_hist (s : State) : (dropFrames s).hist = s.hist := rfl
@[simp] theorem dropFrames_abuf (s : State) : (dropFrames s).abuf = [] := rfl
@[simp] theorem dropFrames_rsp (s : State) : (dropFrames s).rsp = s.rsp := rfl
@[simp] theorem dropFrames_out (s : State) : (dropFrames s).out = s.out := rfl
@[simp] theorem dropFrames_inputs (s : State) : (dropFrames s).inputs = s.inputs := rfl
@[simp] theorem dropFrames_draws (s : State) : (dropFrames s).draws = s.draws := rfl

/-! ## enterFault -/

@[simp] theorem enterFault_cfgv (e : ErrCode) (s : State) : (enterFault e s).cfgv = s.cfgv := rfl
@[simp] theorem enterFault_pwrv (e : ErrCode) (s : State) : (enterFault e s).pwrv = s.pwrv := rfl
@[simp] theorem enterFault_fault (e : ErrCode) (s : State) : (enterFault e s).fault = true := rfl
@[simp] theorem enterFault_errcode (e : ErrCode) (s : State) : (enterFault e s).errcode = if s.fault then s.errcode else errBits e := rfl
@[simp] theorem enterFault_ovr (e : ErrCode) (s : State) : (enterFault e s).ovr = s.ovr := rfl
@[simp] theorem enterFault_mode (e : ErrCode) (s : State) : (enterFault e s).mode = s.mode := rfl
@[simp] theorem enterFault_ch (e : ErrCode) (s : State) : (enterFault e s).ch = s.ch := rfl
@[simp] theorem enterFault_firen (e : ErrCode) (s : State) : (enterFault e s).firen = s.firen := rfl
@[simp] theorem enterFault_freq (e : ErrCode) (s : State) : (enterFault e s).freq = s.freq := rfl
@[simp] theorem enterFault_srate (e : ErrCode) (s : State) : (enterFault e s).srate = s.srate := rfl
@[simp] theorem enterFault_ratio (e : ErrCode) (s : State) : (enterFault e s).ratio = s.ratio := rfl
@[simp] theorem enterFault_tlen (e : ErrCode) (s : State) : (enterFault e s).tlen = s.tlen := rfl
@[simp] theorem enterFault_phase (e : ErrCode) (s : State) : (enterFault e s).phase = s.phase := rfl
@[simp] theorem enterFault_txp (e : ErrCode) (s : State) : (enterFault e s).txp = s.txp := rfl
@[simp] theorem enterFault_fcut (e : ErrCode) (s : State) : (enterFault e s).fcut = s.fcut := rfl
@[simp] theorem enterFault_wr (e : ErrCode) (s : State) : (enterFault e s).wr = s.wr := rfl
@[simp] theorem enterFault_afill (e : ErrCode) (s : State) : (enterFault e s).afill = s.afill := rfl
@[simp] theorem enterFault_exitc (e : ErrCode) (s : State) : (enterFault e s).exitc = s.exitc := rfl
@[simp] theorem enterFault_ti (e : ErrCode) (s : State) : (enterFault e s).ti = s.ti := rfl
@[simp] theorem enterFault_tq (e : ErrCode) (s : State) : (enterFault e s).tq = s.tq := rfl
@[simp] theorem enterFault_h (e : ErrCode) (s : State) : (enterFault e s).h = s.h := rfl
@[simp] theorem enterFault_hist (e : ErrCode) (s : State) : (enterFault e s).hist = s.hist := rfl
@[simp] theorem enterFault_abuf (e : ErrCode) (s : State) : (enterFault e s).abuf = s.abuf := rfl
@[simp] theorem enterFault_rsp (e : ErrCode) (s : State) : (enterFault e s).rsp = s.rsp ++ [⟨errBits e, 0, 0⟩] := rfl
@[simp] theorem enterFault_out (e : ErrCode) (s : State) : (enterFault e s).out = s.out := rfl
@[simp] theorem enterFault_inputs (e : ErrCode) (s : State) : (enterFault e s).inputs = s.inputs := rfl
@[simp] theorem enterFault_draws (e : ErrCode) (s : State) : (enterFault e s).draws = s.draws := rfl

/-! ## tearDown -/

@[simp] theorem tearDown_cfgv (r : BitVec 8) (s : State) : (tearDown r s).cfgv = false := rfl
@[simp] theorem tearDown_pwrv (r : BitVec 8) (s : State) : (tearDown r s).pwrv = false := rfl
@[simp] theorem tearDown_fault (r : BitVec 8) (s : State) : (tearDown r s).fault = false := rfl
@[simp] theorem tearDown_errcode (r : BitVec 8) (s : State) : (tearDown r s).errcode = 0 := rfl
@[simp] theorem tearDown_ovr (r : BitVec 8) (s : State) : (tearDown r s).ovr = false := rfl
@[simp] theorem tearDown_mode (r : BitVec 8) (s : State) : (tearDown r s).mode = .carrier := rfl
@[simp] theorem tearDown_ch (r : BitVec 8) (s : State) : (tearDown r s).ch = 0 := rfl
@[simp] theorem tearDown_firen (r : BitVec 8) (s : State) : (tearDown r s).firen = false := rfl
@[simp] theorem tearDown_freq (r : BitVec 8) (s : State) : (tearDown r s).freq = 0 := rfl
@[simp] theorem tearDown_srate (r : BitVec 8) (s : State) : (tearDown r s).srate = 0 := rfl
@[simp] theorem tearDown_ratio (r : BitVec 8) (s : State) : (tearDown r s).ratio = 0 := rfl
@[simp] theorem tearDown_tlen (r : BitVec 8) (s : State) : (tearDown r s).tlen = 0 := rfl
@[simp] theorem tearDown_phase (r : BitVec 8) (s : State) : (tearDown r s).phase = 0 := rfl
@[simp] theorem tearDown_txp (r : BitVec 8) (s : State) : (tearDown r s).txp = 0 := rfl
@[simp] theorem tearDown_fcut (r : BitVec 8) (s : State) : (tearDown r s).fcut = 0 := rfl
@[simp] theorem tearDown_wr (r : BitVec 8) (s : State) : (tearDown r s).wr = 0 := rfl
@[simp] theorem tearDown_afill (r : BitVec 8) (s : State) : (tearDown r s).afill = 0 := rfl
@[simp] theorem tearDown_exitc (r : BitVec 8) (s : State) : (tearDown r s).exitc = r := rfl
@[simp] theorem tearDown_ti (r : BitVec 8) (s : State) : (tearDown r s).ti = [] := rfl
@[simp] theorem tearDown_tq (r : BitVec 8) (s : State) : (tearDown r s).tq = [] := rfl
@[simp] theorem tearDown_h (r : BitVec 8) (s : State) : (tearDown r s).h = [] := rfl
@[simp] theorem tearDown_hist (r : BitVec 8) (s : State) : (tearDown r s).hist = [] := rfl
@[simp] theorem tearDown_abuf (r : BitVec 8) (s : State) : (tearDown r s).abuf = [] := rfl
@[simp] theorem tearDown_rsp (r : BitVec 8) (s : State) : (tearDown r s).rsp = s.rsp := rfl
@[simp] theorem tearDown_out (r : BitVec 8) (s : State) : (tearDown r s).out = s.out := rfl
@[simp] theorem tearDown_inputs (r : BitVec 8) (s : State) : (tearDown r s).inputs = s.inputs := rfl
@[simp] theorem tearDown_draws (r : BitVec 8) (s : State) : (tearDown r s).draws = s.draws := rfl

/-! ## hardReset -/

@[simp] theorem hardReset_cfgv (s : State) : (hardReset s).cfgv = false := rfl
@[simp] theorem hardReset_pwrv (s : State) : (hardReset s).pwrv = false := rfl
@[simp] theorem hardReset_fault (s : State) : (hardReset s).fault = false := rfl
@[simp] theorem hardReset_errcode (s : State) : (hardReset s).errcode = 0 := rfl
@[simp] theorem hardReset_ovr (s : State) : (hardReset s).ovr = false := rfl
@[simp] theorem hardReset_mode (s : State) : (hardReset s).mode = .carrier := rfl
@[simp] theorem hardReset_ch (s : State) : (hardReset s).ch = 0 := rfl
@[simp] theorem hardReset_firen (s : State) : (hardReset s).firen = false := rfl
@[simp] theorem hardReset_freq (s : State) : (hardReset s).freq = 0 := rfl
@[simp] theorem hardReset_srate (s : State) : (hardReset s).srate = 0 := rfl
@[simp] theorem hardReset_ratio (s : State) : (hardReset s).ratio = 0 := rfl
@[simp] theorem hardReset_tlen (s : State) : (hardReset s).tlen = 0 := rfl
@[simp] theorem hardReset_phase (s : State) : (hardReset s).phase = 0 := rfl
@[simp] theorem hardReset_txp (s : State) : (hardReset s).txp = 0 := rfl
@[simp] theorem hardReset_fcut (s : State) : (hardReset s).fcut = 0 := rfl
@[simp] theorem hardReset_wr (s : State) : (hardReset s).wr = 0 := rfl
@[simp] theorem hardReset_afill (s : State) : (hardReset s).afill = 0 := rfl
@[simp] theorem hardReset_exitc (s : State) : (hardReset s).exitc = 0 := rfl
@[simp] theorem hardReset_ti (s : State) : (hardReset s).ti = [] := rfl
@[simp] theorem hardReset_tq (s : State) : (hardReset s).tq = [] := rfl
@[simp] theorem hardReset_h (s : State) : (hardReset s).h = [] := rfl
@[simp] theorem hardReset_hist (s : State) : (hardReset s).hist = [] := rfl
@[simp] theorem hardReset_abuf (s : State) : (hardReset s).abuf = [] := rfl
@[simp] theorem hardReset_rsp (s : State) : (hardReset s).rsp = s.rsp := rfl
@[simp] theorem hardReset_out (s : State) : (hardReset s).out = s.out := rfl
@[simp] theorem hardReset_inputs (s : State) : (hardReset s).inputs = s.inputs := rfl
@[simp] theorem hardReset_draws (s : State) : (hardReset s).draws = s.draws := rfl

/-! ## commitRate -/

@[simp] theorem commitRate_cfgv (I : Impl) (m : Mode) (r : F32) (s : State) : (commitRate I m r s).cfgv = s.cfgv := by
  unfold commitRate; split <;> rfl
@[simp] theorem commitRate_pwrv (I : Impl) (m : Mode) (r : F32) (s : State) : (commitRate I m r s).pwrv = s.pwrv := by
  unfold commitRate; split <;> rfl
@[simp] theorem commitRate_fault (I : Impl) (m : Mode) (r : F32) (s : State) : (commitRate I m r s).fault = s.fault := by
  unfold commitRate; split <;> rfl
@[simp] theorem commitRate_errcode (I : Impl) (m : Mode) (r : F32) (s : State) : (commitRate I m r s).errcode = s.errcode := by
  unfold commitRate; split <;> rfl
@[simp] theorem commitRate_ovr (I : Impl) (m : Mode) (r : F32) (s : State) : (commitRate I m r s).ovr = s.ovr := by
  unfold commitRate; split <;> rfl
@[simp] theorem commitRate_mode (I : Impl) (m : Mode) (r : F32) (s : State) : (commitRate I m r s).mode = s.mode := by
  unfold commitRate; split <;> rfl
@[simp] theorem commitRate_ch (I : Impl) (m : Mode) (r : F32) (s : State) : (commitRate I m r s).ch = s.ch := by
  unfold commitRate; split <;> rfl
@[simp] theorem commitRate_firen (I : Impl) (m : Mode) (r : F32) (s : State) : (commitRate I m r s).firen = s.firen := by
  unfold commitRate; split <;> rfl
@[simp] theorem commitRate_freq (I : Impl) (m : Mode) (r : F32) (s : State) : (commitRate I m r s).freq = s.freq := by
  unfold commitRate; split <;> rfl
@[simp] theorem commitRate_srate (I : Impl) (m : Mode) (r : F32) (s : State) : (commitRate I m r s).srate = if m = .carrier then 0 else r := by
  unfold commitRate; split <;> rfl
@[simp] theorem commitRate_ratio (I : Impl) (m : Mode) (r : F32) (s : State) : (commitRate I m r s).ratio = if m = .carrier then 0 else fdiv32 (I.nan32 s.draws) (fs32 I) r := by
  unfold commitRate; split <;> rfl
@[simp] theorem commitRate_tlen (I : Impl) (m : Mode) (r : F32) (s : State) : (commitRate I m r s).tlen = s.tlen := by
  unfold commitRate; split <;> rfl
@[simp] theorem commitRate_phase (I : Impl) (m : Mode) (r : F32) (s : State) : (commitRate I m r s).phase = s.phase := by
  unfold commitRate; split <;> rfl
@[simp] theorem commitRate_txp (I : Impl) (m : Mode) (r : F32) (s : State) : (commitRate I m r s).txp = s.txp := by
  unfold commitRate; split <;> rfl
@[simp] theorem commitRate_fcut (I : Impl) (m : Mode) (r : F32) (s : State) : (commitRate I m r s).fcut = s.fcut := by
  unfold commitRate; split <;> rfl
@[simp] theorem commitRate_wr (I : Impl) (m : Mode) (r : F32) (s : State) : (commitRate I m r s).wr = s.wr := by
  unfold commitRate; split <;> rfl
@[simp] theorem commitRate_afill (I : Impl) (m : Mode) (r : F32) (s : State) : (commitRate I m r s).afill = s.afill := by
  unfold commitRate; split <;> rfl
@[simp] theorem commitRate_exitc (I : Impl) (m : Mode) (r : F32) (s : State) : (commitRate I m r s).exitc = s.exitc := by
  unfold commitRate; split <;> rfl
@[simp] theorem commitRate_ti (I : Impl) (m : Mode) (r : F32) (s : State) : (commitRate I m r s).ti = s.ti := by
  unfold commitRate; split <;> rfl
@[simp] theorem commitRate_tq (I : Impl) (m : Mode) (r : F32) (s : State) : (commitRate I m r s).tq = s.tq := by
  unfold commitRate; split <;> rfl
@[simp] theorem commitRate_h (I : Impl) (m : Mode) (r : F32) (s : State) : (commitRate I m r s).h = s.h := by
  unfold commitRate; split <;> rfl
@[simp] theorem commitRate_hist (I : Impl) (m : Mode) (r : F32) (s : State) : (commitRate I m r s).hist = s.hist := by
  unfold commitRate; split <;> rfl
@[simp] theorem commitRate_abuf (I : Impl) (m : Mode) (r : F32) (s : State) : (commitRate I m r s).abuf = s.abuf := by
  unfold commitRate; split <;> rfl
@[simp] theorem commitRate_rsp (I : Impl) (m : Mode) (r : F32) (s : State) : (commitRate I m r s).rsp = s.rsp := by
  unfold commitRate; split <;> rfl
@[simp] theorem commitRate_out (I : Impl) (m : Mode) (r : F32) (s : State) : (commitRate I m r s).out = s.out := by
  unfold commitRate; split <;> rfl
@[simp] theorem commitRate_inputs (I : Impl) (m : Mode) (r : F32) (s : State) : (commitRate I m r s).inputs = s.inputs := by
  unfold commitRate; split <;> rfl
@[simp] theorem commitRate_draws (I : Impl) (m : Mode) (r : F32) (s : State) : (commitRate I m r s).draws = s.draws := by
  unfold commitRate; split <;> rfl

/-! ## commitFilter -/

@[simp] theorem commitFilter_cfgv (I : Impl) (b : Bool) (r : F32) (s : State) : (commitFilter I b r s).cfgv = s.cfgv := by
  unfold commitFilter; split <;> rfl
@[simp] theorem commitFilter_pwrv (I : Impl) (b : Bool) (r : F32) (s : State) : (commitFilter I b r s).pwrv = s.pwrv := by
  unfold commitFilter; split <;> rfl
@[simp] theorem commitFilter_fault (I : Impl) (b : Bool) (r : F32) (s : State) : (commitFilter I b r s).fault = s.fault := by
  unfold commitFilter; split <;> rfl
@[simp] theorem commitFilter_errcode (I : Impl) (b : Bool) (r : F32) (s : State) : (commitFilter I b r s).errcode = s.errcode := by
  unfold commitFilter; split <;> rfl
@[simp] theorem commitFilter_ovr (I : Impl) (b : Bool) (r : F32) (s : State) : (commitFilter I b r s).ovr = s.ovr := by
  unfold commitFilter; split <;> rfl
@[simp] theorem commitFilter_mode (I : Impl) (b : Bool) (r : F32) (s : State) : (commitFilter I b r s).mode = s.mode := by
  unfold commitFilter; split <;> rfl
@[simp] theorem commitFilter_ch (I : Impl) (b : Bool) (r : F32) (s : State) : (commitFilter I b r s).ch = s.ch := by
  unfold commitFilter; split <;> rfl
@[simp] theorem commitFilter_firen (I : Impl) (b : Bool) (r : F32) (s : State) : (commitFilter I b r s).firen = s.firen := by
  unfold commitFilter; split <;> rfl
@[simp] theorem commitFilter_freq (I : Impl) (b : Bool) (r : F32) (s : State) : (commitFilter I b r s).freq = s.freq := by
  unfold commitFilter; split <;> rfl
@[simp] theorem commitFilter_srate (I : Impl) (b : Bool) (r : F32) (s : State) : (commitFilter I b r s).srate = s.srate := by
  unfold commitFilter; split <;> rfl
@[simp] theorem commitFilter_ratio (I : Impl) (b : Bool) (r : F32) (s : State) : (commitFilter I b r s).ratio = s.ratio := by
  unfold commitFilter; split <;> rfl
@[simp] theorem commitFilter_tlen (I : Impl) (b : Bool) (r : F32) (s : State) : (commitFilter I b r s).tlen = s.tlen := by
  unfold commitFilter; split <;> rfl
@[simp] theorem commitFilter_phase (I : Impl) (b : Bool) (r : F32) (s : State) : (commitFilter I b r s).phase = s.phase := by
  unfold commitFilter; split <;> rfl
@[simp] theorem commitFilter_txp (I : Impl) (b : Bool) (r : F32) (s : State) : (commitFilter I b r s).txp = s.txp := by
  unfold commitFilter; split <;> rfl
@[simp] theorem commitFilter_fcut (I : Impl) (b : Bool) (r : F32) (s : State) : (commitFilter I b r s).fcut = if b then cutoff I s.draws r else 0 := by
  unfold commitFilter; split <;> rfl
@[simp] theorem commitFilter_wr (I : Impl) (b : Bool) (r : F32) (s : State) : (commitFilter I b r s).wr = 0 := by
  unfold commitFilter; split <;> rfl
@[simp] theorem commitFilter_afill (I : Impl) (b : Bool) (r : F32) (s : State) : (commitFilter I b r s).afill = s.afill := by
  unfold commitFilter; split <;> rfl
@[simp] theorem commitFilter_exitc (I : Impl) (b : Bool) (r : F32) (s : State) : (commitFilter I b r s).exitc = s.exitc := by
  unfold commitFilter; split <;> rfl
@[simp] theorem commitFilter_ti (I : Impl) (b : Bool) (r : F32) (s : State) : (commitFilter I b r s).ti = s.ti := by
  unfold commitFilter; split <;> rfl
@[simp] theorem commitFilter_tq (I : Impl) (b : Bool) (r : F32) (s : State) : (commitFilter I b r s).tq = s.tq := by
  unfold commitFilter; split <;> rfl
@[simp] theorem commitFilter_h (I : Impl) (b : Bool) (r : F32) (s : State) : (commitFilter I b r s).h = if b then s.h.writeFrom 0 (coefficients I s.draws (cutoff I s.draws r)) else s.h := by
  unfold commitFilter; split <;> rfl
@[simp] theorem commitFilter_hist (I : Impl) (b : Bool) (r : F32) (s : State) : (commitFilter I b r s).hist = if b then s.hist.writeFrom 0 (List.replicate I.len 0) else s.hist := by
  unfold commitFilter; split <;> rfl
@[simp] theorem commitFilter_abuf (I : Impl) (b : Bool) (r : F32) (s : State) : (commitFilter I b r s).abuf = s.abuf := by
  unfold commitFilter; split <;> rfl
@[simp] theorem commitFilter_rsp (I : Impl) (b : Bool) (r : F32) (s : State) : (commitFilter I b r s).rsp = s.rsp := by
  unfold commitFilter; split <;> rfl
@[simp] theorem commitFilter_out (I : Impl) (b : Bool) (r : F32) (s : State) : (commitFilter I b r s).out = s.out := by
  unfold commitFilter; split <;> rfl
@[simp] theorem commitFilter_inputs (I : Impl) (b : Bool) (r : F32) (s : State) : (commitFilter I b r s).inputs = s.inputs := by
  unfold commitFilter; split <;> rfl
@[simp] theorem commitFilter_draws (I : Impl) (b : Bool) (r : F32) (s : State) : (commitFilter I b r s).draws = s.draws := by
  unfold commitFilter; split <;> rfl

/-! ## commit -/

@[simp] theorem commit_cfgv (I : Impl) (m : Mode) (c : BitVec 2) (b : Bool) (f r : F32) (tab : List (F32 × F32)) (s : State) : (commit I m c b f r tab s).cfgv = true := by simp [commit]
@[simp] theorem commit_pwrv (I : Impl) (m : Mode) (c : BitVec 2) (b : Bool) (f r : F32) (tab : List (F32 × F32)) (s : State) : (commit I m c b f r tab s).pwrv = s.pwrv := by simp [commit]
@[simp] theorem commit_fault (I : Impl) (m : Mode) (c : BitVec 2) (b : Bool) (f r : F32) (tab : List (F32 × F32)) (s : State) : (commit I m c b f r tab s).fault = s.fault := by simp [commit]
@[simp] theorem commit_errcode (I : Impl) (m : Mode) (c : BitVec 2) (b : Bool) (f r : F32) (tab : List (F32 × F32)) (s : State) : (commit I m c b f r tab s).errcode = s.errcode := by simp [commit]
@[simp] theorem commit_ovr (I : Impl) (m : Mode) (c : BitVec 2) (b : Bool) (f r : F32) (tab : List (F32 × F32)) (s : State) : (commit I m c b f r tab s).ovr = s.ovr := by simp [commit]
@[simp] theorem commit_mode (I : Impl) (m : Mode) (c : BitVec 2) (b : Bool) (f r : F32) (tab : List (F32 × F32)) (s : State) : (commit I m c b f r tab s).mode = m := by simp [commit]
@[simp] theorem commit_ch (I : Impl) (m : Mode) (c : BitVec 2) (b : Bool) (f r : F32) (tab : List (F32 × F32)) (s : State) : (commit I m c b f r tab s).ch = c := by simp [commit]
@[simp] theorem commit_firen (I : Impl) (m : Mode) (c : BitVec 2) (b : Bool) (f r : F32) (tab : List (F32 × F32)) (s : State) : (commit I m c b f r tab s).firen = b := by simp [commit]
@[simp] theorem commit_freq (I : Impl) (m : Mode) (c : BitVec 2) (b : Bool) (f r : F32) (tab : List (F32 × F32)) (s : State) : (commit I m c b f r tab s).freq = f := by simp [commit]
@[simp] theorem commit_srate (I : Impl) (m : Mode) (c : BitVec 2) (b : Bool) (f r : F32) (tab : List (F32 × F32)) (s : State) : (commit I m c b f r tab s).srate = if m = .carrier then 0 else r := by simp [commit]
@[simp] theorem commit_ratio (I : Impl) (m : Mode) (c : BitVec 2) (b : Bool) (f r : F32) (tab : List (F32 × F32)) (s : State) : (commit I m c b f r tab s).ratio = if m = .carrier then 0 else fdiv32 (I.nan32 s.draws) (fs32 I) r := by simp [commit]
@[simp] theorem commit_tlen (I : Impl) (m : Mode) (c : BitVec 2) (b : Bool) (f r : F32) (tab : List (F32 × F32)) (s : State) : (commit I m c b f r tab s).tlen = BitVec.ofNat 32 tab.length := by simp [commit]
@[simp] theorem commit_phase (I : Impl) (m : Mode) (c : BitVec 2) (b : Bool) (f r : F32) (tab : List (F32 × F32)) (s : State) : (commit I m c b f r tab s).phase = 0 := by simp [commit]
@[simp] theorem commit_txp (I : Impl) (m : Mode) (c : BitVec 2) (b : Bool) (f r : F32) (tab : List (F32 × F32)) (s : State) : (commit I m c b f r tab s).txp = s.txp := by simp [commit]
@[simp] theorem commit_fcut (I : Impl) (m : Mode) (c : BitVec 2) (b : Bool) (f r : F32) (tab : List (F32 × F32)) (s : State) : (commit I m c b f r tab s).fcut = if b then cutoff I s.draws r else 0 := by simp [commit]
@[simp] theorem commit_wr (I : Impl) (m : Mode) (c : BitVec 2) (b : Bool) (f r : F32) (tab : List (F32 × F32)) (s : State) : (commit I m c b f r tab s).wr = 0 := by simp [commit]
@[simp] theorem commit_afill (I : Impl) (m : Mode) (c : BitVec 2) (b : Bool) (f r : F32) (tab : List (F32 × F32)) (s : State) : (commit I m c b f r tab s).afill = 0 := by simp [commit]
@[simp] theorem commit_exitc (I : Impl) (m : Mode) (c : BitVec 2) (b : Bool) (f r : F32) (tab : List (F32 × F32)) (s : State) : (commit I m c b f r tab s).exitc = s.exitc := by simp [commit]
@[simp] theorem commit_ti (I : Impl) (m : Mode) (c : BitVec 2) (b : Bool) (f r : F32) (tab : List (F32 × F32)) (s : State) : (commit I m c b f r tab s).ti = s.ti.writeFrom 0 (tab.map Prod.fst) := by simp [commit]
@[simp] theorem commit_tq (I : Impl) (m : Mode) (c : BitVec 2) (b : Bool) (f r : F32) (tab : List (F32 × F32)) (s : State) : (commit I m c b f r tab s).tq = if m = .iq then s.tq.writeFrom 0 (tab.map Prod.snd) else s.tq := by simp [commit]
@[simp] theorem commit_h (I : Impl) (m : Mode) (c : BitVec 2) (b : Bool) (f r : F32) (tab : List (F32 × F32)) (s : State) : (commit I m c b f r tab s).h = if b then s.h.writeFrom 0 (coefficients I s.draws (cutoff I s.draws r)) else s.h := by simp [commit]
@[simp] theorem commit_hist (I : Impl) (m : Mode) (c : BitVec 2) (b : Bool) (f r : F32) (tab : List (F32 × F32)) (s : State) : (commit I m c b f r tab s).hist = if b then s.hist.writeFrom 0 (List.replicate I.len 0) else s.hist := by simp [commit]
@[simp] theorem commit_abuf (I : Impl) (m : Mode) (c : BitVec 2) (b : Bool) (f r : F32) (tab : List (F32 × F32)) (s : State) : (commit I m c b f r tab s).abuf = s.abuf := by simp [commit]
@[simp] theorem commit_rsp (I : Impl) (m : Mode) (c : BitVec 2) (b : Bool) (f r : F32) (tab : List (F32 × F32)) (s : State) : (commit I m c b f r tab s).rsp = s.rsp := by simp [commit]
@[simp] theorem commit_out (I : Impl) (m : Mode) (c : BitVec 2) (b : Bool) (f r : F32) (tab : List (F32 × F32)) (s : State) : (commit I m c b f r tab s).out = s.out := by simp [commit]
@[simp] theorem commit_inputs (I : Impl) (m : Mode) (c : BitVec 2) (b : Bool) (f r : F32) (tab : List (F32 × F32)) (s : State) : (commit I m c b f r tab s).inputs = s.inputs := by simp [commit]
@[simp] theorem commit_draws (I : Impl) (m : Mode) (c : BitVec 2) (b : Bool) (f r : F32) (tab : List (F32 × F32)) (s : State) : (commit I m c b f r tab s).draws = s.draws := by simp [commit]

end Sys2Proof.Machine
end

