-- ==== Sys2Proof/Laws/Memory.lean ====
section
/-! SUPPORT. The memories: a read after a write, the canonical form kept by every operation, and what a written list reads as. -/

namespace Sys2Proof.Machine

variable {α : Type}

@[simp] theorem Mem.read_nil (i : Nat) : Mem.read ([] : Mem α) i = none := rfl

@[simp] theorem Mem.wf_nil : Mem.wf ([] : Mem α) := List.Pairwise.nil

theorem Mem.read_write_same (m : Mem α) (i : Nat) (v : α) : (m.write i v).read i = some v := by
  induction m with
  | nil => simp [Mem.write, Mem.read]
  | cons p r ih =>
    obtain ⟨j, w⟩ := p
    unfold Mem.write
    split_ifs with h1 h2
    · simp [Mem.read]
    · simp [Mem.read]
    · simp [Mem.read, h2, ih]

theorem Mem.read_write_other (m : Mem α) {i j : Nat} (v : α) (h : j ≠ i) : (m.write i v).read j = m.read j := by
  induction m with
  | nil => simp [Mem.write, Mem.read, h]
  | cons p r ih =>
    obtain ⟨k, w⟩ := p
    unfold Mem.write
    split_ifs with h1 h2
    · simp [Mem.read, h]
    · subst h2; simp [Mem.read, h]
    · simp [Mem.read, ih]

theorem Mem.read_write (m : Mem α) (i j : Nat) (v : α) :
    (m.write i v).read j = if j = i then some v else m.read j := by
  split_ifs with h
  · subst h; exact m.read_write_same j v
  · exact m.read_write_other v h

theorem Mem.keys_write (m : Mem α) (i : Nat) (v : α) (k : Nat) :
    k ∈ (m.write i v).map Prod.fst ↔ k = i ∨ k ∈ m.map Prod.fst := by
  induction m with
  | nil => simp [Mem.write]
  | cons p r ih =>
    obtain ⟨j, w⟩ := p
    unfold Mem.write
    split_ifs with h1 h2
    · simp
    · subst h2; simp
    · simp only [List.map_cons, List.mem_cons, ih]; tauto

theorem Mem.write_wf (m : Mem α) (i : Nat) (v : α) (h : m.wf) : (m.write i v).wf := by
  induction m with
  | nil => simp [Mem.write, Mem.wf]
  | cons p r ih =>
    obtain ⟨j, w⟩ := p
    obtain ⟨hj, hr⟩ := List.pairwise_cons.1 h
    unfold Mem.write
    split_ifs with h1 h2
    · refine List.pairwise_cons.2 ⟨fun k hk => ?_, h⟩
      rcases List.mem_cons.1 hk with rfl | hk
      · exact h1
      · exact h1.trans (hj k hk)
    · subst h2; exact List.pairwise_cons.2 ⟨hj, hr⟩
    · refine List.pairwise_cons.2 ⟨fun k hk => ?_, ih hr⟩
      rcases (Mem.keys_write r i v k).1 hk with rfl | hk
      · exact lt_of_le_of_ne (not_lt.1 h1) (Ne.symm h2)
      · exact hj k hk

theorem Mem.writeFrom_wf (l : List α) : ∀ (m : Mem α) (k : Nat), m.wf → (m.writeFrom k l).wf := by
  induction l with
  | nil => intro m k h; exact h
  | cons v r ih => intro m k h; exact ih _ _ (m.write_wf k v h)

theorem Mem.read_writeFrom (l : List α) : ∀ (m : Mem α) (k i : Nat),
    (m.writeFrom k l).read i = if k ≤ i ∧ i < k + l.length then l[i - k]? else m.read i := by
  induction l with
  | nil => intro m k i; rw [if_neg (by simp)]; rfl
  | cons v r ih =>
    intro m k i
    rw [Mem.writeFrom, ih, Mem.read_write]
    simp only [List.length_cons]
    rcases lt_trichotomy i k with h | h | h
    · rw [if_neg (by omega), if_neg (by omega), if_neg (by omega)]
    · subst h
      rw [if_neg (by omega), if_pos rfl, if_pos (by omega)]; simp
    · by_cases h2 : i < k + (r.length + 1)
      · rw [if_pos (by omega), if_pos (by omega), show i - k = (i - (k + 1)) + 1 by omega]; simp
      · rw [if_neg (by omega), if_neg (by omega), if_neg (by omega)]

theorem Mem.read_ofList (l : List α) (i : Nat) : (Mem.ofList l).read i = l[i]? := by
  rw [Mem.ofList, Mem.read_writeFrom]
  by_cases h : i < l.length
  · rw [if_pos (by omega)]; simp
  · rw [if_neg (by omega)]; simp [List.getElem?_eq_none (not_lt.1 h)]

/-- The canonical form is canonical: memories in it that read alike are equal. -/
theorem Mem.ext_of_wf : ∀ {m n : Mem α}, m.wf → n.wf → (∀ i, m.read i = n.read i) → m = n := by
  have none_of_lt : ∀ (m : Mem α) (i : Nat), (∀ k ∈ m.map Prod.fst, i < k) → m.read i = none := by
    intro m i
    induction m with
    | nil => intro _; rfl
    | cons p r ih =>
      intro h
      have h1 : i < p.1 := h p.1 (by simp)
      rw [Mem.read, if_neg (by omega)]
      exact ih fun k hk => h k (by simp [hk])
  intro m
  induction m with
  | nil =>
    intro n _ hn h
    cases n with
    | nil => rfl
    | cons p r => have := h p.1; simp [Mem.read] at this
  | cons p r ih =>
    intro n hm hn h
    obtain ⟨hp, hr⟩ := List.pairwise_cons.1 hm
    cases n with
    | nil => have := h p.1; simp [Mem.read] at this
    | cons q t =>
      obtain ⟨hq, ht⟩ := List.pairwise_cons.1 hn
      have hpq : p.1 = q.1 := by
        rcases lt_trichotomy p.1 q.1 with hlt | heq | hlt
        · have := h p.1
          rw [Mem.read, if_pos rfl, Mem.read, if_neg (by omega), none_of_lt t p.1 fun k hk => hlt.trans (hq k hk)] at this
          cases this
        · exact heq
        · have := h q.1
          rw [Mem.read, if_neg (by omega), none_of_lt r q.1 fun k hk => hlt.trans (hp k hk), Mem.read, if_pos rfl] at this
          cases this
      have hv : p.2 = q.2 := by
        have := h p.1
        rw [Mem.read, if_pos rfl, Mem.read, if_pos hpq] at this
        exact Option.some.inj this
      have : r = t := by
        refine ih hr ht fun i => ?_
        by_cases hi : i = p.1
        · subst hi
          rw [none_of_lt r _ hp, none_of_lt t _ (by rw [hpq]; exact hq)]
        · have := h i
          rwa [Mem.read, if_neg hi, Mem.read, if_neg (by rwa [← hpq])] at this
      rw [this, Prod.ext hpq hv]

/-! ## Entries -/

theorem readEntry_ok {I : Impl} {sp : Space} {m : Mem α} {i : Nat} {v : α} :
    readEntry I sp m i = .ok v ↔ i < sp.size I ∧ m.read i = some v := by
  unfold readEntry
  split_ifs with h
  · cases m.read i <;> simp [h]
  · simp [h]

theorem writeEntry_ok {I : Impl} {sp : Space} {m n : Mem α} {i : Nat} {v : α} :
    writeEntry I sp m i v = .ok n ↔ i < sp.size I ∧ n = m.write i v := by
  unfold writeEntry
  split_ifs with h <;> simp [h, eq_comm]

theorem readEntry_of_written {I : Impl} {sp : Space} {m : Mem α} {n i : Nat} (hw : WrittenBelow m n)
    (hn : n ≤ sp.size I) (hi : i < n) : ∃ v, m.read i = some v ∧ readEntry I sp m i = .ok v := by
  obtain ⟨v, hv⟩ := Option.isSome_iff_exists.1 ((hw i).2 hi)
  exact ⟨v, hv, readEntry_ok.2 ⟨by omega, hv⟩⟩

theorem writtenBelow_nil : WrittenBelow ([] : Mem α) 0 := by intro i; simp

theorem WrittenBelow.write_inside {m : Mem α} {n i : Nat} (h : WrittenBelow m n) (hi : i < n) (v : α) :
    WrittenBelow (m.write i v) n := by
  intro j
  rw [Mem.read_write]
  split_ifs with hj
  · simp [hj, hi]
  · exact h j

theorem WrittenBelow.write_end {m : Mem α} {n : Nat} (h : WrittenBelow m n) (v : α) :
    WrittenBelow (m.write n v) (n + 1) := by
  intro j
  rw [Mem.read_write]
  split_ifs with hj
  · simp [hj]
  · rw [h j]; omega

theorem writtenBelow_ofList (l : List α) : WrittenBelow (Mem.ofList l) l.length := by
  intro i
  rw [Mem.read_ofList]
  by_cases h : i < l.length <;> simp [h]

end Sys2Proof.Machine
end

