-- ==== Sys2Proof/Laws/Exec.lean ====
section
/-! SUPPORT. What the shared operations can do: one lemma each, cited instead of unfolding. -/

namespace Sys2Proof.Machine

@[simp] theorem finish_ok (s : State) : finish (.ok s) = .next s := rfl

@[simp] theorem finish_error (f : Fault) : finish (.error f) = .fault f := rfl

theorem finish_next {x : Except Fault State} {t : State} : finish x = .next t ↔ x = .ok t := by
  cases x <;> simp [finish]

@[simp] theorem unlessFaulted_live {s : State} (h : s.fault = false) (r : Result) : unlessFaulted s r = r := by
  simp [unlessFaulted, h]

@[simp] theorem unlessFaulted_faulted {s : State} (h : s.fault = true) (r : Result) :
    unlessFaulted s r = .next (refuseFaulted s) := by
  simp [unlessFaulted, h]

theorem bind_ok {α β : Type} {x : Except Fault α} {f : α → Except Fault β} {b : β} :
    (x >>= f) = .ok b ↔ ∃ a, x = .ok a ∧ f a = .ok b := by
  cases x with
  | ok a =>
    constructor
    · intro h; exact ⟨a, rfl, h⟩
    · rintro ⟨_, ha, h⟩; cases ha; exact h
  | error e =>
    constructor
    · intro h; cases h
    · rintro ⟨_, ha, _⟩; cases ha

/-! ## The filter -/

/-- What a push leaves unchanged: all but the history, its cursor and the count of free values. -/
theorem firPush_ok {I : Impl} {x y : F32} {s t : State} :
    firPush I x s = .ok (y, t) ↔
      s.wr.toNat < I.len ∧
      firSum I s.draws s.h (s.hist.write s.wr.toNat x) (firCentre I s.wr.toNat) I.nh = .ok y ∧
      t = { s with hist := s.hist.write s.wr.toNat x, wr := nextCursor I s.wr.toNat,
                   draws := s.draws + 3 * I.nh } := by
  unfold firPush
  constructor
  · intro h
    obtain ⟨m, hm, h⟩ := bind_ok.1 h
    obtain ⟨hlt, rfl⟩ := writeEntry_ok.1 hm
    obtain ⟨z, hz, h⟩ := bind_ok.1 h
    cases h
    exact ⟨hlt, hz, rfl⟩
  · rintro ⟨hlt, hz, rfl⟩
    exact bind_ok.2 ⟨_, writeEntry_ok.2 ⟨hlt, rfl⟩, bind_ok.2 ⟨_, hz, rfl⟩⟩

/-- The sum of R134 has a value when the coefficients and the history are written. -/
theorem firSum_total {I : Impl} {h hist : Mem F32} (hh : WrittenBelow h I.nh) (hx : WrittenBelow hist I.len)
    (d ctr : Nat) (hL : 0 < I.len) : ∀ n ≤ I.nh, ∃ y, firSum I d h hist ctr n = .ok y := by
  intro n
  induction n with
  | zero => exact fun _ => ⟨0, rfl⟩
  | succ i ih =>
    intro hn
    obtain ⟨acc, ha⟩ := ih (by omega)
    obtain ⟨a, -, ha'⟩ := readEntry_of_written (sp := .hist) hx (le_refl _) (Nat.mod_lt (ctr + i) hL)
    obtain ⟨b, -, hb'⟩ := readEntry_of_written (sp := .hist) hx (le_refl _) (Nat.mod_lt (ctr + I.len - i) hL)
    obtain ⟨c, -, hc'⟩ := readEntry_of_written (sp := .h) hh (le_refl _) (show i < I.nh by omega)
    exact ⟨_, bind_ok.2 ⟨acc, ha, bind_ok.2 ⟨a, ha', bind_ok.2 ⟨b, hb', bind_ok.2 ⟨c, hc', rfl⟩⟩⟩⟩⟩

/-! ## One sample -/

/-- What modulation leaves unchanged: all but the history, its cursor and the count of free values. -/
theorem modulate_frame {I : Impl} {i c0 c1 o : F32} {s t : State} (h : modulate I i c0 c1 s = .ok (o, t)) :
    t = { s with hist := t.hist, wr := t.wr, draws := t.draws } := by
  unfold modulate at h
  split at h
  · cases h; rfl
  · unfold amSample at h
    obtain ⟨⟨b, u⟩, hu, h⟩ := bind_ok.1 h
    cases h
    unfold filtered at hu
    split at hu
    · obtain ⟨-, -, rfl⟩ := firPush_ok.1 hu; rfl
    · cases hu; rfl
  · obtain ⟨q, -, h⟩ := bind_ok.1 h
    cases h; rfl

/-- What one sample does: the table entry at `phase` is modulated, and the sample is emitted after the phase advances. -/
theorem sample_ok {I : Impl} {c0 c1 o : F32} {s t : State} :
    sample I c0 c1 s = .ok (o, t) ↔
      ∃ i u, s.phase.toNat < I.tblMax ∧ s.ti.read s.phase.toNat = some i ∧ modulate I i c0 c1 s = .ok (o, u) ∧
        t = { u with phase := nextPhase s.phase s.tlen, ovr := (s.ovr || overRange o), out := s.out ++ [o] } := by
  unfold sample
  constructor
  · intro h
    obtain ⟨i, hi, h⟩ := bind_ok.1 h
    obtain ⟨⟨p, u⟩, hu, h⟩ := bind_ok.1 h
    cases h
    obtain ⟨h1, h2⟩ := readEntry_ok.1 hi
    refine ⟨i, u, h1, h2, hu, ?_⟩
    rw [modulate_frame hu]; rfl
  · rintro ⟨i, u, h1, h2, hu, rfl⟩
    refine bind_ok.2 ⟨i, readEntry_ok.2 ⟨h1, h2⟩, bind_ok.2 ⟨(o, u), hu, ?_⟩⟩
    have := modulate_frame hu
    generalize hh : u.hist = a at *
    generalize hw : u.wr = b at *
    generalize hd : u.draws = c at *
    subst this
    rfl

/-- What producing samples can change. -/
def SampleFrame (s t : State) : Prop :=
  t = { s with phase := t.phase, ovr := t.ovr, hist := t.hist, wr := t.wr, out := t.out, draws := t.draws }

theorem SampleFrame.refl (s : State) : SampleFrame s s := rfl

theorem SampleFrame.trans {s t u : State} (h1 : SampleFrame s t) (h2 : SampleFrame t u) : SampleFrame s u := by
  unfold SampleFrame at *
  rw [h2, h1]

theorem sample_frame {I : Impl} {c0 c1 o : F32} {s t : State} (h : sample I c0 c1 s = .ok (o, t)) :
    SampleFrame s t ∧ t.out = s.out ++ [o] ∧ t.phase = nextPhase s.phase s.tlen ∧ t.ovr = (s.ovr || overRange o) := by
  obtain ⟨i, u, -, -, hu, rfl⟩ := sample_ok.1 h
  have := modulate_frame hu
  refine ⟨?_, rfl, rfl, rfl⟩
  unfold SampleFrame
  rw [this]

/-- A CARRIER block emits as many samples as it is asked for, and changes nothing a sample does not. -/
theorem carrierBlock_frame {I : Impl} : ∀ {n : Nat} {s t : State}, carrierBlock I n s = .ok t →
    SampleFrame s t ∧ ∃ l, t.out = s.out ++ l ∧ l.length = n := by
  intro n
  induction n with
  | zero => intro s t h; cases h; exact ⟨rfl, [], by simp⟩
  | succ n ih =>
    intro s t h
    obtain ⟨⟨o, u⟩, hu, h⟩ := bind_ok.1 h
    obtain ⟨f1, o1, -, -⟩ := sample_frame hu
    obtain ⟨f2, l, hl, hn⟩ := ih h
    exact ⟨f1.trans f2, o :: l, by rw [hl, o1]; simp, by simp [hn]⟩

/-- An AM or IQ block emits one sample per frame, and changes nothing a sample does not. -/
theorem audioBlock_frame {I : Impl} : ∀ {n j : Nat} {s t : State}, audioBlock I n j s = .ok t →
    SampleFrame s t ∧ ∃ l, t.out = s.out ++ l ∧ l.length = n := by
  intro n
  induction n with
  | zero => intro j s t h; cases h; exact ⟨rfl, [], by simp⟩
  | succ n ih =>
    intro j s t h
    obtain ⟨fr, -, h⟩ := bind_ok.1 h
    obtain ⟨⟨o, u⟩, hu, h⟩ := bind_ok.1 h
    obtain ⟨f1, o1, -, -⟩ := sample_frame hu
    obtain ⟨f2, l, hl, hn⟩ := ih h
    exact ⟨f1.trans f2, o :: l, by rw [hl, o1]; simp, by simp [hn]⟩

/-! ## Fields and indices -/

theorem modeOf_isSome (m : BitVec 2) : (modeOf m).isSome = modeDefined m := by
  revert m; decide

theorem modeOf_modeCode (m : Mode) : modeOf (modeCode m) = some m := by cases m <;> rfl

theorem nextPhase_lt {p n : Word} (h : p.toNat < n.toNat) : (nextPhase p n).toNat < n.toNat := by
  unfold nextPhase
  split_ifs with h1
  · have := n.isLt
    rw [BitVec.toNat_ofNat, Nat.mod_eq_of_lt (by omega)]; exact h1
  · simp; omega

/-- `phase + 1` modulo `tlen` (R112). -/
theorem nextPhase_eq_mod {p n : Word} (h : p.toNat < n.toNat) :
    (nextPhase p n).toNat = (p.toNat + 1) % n.toNat := by
  have := n.isLt
  unfold nextPhase
  split_ifs with h1
  · rw [BitVec.toNat_ofNat, Nat.mod_eq_of_lt (by omega), Nat.mod_eq_of_lt h1]
  · have : p.toNat + 1 = n.toNat := by omega
    simp [this]

theorem len_bounds {I : Impl} (h : I.Legal) : 3 ≤ I.len ∧ I.len < 2 ^ 16 := by
  obtain ⟨-, -, ⟨h1, h2⟩, -⟩ := h
  unfold Impl.len
  omega

theorem nextCursor_lt {I : Impl} (h : I.Legal) (w : Nat) : (nextCursor I w).toNat < I.len := by
  obtain ⟨h1, h2⟩ := len_bounds h
  have := Nat.mod_lt (w + 1) (show 0 < I.len by omega)
  rw [nextCursor, BitVec.toNat_ofNat, Nat.mod_eq_of_lt (by omega)]
  exact this

/-! ## Decoding before meaning -/

theorem step_idle {s : State} (h : s.inputs = []) : step s = .next s := by
  simp [step, acceptNext, h]

theorem step_accept {s : State} {i : Input} {rest : List Input} (h : s.inputs = i :: rest) :
    step s = accept i { s with inputs := rest } := by
  simp [step, acceptNext, h]

end Sys2Proof.Machine
end

