-- ==== Sys2Proof/Laws/Float.lean ====
section
/-! SUPPORT. What rounding does: the value and the error of a rounded magnitude, and the order of patterns. -/

namespace Sys2Proof.Machine

/-! ## Rounding to an integer -/

theorem rneShift_error (m k : Nat) : 2 * (m : Int) ≤ 2 * (rneShift m k * 2 ^ k : Nat) + 2 ^ k ∧
    2 * (rneShift m k * 2 ^ k : Nat) ≤ 2 * (m : Int) + 2 ^ k := by
  have hm := Nat.div_add_mod m (2 ^ k)
  have hlt := Nat.mod_lt m (Nat.two_pow_pos k)
  have hp : (2 : Int) ^ k = ((2 ^ k : Nat) : Int) := by push_cast; rfl
  rw [hp]
  have key : m = m / 2 ^ k * 2 ^ k + m % 2 ^ k := by rw [Nat.mul_comm]; exact hm.symm
  unfold rneShift
  generalize m / 2 ^ k = q at *
  generalize m % 2 ^ k = r at *
  generalize 2 ^ k = p at *
  split_ifs with h1 h2
  · generalize hx : q * p = x at *; omega
  · obtain ⟨h2, -⟩ := h2
    generalize hx : q * p = x at *; omega
  · rw [Nat.add_mul, Nat.one_mul]
    generalize hx : q * p = x at *; omega

theorem rneShift_le (m k n : Nat) (h : m < n * 2 ^ k) : rneShift m k ≤ n := by
  have hq : m / 2 ^ k < n := (Nat.div_lt_iff_lt_mul (Nat.two_pow_pos k)).2 h
  unfold rneShift
  split_ifs <;> omega

theorem le_rneShift (m k n : Nat) (h : n * 2 ^ k ≤ m) : n ≤ rneShift m k := by
  have hq : n ≤ m / 2 ^ k := (Nat.le_div_iff_mul_le (Nat.two_pow_pos k)).2 h
  unfold rneShift
  split_ifs <;> omega

/-- The significand that `F` keeps of `m * 2^e`. -/
def Fmt.kept (F : Fmt) (m : Nat) (e : Int) : Nat := rneScale m (F.lastExp m e - e)

theorem Fmt.roundMag_eq (F : Fmt) {m : Nat} (e : Int) (hm : m ≠ 0) :
    F.roundMag m e = min ((F.lastExp m e - F.emin).toNat * 2 ^ F.fb + F.kept m e) F.infMag := by
  simp [Fmt.roundMag, hm, Fmt.kept]

theorem Fmt.emin_le_lastExp (F : Fmt) (m : Nat) (e : Int) : F.emin ≤ F.lastExp m e := le_max_left _ _

theorem Fmt.kept_le (F : Fmt) (m : Nat) (e : Int) : F.kept m e ≤ 2 ^ (F.fb + 1) := by
  have hlog : m < 2 ^ (Nat.log2 m + 1) := Nat.lt_log2_self
  have hE : e + (Nat.log2 m : Int) - F.fb ≤ F.lastExp m e := le_max_right _ _
  unfold Fmt.kept rneScale
  split_ifs with h
  · have h1 : m * 2 ^ (-(F.lastExp m e - e)).toNat ≤ 2 ^ (Nat.log2 m + 1) * 2 ^ (-(F.lastExp m e - e)).toNat :=
      Nat.mul_le_mul_right _ hlog.le
    rw [← pow_add] at h1
    exact h1.trans (Nat.pow_le_pow_right (by norm_num) (by omega))
  · apply rneShift_le
    rw [← pow_add]
    exact hlog.trans_le (Nat.pow_le_pow_right (by norm_num) (by omega))

theorem Fmt.le_kept (F : Fmt) {m : Nat} (e : Int) (hm : m ≠ 0) (hE : F.lastExp m e ≠ F.emin) :
    2 ^ F.fb ≤ F.kept m e := by
  have hlog : 2 ^ Nat.log2 m ≤ m := Nat.log2_self_le hm
  have hE : F.lastExp m e = e + (Nat.log2 m : Int) - F.fb := by
    unfold Fmt.lastExp at hE ⊢; omega
  unfold Fmt.kept rneScale
  split_ifs with h
  · have h1 : 2 ^ Nat.log2 m * 2 ^ (-(F.lastExp m e - e)).toNat ≤ m * 2 ^ (-(F.lastExp m e - e)).toNat :=
      Nat.mul_le_mul_right _ hlog
    rw [← pow_add] at h1
    exact (Nat.pow_le_pow_right (by norm_num) (by omega)).trans h1
  · apply le_rneShift
    rw [← pow_add]
    exact (Nat.pow_le_pow_right (by norm_num) (by omega)).trans hlog

/-! ## Magnitude patterns as real numbers -/

/-- The real number a finite magnitude pattern denotes. -/
noncomputable def Fmt.magReal (F : Fmt) (mag : Nat) : ℝ :=
  ((F.magVal mag).1 : ℝ) * (2 : ℝ) ^ (F.magVal mag).2

/-- A pattern made of an exponent step `a` and a significand `q` denotes `q` units of its last place. -/
theorem Fmt.magReal_assemble (F : Fmt) (a q : Nat) (hq : q ≤ 2 ^ (F.fb + 1)) (ha : a ≠ 0 → 2 ^ F.fb ≤ q) :
    F.magReal (a * 2 ^ F.fb + q) = (q : ℝ) * (2 : ℝ) ^ (F.emin + (a : Int)) := by
  have hp : 0 < 2 ^ F.fb := Nat.two_pow_pos _
  have hp1 : 2 ^ (F.fb + 1) = 2 * 2 ^ F.fb := by rw [pow_succ, Nat.mul_comm]
  rw [hp1] at hq
  rcases lt_or_ge q (2 ^ F.fb) with h | h
  · have ha0 : a = 0 := by by_contra h0; exact absurd (ha h0) (by omega)
    subst ha0
    simp [Fmt.magReal, Fmt.magVal, Nat.div_eq_of_lt h]
  · rcases lt_or_ge q (2 * 2 ^ F.fb) with h2 | h2
    · have hd : (a * 2 ^ F.fb + q) / 2 ^ F.fb = a + 1 := by
        have : a * 2 ^ F.fb + q = (q - 2 ^ F.fb) + (a + 1) * 2 ^ F.fb := by rw [Nat.add_mul]; omega
        rw [this, Nat.add_mul_div_right _ _ hp, Nat.div_eq_of_lt (by omega), Nat.zero_add]
      have hr : (a * 2 ^ F.fb + q) % 2 ^ F.fb = q - 2 ^ F.fb := by
        have : a * 2 ^ F.fb + q = (q - 2 ^ F.fb) + (a + 1) * 2 ^ F.fb := by rw [Nat.add_mul]; omega
        rw [this, Nat.add_mul_mod_self_right, Nat.mod_eq_of_lt (by omega)]
      have : F.magVal (a * 2 ^ F.fb + q) = (q, F.emin + (a : Int)) := by
        unfold Fmt.magVal
        rw [hd, hr, if_neg (by omega), Nat.sub_add_cancel h]
        simp
      simp [Fmt.magReal, this]
    · have hq2 : q = 2 * 2 ^ F.fb := by omega
      have hd : (a * 2 ^ F.fb + q) / 2 ^ F.fb = a + 2 := by
        rw [hq2, ← Nat.add_mul, Nat.mul_div_cancel _ hp]
      have hr : (a * 2 ^ F.fb + q) % 2 ^ F.fb = 0 := by
        rw [hq2, ← Nat.add_mul, Nat.mul_mod_left]
      have : F.magVal (a * 2 ^ F.fb + q) = (2 ^ F.fb, F.emin + (a : Int) + 1) := by
        unfold Fmt.magVal
        rw [hd, hr, if_neg (by omega), Nat.zero_add]
        ext <;> simp; ring
      rw [Fmt.magReal, this, hq2]
      simp only
      rw [zpow_add_one₀ (two_ne_zero)]
      push_cast
      ring

/-- A rounded magnitude that is no infinity denotes the kept significand in units of its last place. -/
theorem Fmt.magReal_roundMag (F : Fmt) {m : Nat} (e : Int) (hm : m ≠ 0)
    (hfin : F.roundMag m e < F.infMag) :
    F.magReal (F.roundMag m e) = (F.kept m e : ℝ) * (2 : ℝ) ^ (F.lastExp m e) := by
  rw [F.roundMag_eq e hm] at hfin ⊢
  have h : (F.lastExp m e - F.emin).toNat * 2 ^ F.fb + F.kept m e < F.infMag := by
    rcases min_lt_iff.1 hfin with h | h
    · exact h
    · exact absurd h (lt_irrefl _)
  rw [min_eq_left h.le, F.magReal_assemble _ _ (F.kept_le m e)]
  · congr 2
    have := F.emin_le_lastExp m e
    omega
  · intro h0
    exact F.le_kept e hm (by omega)

/-- Rounding moves a number by at most half a unit in the last place it keeps. -/
theorem Fmt.kept_error (F : Fmt) (m : Nat) (e : Int) :
    |(F.kept m e : ℝ) * (2 : ℝ) ^ (F.lastExp m e) - (m : ℝ) * (2 : ℝ) ^ e| ≤ (2 : ℝ) ^ (F.lastExp m e - 1) := by
  unfold Fmt.kept rneScale
  generalize hE : F.lastExp m e = E
  split_ifs with h
  · have : (E : Int) + ((-(E - e)).toNat : Int) = e := by omega
    have h2 : ((m * 2 ^ (-(E - e)).toNat : Nat) : ℝ) * (2 : ℝ) ^ E = (m : ℝ) * (2 : ℝ) ^ e := by
      push_cast
      rw [mul_assoc, ← zpow_natCast, ← zpow_add₀ two_ne_zero]
      congr 2; omega
    rw [h2, sub_self, abs_zero]
    positivity
  · obtain ⟨k, hk⟩ : ∃ k : Nat, (E - e).toNat = k := ⟨_, rfl⟩
    have hek : E = e + k := by omega
    rw [hk, hek]
    obtain ⟨h1, h2⟩ := rneShift_error m k
    have h1' : 2 * (m : ℝ) ≤ 2 * ((rneShift m k : ℝ) * 2 ^ k) + 2 ^ k := by exact_mod_cast h1
    have h2' : 2 * ((rneShift m k : ℝ) * 2 ^ k) ≤ 2 * (m : ℝ) + 2 ^ k := by exact_mod_cast h2
    have hz : (2 : ℝ) ^ (e + (k : Int)) = 2 ^ k * (2 : ℝ) ^ e := by
      rw [zpow_add₀ two_ne_zero, zpow_natCast, mul_comm]
    have hz1 : (2 : ℝ) ^ (e + (k : Int) - 1) = 2 ^ k * (2 : ℝ) ^ e / 2 := by
      rw [zpow_sub_one₀ two_ne_zero, hz]; ring
    have hpos : 0 < (2 : ℝ) ^ e := by positivity
    rw [hz, hz1, ← mul_assoc, ← sub_mul, abs_mul, abs_of_pos hpos]
    have : |(rneShift m k : ℝ) * 2 ^ k - m| ≤ 2 ^ k / 2 := abs_le.2 ⟨by linarith, by linarith⟩
    calc _ ≤ 2 ^ k / 2 * (2 : ℝ) ^ e := mul_le_mul_of_nonneg_right this hpos.le
      _ = _ := by ring

/-- Magnitude patterns are in the order of the numbers they denote. -/
theorem Fmt.magReal_lt_succ (F : Fmt) (n : Nat) : F.magReal n < F.magReal (n + 1) := by
  have hp : 0 < 2 ^ F.fb := Nat.two_pow_pos _
  have hd := Nat.div_add_mod n (2 ^ F.fb)
  have hr := Nat.mod_lt n hp
  have hs : 2 ^ (F.fb + 1) = 2 * 2 ^ F.fb := by rw [pow_succ, Nat.mul_comm]
  rcases Nat.eq_zero_or_pos (n / 2 ^ F.fb) with h0 | h0
  · have h1 : n < 2 ^ F.fb := by
      rcases Nat.div_eq_zero_iff.1 h0 with h | h <;> omega
    have a := F.magReal_assemble 0 n (by omega) (by simp)
    have b := F.magReal_assemble 0 (n + 1) (by omega) (by simp)
    simp only [zero_mul, Nat.zero_add] at a b
    rw [a, b]
    have : 0 < (2 : ℝ) ^ (F.emin + ((0 : Nat) : Int)) := by positivity
    refine mul_lt_mul_of_pos_right ?_ this
    push_cast
    linarith
  · obtain ⟨a, ha⟩ : ∃ a, n / 2 ^ F.fb = a + 1 := ⟨_, (Nat.succ_pred_eq_of_pos h0).symm⟩
    have hn : n = a * 2 ^ F.fb + (2 ^ F.fb + n % 2 ^ F.fb) := by
      rw [ha, Nat.mul_comm, Nat.add_mul] at hd; omega
    have h1 := F.magReal_assemble a (2 ^ F.fb + n % 2 ^ F.fb) (by omega) (by omega)
    have h2 := F.magReal_assemble a (2 ^ F.fb + n % 2 ^ F.fb + 1) (by omega) (by omega)
    rw [← hn] at h1
    rw [← Nat.add_assoc, ← hn] at h2
    rw [h1, h2]
    have : 0 < (2 : ℝ) ^ (F.emin + (a : Int)) := by positivity
    refine mul_lt_mul_of_pos_right ?_ this
    push_cast
    linarith

theorem Fmt.magReal_strictMono (F : Fmt) : StrictMono F.magReal := strictMono_nat_of_lt_succ F.magReal_lt_succ

theorem Fmt.magReal_zero (F : Fmt) : F.magReal 0 = 0 := by simp [Fmt.magReal, Fmt.magVal]

theorem Fmt.magReal_nonneg (F : Fmt) (n : Nat) : 0 ≤ F.magReal n := by
  unfold Fmt.magReal; positivity

/-- A finite pattern denotes its magnitude with its sign. -/
theorem Fmt.real_eq (F : Fmt) {n : Nat} (h : F.mag n < F.infMag) :
    F.real n = (if F.sign n then -1 else 1) * F.magReal (F.mag n) := by
  simp [Fmt.real, Fmt.unpack, h, FVal.real, Fmt.magReal]

/-! ## Signs -/

theorem Fmt.infMag_lt (F : Fmt) : F.infMag < 2 ^ (F.eb + F.fb) := by
  rw [Fmt.infMag, pow_add]
  have h1 : 0 < 2 ^ F.eb := Nat.two_pow_pos _
  exact Nat.mul_lt_mul_of_pos_right (by omega) (Nat.two_pow_pos _)

theorem Fmt.mag_pack (F : Fmt) (neg : Bool) {n : Nat} (h : n < 2 ^ (F.eb + F.fb)) : F.mag (F.pack neg n) = n := by
  cases neg <;> simp [Fmt.mag, Fmt.pack, Nat.mod_eq_of_lt h]

theorem Fmt.sign_pack (F : Fmt) (neg : Bool) {n : Nat} (h : n < 2 ^ (F.eb + F.fb)) : F.sign (F.pack neg n) = neg := by
  cases neg
  · simp [Fmt.sign, Fmt.pack, Nat.div_eq_of_lt h]
  · have : (2 ^ (F.eb + F.fb) + n) / 2 ^ (F.eb + F.fb) = 1 := by
      rw [Nat.add_div_left _ (Nat.two_pow_pos _), Nat.div_eq_of_lt h]
    simp [Fmt.sign, Fmt.pack, this]

theorem Fmt.pack_lt (F : Fmt) (neg : Bool) {n : Nat} (h : n < 2 ^ (F.eb + F.fb)) :
    F.pack neg n < 2 ^ (F.eb + F.fb + 1) := by
  rw [pow_succ]
  unfold Fmt.pack
  split_ifs <;> omega

theorem Fmt.roundMag_le (F : Fmt) (m : Nat) (e : Int) : F.roundMag m e ≤ F.infMag := by
  unfold Fmt.roundMag
  split_ifs
  · exact Nat.zero_le _
  · exact min_le_right _ _

theorem Fmt.roundMag_lt (F : Fmt) (m : Nat) (e : Int) : F.roundMag m e < 2 ^ (F.eb + F.fb) :=
  (F.roundMag_le m e).trans_lt F.infMag_lt

/-- The real number of a pattern put together from a sign and a finite magnitude. -/
theorem Fmt.real_pack (F : Fmt) (neg : Bool) {n : Nat} (h : n < F.infMag) :
    F.real (F.pack neg n) = (if neg then -1 else 1) * F.magReal n := by
  have h2 := h.trans F.infMag_lt
  rw [F.real_eq (by rwa [F.mag_pack neg h2]), F.mag_pack neg h2, F.sign_pack neg h2]

/-- A number that rounds to no infinity moves by at most half a unit in the last place kept. -/
theorem Fmt.roundInt_error (F : Fmt) (z : Bool) {x : Int} (e : Int) (hx : x ≠ 0)
    (hfin : F.roundMag x.natAbs e < F.infMag) :
    |F.real (F.roundInt z x e) - (x : ℝ) * (2 : ℝ) ^ e| ≤ (2 : ℝ) ^ (F.lastExp x.natAbs e - 1) := by
  have hn : x.natAbs ≠ 0 := by omega
  rw [Fmt.roundInt, if_neg hx, F.real_pack _ hfin, F.magReal_roundMag e hn hfin]
  have h := F.kept_error x.natAbs e
  rcases lt_or_ge x 0 with hneg | hpos
  · have hx' : (x : ℝ) = -(x.natAbs : ℝ) := by
      have : (x : Int) = -(x.natAbs : Int) := by omega
      rw [this]; push_cast; simp
    rw [hx']
    simp only [hneg, decide_true, if_true]
    rw [abs_sub_comm] at h
    convert h using 2; ring
  · have hx' : (x : ℝ) = (x.natAbs : ℝ) := by
      have : (x : Int) = (x.natAbs : Int) := by omega
      rw [this]; push_cast; simp
    rw [hx']
    simp only [not_lt.2 hpos, decide_false]
    simpa using h

end Sys2Proof.Machine
end

