-- ==== Sys2Proof/Laws/Numerics.lean ====
section
/-! SUPPORT. The hardware's parameters satisfy the constraints of R6, and its numerics functions the properties of R9. -/

namespace Sys2Proof.Machine

/-- R6: whatever the free constants are, the parameters are in their ranges. -/
theorem impl_legal : impl.Legal := by
  have h1 := Nat.mod_lt Config.freeFs (show 0 < 2 ^ 24 - 1 by norm_num)
  have h2 := Nat.mod_lt Config.freeTblMax (show 0 < 2 ^ 31 - 2 by norm_num)
  have h3 := Nat.mod_lt Config.freeNh (show 0 < 2 ^ 15 - 2 by norm_num)
  have h4 := Nat.mod_lt Config.freeBlockSize (show 0 < 2 ^ 31 - 1 by norm_num)
  have h5 := Nat.mod_lt Config.freeAbufMax (show 0 < 2 ^ 31 - 1 by norm_num)
  refine ⟨⟨?_, ?_⟩, ⟨?_, ?_⟩, ⟨?_, ?_⟩, ⟨?_, ?_⟩, ?_, ?_⟩ <;> simp only [impl] <;> omega

/-! ## The reference cosine and sine -/

/-- An integer pair over `2^P` is within `ε` of the cosine and sine of `a`. -/
def Near (P : Nat) (z : Int × Int) (a ε : ℝ) : Prop :=
  |(z.1 : ℝ) / 2 ^ P - Real.cos a| ≤ ε ∧ |(z.2 : ℝ) / 2 ^ P - Real.sin a| ≤ ε

theorem floorShift (n : Int) (P : Nat) :
    |((n >>> P : Int) : ℝ) / 2 ^ P - (n : ℝ) / 2 ^ P / 2 ^ P| ≤ 1 / 2 ^ P := by
  have hp : (0 : ℝ) < 2 ^ P := by positivity
  have hpz : (0 : Int) < 2 ^ P := by positivity
  rw [Int.shiftRight_eq_div_pow]
  have h1 := Int.emod_add_mul_ediv n ((2 ^ P : Nat) : Int)
  have h2 := Int.emod_nonneg n (b := ((2 ^ P : Nat) : Int)) (by positivity)
  have h3 := Int.emod_lt_of_pos n (b := ((2 ^ P : Nat) : Int)) (by positivity)
  have h1' : ((n % ((2 ^ P : Nat) : Int) : Int) : ℝ) + 2 ^ P * ((n / ((2 ^ P : Nat) : Int) : Int) : ℝ) = n := by
    exact_mod_cast h1
  have h2' : (0 : ℝ) ≤ ((n % ((2 ^ P : Nat) : Int) : Int) : ℝ) := by exact_mod_cast h2
  have h3' : ((n % ((2 ^ P : Nat) : Int) : Int) : ℝ) ≤ 2 ^ P := by exact_mod_cast h3.le
  rw [← sub_div, abs_div, abs_of_pos hp]
  refine div_le_div_of_nonneg_right ?_ hp.le
  rw [abs_sub_comm, abs_le]
  constructor
  · have : (n : ℝ) / 2 ^ P - ((n / ((2 ^ P : Nat) : Int) : Int) : ℝ) = ((n % ((2 ^ P : Nat) : Int) : Int) : ℝ) / 2 ^ P := by
      field_simp; linarith
    rw [this]
    have : 0 ≤ ((n % ((2 ^ P : Nat) : Int) : Int) : ℝ) / 2 ^ P := by positivity
    linarith
  · have : (n : ℝ) / 2 ^ P - ((n / ((2 ^ P : Nat) : Int) : Int) : ℝ) = ((n % ((2 ^ P : Nat) : Int) : Int) : ℝ) / 2 ^ P := by
      field_simp; linarith
    rw [this, div_le_one hp]
    exact h3'

theorem Near.double {P : Nat} {z : Int × Int} {a ε : ℝ} (h : Near P z a ε) (h1 : ε ≤ 1) (h2 : 1 / 2 ^ P ≤ ε) :
    Near P (doubleAngle P z) (2 * a) (8 * ε) := by
  obtain ⟨hc, hs⟩ := h
  have hp : (0 : ℝ) < 2 ^ P := by positivity
  have hε : 0 ≤ ε := (abs_nonneg _).trans hc
  generalize hx : (z.1 : ℝ) / 2 ^ P = x at hc
  generalize hy : (z.2 : ℝ) / 2 ^ P = y at hs
  have hC := abs_le.1 (Real.abs_cos_le_one a)
  have hS := abs_le.1 (Real.abs_sin_le_one a)
  have hx1 : |x + Real.cos a| ≤ 3 := by
    have := abs_le.1 hc; exact abs_le.2 ⟨by linarith, by linarith⟩
  have hy1 : |y + Real.sin a| ≤ 3 := by
    have := abs_le.1 hs; exact abs_le.2 ⟨by linarith, by linarith⟩
  have hx2 : |x| ≤ 2 := by have := abs_le.1 hc; exact abs_le.2 ⟨by linarith, by linarith⟩
  have hS2 : |Real.sin a| ≤ 1 := Real.abs_sin_le_one a
  constructor
  · have f := floorShift (z.1 * z.1 - z.2 * z.2) P
    have e1 : (((z.1 * z.1 - z.2 * z.2 : Int) : ℝ)) / 2 ^ P / 2 ^ P = x * x - y * y := by
      rw [← hx, ← hy]; push_cast; field_simp
    rw [e1] at f
    have e2 : |x * x - y * y - Real.cos (2 * a)| ≤ 6 * ε := by
      have e3 : x * x - y * y - Real.cos (2 * a) =
          (x - Real.cos a) * (x + Real.cos a) - (y - Real.sin a) * (y + Real.sin a) := by
        rw [Real.cos_two_mul']; ring
      rw [e3]
      have m1 : |(x - Real.cos a) * (x + Real.cos a)| ≤ ε * 3 := by
        rw [abs_mul]; exact mul_le_mul hc hx1 (abs_nonneg _) hε
      have m2 : |(y - Real.sin a) * (y + Real.sin a)| ≤ ε * 3 := by
        rw [abs_mul]; exact mul_le_mul hs hy1 (abs_nonneg _) hε
      have := abs_sub ((x - Real.cos a) * (x + Real.cos a)) ((y - Real.sin a) * (y + Real.sin a))
      linarith
    have := abs_sub_le (((doubleAngle P z).1 : ℝ) / 2 ^ P) (x * x - y * y) (Real.cos (2 * a))
    have f' : |((doubleAngle P z).1 : ℝ) / 2 ^ P - (x * x - y * y)| ≤ 1 / 2 ^ P := f
    linarith
  · have f := floorShift (2 * (z.1 * z.2)) P
    have e1 : (((2 * (z.1 * z.2) : Int) : ℝ)) / 2 ^ P / 2 ^ P = 2 * (x * y) := by
      rw [← hx, ← hy]; push_cast; field_simp
    rw [e1] at f
    have e2 : |2 * (x * y) - Real.sin (2 * a)| ≤ 6 * ε := by
      have e3 : 2 * (x * y) - Real.sin (2 * a) =
          2 * (x * (y - Real.sin a) + Real.sin a * (x - Real.cos a)) := by
        rw [Real.sin_two_mul]; ring
      rw [e3, abs_mul, abs_two]
      have m1 : |x * (y - Real.sin a)| ≤ 2 * ε := by
        rw [abs_mul]; exact mul_le_mul hx2 hs (abs_nonneg _) (by norm_num)
      have m2 : |Real.sin a * (x - Real.cos a)| ≤ 1 * ε := by
        rw [abs_mul]; exact mul_le_mul hS2 hc (abs_nonneg _) (by norm_num)
      have := abs_add_le (x * (y - Real.sin a)) (Real.sin a * (x - Real.cos a))
      linarith
    have := abs_sub_le (((doubleAngle P z).2 : ℝ) / 2 ^ P) (2 * (x * y)) (Real.sin (2 * a))
    have f' : |((doubleAngle P z).2 : ℝ) / 2 ^ P - 2 * (x * y)| ≤ 1 / 2 ^ P := f
    linarith

theorem Near.doubleTimes {P : Nat} {z : Int × Int} {a ε : ℝ} (h : Near P z a ε) (h2 : 1 / 2 ^ P ≤ ε) :
    ∀ n : Nat, 8 ^ n * ε ≤ 1 → Near P (doubleTimes P n z) (2 ^ n * a) (8 ^ n * ε) := by
  have hε : 0 ≤ ε := le_trans (by positivity) h2
  intro n
  induction n with
  | zero => intro _; simpa [Machine.doubleTimes] using h
  | succ n ih =>
    intro h1
    have hpow : (8 : ℝ) ^ (n + 1) * ε = 8 * (8 ^ n * ε) := by ring
    have h8 : (0 : ℝ) ≤ 8 ^ n * ε := by positivity
    have hn : (8 : ℝ) ^ n * ε ≤ 1 := by rw [hpow] at h1; linarith
    have hge : 1 / 2 ^ P ≤ 8 ^ n * ε := h2.trans (le_mul_of_one_le_left hε (one_le_pow₀ (by norm_num)))
    have := (ih hn).double hn hge
    rw [hpow, show (2 : ℝ) ^ (n + 1) * a = 2 * (2 ^ n * a) by ring]
    exact this

theorem floorDiv (n : Int) {d : Int} (hd : 0 < d) : |((n / d : Int) : ℝ) - (n : ℝ) / d| ≤ 1 := by
  have h1 := Int.emod_add_mul_ediv n d
  have h2 := Int.emod_nonneg n hd.ne'
  have h3 := Int.emod_lt_of_pos n hd
  have h1' : ((n % d : Int) : ℝ) + d * ((n / d : Int) : ℝ) = n := by exact_mod_cast h1
  have h2' : (0 : ℝ) ≤ ((n % d : Int) : ℝ) := by exact_mod_cast h2
  have h3' : ((n % d : Int) : ℝ) ≤ d := by exact_mod_cast h3.le
  have hd' : (0 : ℝ) < d := by exact_mod_cast hd
  have : (n : ℝ) / d - ((n / d : Int) : ℝ) = ((n % d : Int) : ℝ) / d := by
    field_simp; linarith
  rw [abs_sub_comm, this, abs_of_nonneg (by positivity), div_le_one hd']
  exact h3'

/-- The starting polynomials: their error is of the fourth order in the angle. -/
theorem near_smallAngle (P : Nat) (T : Int) {t : ℝ} (ht : t = (T : ℝ) / 2 ^ P) (h1 : |t| ≤ 1) :
    Near P (smallAngle P T) t (|t| ^ 4 + 1 / 2 ^ P) := by
  have hp : (0 : ℝ) < 2 ^ P := by positivity
  have hT : (T : ℝ) = t * 2 ^ P := by rw [ht]; field_simp
  have ht4 : 0 ≤ |t| ^ 4 := by positivity
  constructor
  · have f := floorDiv (T * T) (d := ((2 ^ (P + 1) : Nat) : Int)) (by positivity)
    have e : (((T * T : Int) : ℝ)) / (((2 ^ (P + 1) : Nat) : Int) : ℝ) = t ^ 2 / 2 * 2 ^ P := by
      push_cast; rw [hT, pow_succ]; field_simp
    rw [e] at f
    have b := Real.cos_bound h1
    have g : ((smallAngle P T).1 : ℝ) / 2 ^ P = 1 - ((T * T / ((2 ^ (P + 1) : Nat) : Int) : Int) : ℝ) / 2 ^ P := by
      simp only [smallAngle, Int.shiftRight_eq_div_pow]
      rw [Int.cast_sub]
      push_cast
      field_simp
    rw [g]
    have f2 : |((T * T / ((2 ^ (P + 1) : Nat) : Int) : Int) : ℝ) / 2 ^ P - t ^ 2 / 2| ≤ 1 / 2 ^ P := by
      have : ((T * T / ((2 ^ (P + 1) : Nat) : Int) : Int) : ℝ) / 2 ^ P - t ^ 2 / 2 =
          (((T * T / ((2 ^ (P + 1) : Nat) : Int) : Int) : ℝ) - t ^ 2 / 2 * 2 ^ P) / 2 ^ P := by field_simp
      rw [this, abs_div, abs_of_pos hp]
      exact div_le_div_of_nonneg_right f hp.le
    rw [abs_le] at b f2 ⊢
    constructor <;> nlinarith
  · have f := floorDiv (T * T * T) (d := 6 * (2 : Int) ^ (2 * P)) (by positivity)
    have e : (((T * T * T : Int) : ℝ)) / ((6 * (2 : Int) ^ (2 * P) : Int) : ℝ) = t ^ 3 / 6 * 2 ^ P := by
      push_cast; rw [hT, two_mul, pow_add]; field_simp
    rw [e] at f
    have b := Real.sin_bound h1
    have g : ((smallAngle P T).2 : ℝ) / 2 ^ P =
        t - ((T * T * T / (6 * (2 : Int) ^ (2 * P)) : Int) : ℝ) / 2 ^ P := by
      simp only [smallAngle]
      rw [Int.cast_sub, hT]
      field_simp
    rw [g]
    have f2 : |((T * T * T / (6 * (2 : Int) ^ (2 * P)) : Int) : ℝ) / 2 ^ P - t ^ 3 / 6| ≤ 1 / 2 ^ P := by
      have : ((T * T * T / (6 * (2 : Int) ^ (2 * P)) : Int) : ℝ) / 2 ^ P - t ^ 3 / 6 =
          (((T * T * T / (6 * (2 : Int) ^ (2 * P)) : Int) : ℝ) - t ^ 3 / 6 * 2 ^ P) / 2 ^ P := by field_simp
      rw [this, abs_div, abs_of_pos hp]
      exact div_le_div_of_nonneg_right f hp.le
    have h5 : |t| ^ 5 / 100 ≤ |t| ^ 4 := by
      have : |t| ^ 5 = |t| ^ 4 * |t| := by ring
      nlinarith [abs_nonneg t]
    rw [abs_le] at b f2 ⊢
    constructor <;> linarith

/-- What `alignTo` brings to the exponent `lo`, when that is low enough to be exact. -/
theorem alignTo_real (lo : Int) (neg : Bool) (m : Nat) (e : Int) (h : lo ≤ e) :
    ((alignTo lo neg m e : Int) : ℝ) * (2 : ℝ) ^ lo = (FVal.fin neg m e).real := by
  have hz : (2 : ℝ) ^ (e - lo).toNat * (2 : ℝ) ^ lo = (2 : ℝ) ^ e := by
    rw [← zpow_natCast, ← zpow_add₀ two_ne_zero]; congr 1; omega
  cases neg <;> simp only [alignTo, FVal.real] <;> push_cast <;> simp <;> rw [mul_assoc, hz]

theorem abs_fin_lt (neg : Bool) (m : Nat) (e : Int) : |(FVal.fin neg m e).real| ≤ (2 : ℝ) ^ (intBits m e) := by
  have h1 : |(FVal.fin neg m e).real| = (m : ℝ) * (2 : ℝ) ^ e := by
    cases neg <;> simp [FVal.real, abs_mul]
  have h2 : (m : ℝ) ≤ (2 : ℝ) ^ (Nat.log2 m + 1) := by exact_mod_cast (Nat.lt_log2_self).le
  have h3 : (2 : ℝ) ^ (Nat.log2 m + 1) * (2 : ℝ) ^ e = (2 : ℝ) ^ ((Nat.log2 m : Int) + 1 + e) := by
    rw [← zpow_natCast, ← zpow_add₀ two_ne_zero]; push_cast; rfl
  rw [h1]
  calc (m : ℝ) * (2 : ℝ) ^ e ≤ (2 : ℝ) ^ (Nat.log2 m + 1) * (2 : ℝ) ^ e :=
        mul_le_mul_of_nonneg_right h2 (by positivity)
    _ = (2 : ℝ) ^ ((Nat.log2 m : Int) + 1 + e) := h3
    _ ≤ (2 : ℝ) ^ ((intBits m e : Nat) : Int) := by
        apply zpow_le_zpow_right₀ (by norm_num)
        unfold intBits; omega
    _ = _ := zpow_natCast _ _

theorem pow_mul_inv_le {a b c : Nat} (h : a + c ≤ b) : (2 : ℝ) ^ a * (1 / 2 ^ b) ≤ 1 / 2 ^ c := by
  have : (2 : ℝ) ^ (a + c) ≤ 2 ^ b := pow_le_pow_right₀ one_le_two h
  rw [mul_one_div, div_le_div_iff₀ (by positivity) (by positivity), one_mul, ← pow_add]
  exact this

theorem half_add_half (M : Nat) : (1 : ℝ) / 2 ^ (M + 1) + 1 / 2 ^ (M + 1) = (2 : ℝ) ^ (-(M : ℤ)) := by
  rw [zpow_neg, zpow_natCast, pow_succ]; field_simp; norm_num

/-- The error of the reference from the number `n` of integer bits, the number `H` of halvings and the number `P` of fraction bits. -/
theorem near_of_sizes {n H P M : Nat} {x : ℝ} {T : Int} (hx : |x| ≤ 2 ^ n) (hnH : n ≤ H)
    (h1 : 3 * H + (M + 1) ≤ 4 * (H - n)) (h2 : 3 * H + (M + 1) ≤ P) (hT : x / 2 ^ H = (T : ℝ) / 2 ^ P) :
    Near P (doubleTimes P H (smallAngle P T)) x ((2 : ℝ) ^ (-(M : ℤ))) := by
  have hts : |x / 2 ^ H| ≤ 1 / 2 ^ (H - n) := by
    rw [abs_div, abs_of_pos (show (0 : ℝ) < 2 ^ H by positivity), div_le_div_iff₀ (by positivity) (by positivity), one_mul]
    calc |x| * 2 ^ (H - n) ≤ 2 ^ n * 2 ^ (H - n) := mul_le_mul_of_nonneg_right hx (by positivity)
      _ = 2 ^ H := by rw [← pow_add]; congr 1; omega
  have ht1 : |x / 2 ^ H| ≤ 1 := hts.trans ((div_le_one (by positivity)).2 (one_le_pow₀ one_le_two))
  have base := near_smallAngle P T hT ht1
  have h0 : (1 : ℝ) / 2 ^ P ≤ |x / 2 ^ H| ^ 4 + 1 / 2 ^ P := by
    have : 0 ≤ |x / 2 ^ H| ^ 4 := by positivity
    linarith
  have hbound : (8 : ℝ) ^ H * (|x / 2 ^ H| ^ 4 + 1 / 2 ^ P) ≤ (2 : ℝ) ^ (-(M : ℤ)) := by
    have h4 : |x / 2 ^ H| ^ 4 ≤ 1 / 2 ^ (4 * (H - n)) := by
      calc _ ≤ (1 / 2 ^ (H - n) : ℝ) ^ 4 := pow_le_pow_left₀ (abs_nonneg _) hts 4
        _ = _ := by rw [div_pow, one_pow, ← pow_mul, Nat.mul_comm]
    have h8 : (8 : ℝ) ^ H = 2 ^ (3 * H) := by
      rw [show (8 : ℝ) = 2 ^ 3 by norm_num, ← pow_mul]
    rw [h8, mul_add, ← half_add_half M]
    exact add_le_add ((mul_le_mul_of_nonneg_left h4 (by positivity)).trans (pow_mul_inv_le h1)) (pow_mul_inv_le h2)
  have hle1 : (2 : ℝ) ^ (-(M : ℤ)) ≤ 1 := by
    rw [zpow_neg, zpow_natCast]; exact inv_le_one_of_one_le₀ (one_le_pow₀ one_le_two)
  have fin := base.doubleTimes h0 H (hbound.trans hle1)
  have hxx : (2 : ℝ) ^ H * (x / 2 ^ H) = x := by field_simp
  rw [hxx] at fin
  exact ⟨fin.1.trans hbound, fin.2.trans hbound⟩

/-- The reference is within `2^-200` of the cosine and sine of its angle. -/
theorem near_trigRef (neg : Bool) (m : Nat) (e : Int) (he : -1074 ≤ e) :
    Near (trigBits m e) (trigRef neg m e) (FVal.fin neg m e).real ((2 : ℝ) ^ (-(200 : Nat) : ℤ)) := by
  have hH : halvings m e = 4 * intBits m e + 300 := rfl
  have hP : trigBits m e = 12 * intBits m e + 2400 := rfl
  have hT := alignTo_real (halvings m e - trigBits m e : Int) neg m e (by omega)
  refine near_of_sizes (abs_fin_lt neg m e) (by omega) (by omega) (by omega) ?_
  generalize halvings m e = H at hT ⊢
  generalize trigBits m e = P at hT ⊢
  rw [← hT, zpow_sub₀ two_ne_zero, zpow_natCast, zpow_natCast]
  field_simp

/-! ## The numerics functions -/

theorem real64_ofNat_roundInt (S : Int) (e : Int) (hfin : f64.roundMag S.natAbs e < f64.infMag) :
    finite64 (BitVec.ofNat 64 (f64.roundInt false S e)) = true ∧
      real64 (BitVec.ofNat 64 (f64.roundInt false S e)) = f64.real (f64.roundInt false S e) := by
  have hlt : f64.roundInt false S e < 2 ^ 64 := by
    unfold Fmt.roundInt
    split_ifs
    · exact f64.pack_lt _ (by decide)
    · exact f64.pack_lt _ (f64.roundMag_lt _ _)
  have hto : (BitVec.ofNat 64 (f64.roundInt false S e)).toNat = f64.roundInt false S e := by
    rw [BitVec.toNat_ofNat, Nat.mod_eq_of_lt hlt]
  refine ⟨?_, by rw [real64, hto]⟩
  rw [finite64, hto, Fmt.finite, decide_eq_true_eq]
  unfold Fmt.roundInt
  split_ifs
  · decide
  · rwa [f64.mag_pack _ (f64.roundMag_lt _ _)]

/-- The reference rounded to binary64 is within `2^-53` of it. -/
theorem reference_error (P : Nat) (S : Int) (hS : |(S : ℝ) / 2 ^ P| < 2) :
    finite64 (fixedTo64 P S) = true ∧
      |real64 (fixedTo64 P S) - (S : ℝ) / 2 ^ P| ≤ (2 : ℝ) ^ (-53 : ℤ) := by
  unfold fixedTo64
  have hdiv : (S : ℝ) / 2 ^ P = (S : ℝ) * (2 : ℝ) ^ (-(P : ℤ)) := by rw [zpow_neg, zpow_natCast]; rfl
  rcases eq_or_ne S 0 with h0 | h0
  · subst h0
    have hz : f64.roundInt false 0 (-(P : Int)) = 0 := rfl
    rw [hz]
    refine ⟨by decide, ?_⟩
    have : real64 (BitVec.ofNat 64 0) = 0 := by
      rw [real64, show (BitVec.ofNat 64 0).toNat = 0 from rfl, f64.real_eq (by decide)]
      simp [Fmt.mag, Fmt.magReal_zero]
    rw [this]
    simp
  · have hn : S.natAbs ≠ 0 := by omega
    have hlog : Nat.log2 S.natAbs ≤ P := by
      have h1 : (2 : ℝ) ^ Nat.log2 S.natAbs ≤ (S.natAbs : ℝ) := by exact_mod_cast Nat.log2_self_le hn
      have h2 : (S.natAbs : ℝ) = |(S : ℝ)| := by
        rw [← Int.cast_abs, Int.abs_eq_natAbs]; simp
      rw [abs_div, abs_of_pos (show (0 : ℝ) < 2 ^ P by positivity), div_lt_iff₀ (by positivity)] at hS
      have h3 : (2 : ℝ) ^ Nat.log2 S.natAbs < 2 ^ (P + 1) := by rw [pow_succ]; linarith
      have h4 := (pow_lt_pow_iff_right₀ (one_lt_two (α := ℝ))).1 h3
      omega
    have hE : f64.lastExp S.natAbs (-(P : Int)) ≤ -52 := by
      unfold Fmt.lastExp
      have : f64.emin = -1074 := by decide
      have : (f64.fb : Int) = 52 := rfl
      omega
    have hfin : f64.roundMag S.natAbs (-(P : Int)) < f64.infMag := by
      rw [f64.roundMag_eq _ hn]
      refine (min_le_left _ _).trans_lt ?_
      have hk := f64.kept_le S.natAbs (-(P : Int))
      have e1 : f64.emin = -1074 := by decide
      have e2 : f64.fb = 52 := rfl
      have e3 : f64.infMag = 2047 * 2 ^ 52 := by decide
      rw [e2] at hk ⊢
      rw [e3]
      have : (f64.lastExp S.natAbs (-(P : Int)) - f64.emin).toNat ≤ 1022 := by omega
      have := Nat.mul_le_mul_right (2 ^ 52) this
      norm_num at hk this ⊢
      omega
    obtain ⟨hf, hr⟩ := real64_ofNat_roundInt S (-(P : Int)) hfin
    refine ⟨hf, ?_⟩
    rw [hr, hdiv]
    refine (f64.roundInt_error false _ h0 hfin).trans ?_
    exact zpow_le_zpow_right₀ one_le_two (by omega)

theorem unpack_emin (F : Fmt) {n : Nat} {neg : Bool} {m : Nat} {e : Int} (h : F.unpack n = .fin neg m e) :
    F.emin ≤ e ∧ F.finite n = true := by
  unfold Fmt.unpack at h
  split_ifs at h with h1
  injection h with _ _ he
  refine ⟨?_, by simpa [Fmt.finite] using h1⟩
  rw [← he]
  unfold Fmt.magVal
  split_ifs with h2
  · exact le_refl _
  · simp only
    have : 1 ≤ F.mag n / 2 ^ F.fb := Nat.one_le_iff_ne_zero.2 h2
    omega

/-- An integer over `2^P` within `2^-200` of `v`, rounded to binary64, is finite and within `2^-52` of it. -/
theorem fixedTo64_bound {P : Nat} {S : Int} {v : ℝ} (hv : |v| ≤ 1)
    (hS : |(S : ℝ) / 2 ^ P - v| ≤ (2 : ℝ) ^ (-(200 : Nat) : ℤ)) :
    finite64 (fixedTo64 P S) = true ∧ |real64 (fixedTo64 P S) - v| ≤ (2 : ℝ) ^ (-52 : ℤ) := by
  have hsmall : (2 : ℝ) ^ (-(200 : Nat) : ℤ) ≤ (2 : ℝ) ^ (-53 : ℤ) := zpow_le_zpow_right₀ one_le_two (by norm_num)
  have h53 : (2 : ℝ) ^ (-52 : ℤ) = (2 : ℝ) ^ (-53 : ℤ) + (2 : ℝ) ^ (-53 : ℤ) := by
    rw [show (-52 : ℤ) = -53 + 1 by norm_num, zpow_add_one₀ two_ne_zero]; ring
  have h1 : (2 : ℝ) ^ (-53 : ℤ) < 1 := zpow_lt_one_of_neg₀ one_lt_two (by norm_num)
  have hS2 : |(S : ℝ) / 2 ^ P| < 2 := by
    have := abs_sub_abs_le_abs_sub ((S : ℝ) / 2 ^ P) v
    linarith
  obtain ⟨hf, he⟩ := reference_error P S hS2
  exact ⟨hf, (abs_sub_le _ ((S : ℝ) / 2 ^ P) v).trans ((add_le_add he (hS.trans hsmall)).trans_eq h53.symm)⟩

theorem finite64_unpack {x : F64} (h : finite64 x = true) : ∃ neg m e, f64.unpack x.toNat = .fin neg m e := by
  have h' : f64.mag x.toNat < f64.infMag := by simpa [finite64, Fmt.finite] using h
  exact ⟨_, _, _, by rw [Fmt.unpack, if_pos h']⟩

theorem real64_zero : real64 0 = 0 := by
  rw [real64, show (0 : F64).toNat = 0 from rfl, f64.real_eq (by decide)]
  simp [Fmt.mag, Fmt.magReal_zero]

theorem real64_one : real64 0x3FF0000000000000#64 = 1 := by
  rw [real64, Fmt.real, show f64.unpack (0x3FF0000000000000#64).toNat = .fin false (2 ^ 52) (-52) by decide]
  simp [FVal.real]
  norm_num

/-- P-bound (R9) of the reference sine. -/
theorem sinRef_bound (x : F64) (h : finite64 x = true) :
    finite64 (sinRef x) = true ∧ |real64 (sinRef x) - Real.sin (real64 x)| ≤ (2 : ℝ) ^ (-52 : ℤ) := by
  obtain ⟨neg, m, e, hu⟩ := finite64_unpack h
  have he : -1074 ≤ e := (unpack_emin f64 hu).1
  have hr : real64 x = (FVal.fin neg m e).real := by rw [real64, Fmt.real, hu]
  unfold sinRef
  rw [hu]
  simp only
  split_ifs with hx
  · subst hx
    rw [real64_zero, Real.sin_zero, sub_zero, abs_zero]
    exact ⟨by decide, by positivity⟩
  · rw [hr]
    exact fixedTo64_bound (Real.abs_sin_le_one _) (near_trigRef neg m e he).2

/-- P-bound (R9) of the reference cosine. -/
theorem cosRef_bound (x : F64) (h : finite64 x = true) :
    finite64 (cosRef x) = true ∧ |real64 (cosRef x) - Real.cos (real64 x)| ≤ (2 : ℝ) ^ (-52 : ℤ) := by
  obtain ⟨neg, m, e, hu⟩ := finite64_unpack h
  have he : -1074 ≤ e := (unpack_emin f64 hu).1
  have hr : real64 x = (FVal.fin neg m e).real := by rw [real64, Fmt.real, hu]
  unfold cosRef
  rw [hu]
  simp only
  split_ifs with hx
  · subst hx
    rw [real64_zero, Real.cos_zero, real64_one, sub_self, abs_zero]
    exact ⟨by decide, by positivity⟩
  · rw [hr]
    exact fixedTo64_bound (Real.abs_cos_le_one _) (near_trigRef neg m e he).1

/-- The reference pair has the properties R9 names. -/
theorem ref_numerics : NumericsProps sinRef cosRef where
  sin_zero := rfl
  cos_zero := rfl
  sin_bound := sinRef_bound
  cos_bound := cosRef_bound

/-- Every pair R9 allows is the hardware's for some value of the free constant. -/
theorem implNumerics_of_some {n : Numerics} (h : Config.freeNumerics = some n) :
    impl.sin64 = n.sin64 ∧ impl.cos64 = n.cos64 := by
  constructor
  · show implSin = _
    rw [implSin, h]
  · show implCos = _
    rw [implCos, h]

/-- The hardware's `SIN64` and `COS64` have the properties R9 names. -/
theorem impl_numerics : NumericsOk impl := by
  show NumericsProps implSin implCos
  unfold implSin implCos
  cases Config.freeNumerics with
  | some n => exact n.ok
  | none => exact ref_numerics

end Sys2Proof.Machine
end

