-- ==== Sys2Proof/Laws/Oscillator.lean ====
section
/-! SUPPORT. Bounds on rounded magnitudes, and a frequency so low that every implementation builds its table of two entries. -/

namespace Sys2Proof.Machine

/-! ## Rounded magnitudes -/

theorem log2_exp_lt {m : Nat} {e s : Int} (hm : m ≠ 0) (h : (m : ℝ) * (2 : ℝ) ^ e < (2 : ℝ) ^ s) :
    e + (Nat.log2 m : Int) < s := by
  have h1 : ((2 ^ Nat.log2 m : Nat) : ℝ) ≤ m := by exact_mod_cast Nat.log2_self_le hm
  have h2 : (2 : ℝ) ^ (e + (Nat.log2 m : Int)) < (2 : ℝ) ^ s := by
    rw [zpow_add₀ two_ne_zero, zpow_natCast, mul_comm]
    push_cast at h1
    exact (mul_le_mul_of_nonneg_right h1 (by positivity)).trans_lt h
  exact (zpow_lt_zpow_iff_right₀ (by norm_num)).1 h2

/-- A number well below the overflow threshold rounds to no infinity. -/
theorem Fmt.roundMag_lt_infMag (F : Fmt) {m : Nat} {e s : Int} (h : (m : ℝ) * (2 : ℝ) ^ e < (2 : ℝ) ^ s)
    (hs : F.emin + F.fb < s) (hi : (s - F.fb - F.emin).toNat * 2 ^ F.fb + 2 ^ (F.fb + 1) < F.infMag) :
    F.roundMag m e < F.infMag := by
  by_cases hm : m = 0
  · subst hm
    exact (Nat.zero_le _).trans_lt hi
  · have hl := log2_exp_lt hm h
    rw [F.roundMag_eq e hm]
    refine (min_le_left _ _).trans_lt (lt_of_le_of_lt (Nat.add_le_add (Nat.mul_le_mul_right _ ?_) (F.kept_le m e)) hi)
    unfold Fmt.lastExp
    omega

/-- Rounding moves a number by a small part of itself, or by half the smallest subnormal. -/
theorem Fmt.roundMag_near (F : Fmt) (m : Nat) (e : Int) (hfin : F.roundMag m e < F.infMag) :
    |F.magReal (F.roundMag m e) - (m : ℝ) * (2 : ℝ) ^ e| ≤
      (m : ℝ) * (2 : ℝ) ^ e * (2 : ℝ) ^ (-(F.fb : Int) - 1) + (2 : ℝ) ^ (F.emin - 1) := by
  by_cases hm : m = 0
  · subst hm
    simp only [Fmt.roundMag, if_true, F.magReal_zero, Nat.cast_zero, zero_mul, sub_self, abs_zero, zero_add]
    positivity
  · rw [F.magReal_roundMag e hm hfin]
    refine (F.kept_error m e).trans ?_
    have h1 : ((2 ^ Nat.log2 m : Nat) : ℝ) ≤ m := by exact_mod_cast Nat.log2_self_le hm
    push_cast at h1
    have h2 : (2 : ℝ) ^ (e + (Nat.log2 m : Int) - F.fb - 1) ≤ (m : ℝ) * (2 : ℝ) ^ e * (2 : ℝ) ^ (-(F.fb : Int) - 1) := by
      rw [show e + (Nat.log2 m : Int) - F.fb - 1 = (Nat.log2 m : Int) + e + (-(F.fb : Int) - 1) by ring,
        zpow_add₀ two_ne_zero, zpow_add₀ two_ne_zero, zpow_natCast]
      gcongr
    have h3 : 0 < (2 : ℝ) ^ (F.emin - 1) := by positivity
    have h4 : 0 ≤ (m : ℝ) * (2 : ℝ) ^ e * (2 : ℝ) ^ (-(F.fb : Int) - 1) := by positivity
    unfold Fmt.lastExp
    rcases max_cases F.emin (e + (Nat.log2 m : Int) - F.fb) with ⟨h, -⟩ | ⟨h, -⟩ <;> rw [h] <;> linarith

/-- A number with no more bits than the format keeps, not below its smallest unit, is not changed by rounding. -/
theorem Fmt.roundMag_exact (F : Fmt) {m : Nat} {e : Int} (hm : m < 2 ^ (F.fb + 1)) (he : F.emin ≤ e)
    (hfin : F.roundMag m e < F.infMag) : F.magReal (F.roundMag m e) = (m : ℝ) * (2 : ℝ) ^ e := by
  by_cases h0 : m = 0
  · subst h0; simp [Fmt.roundMag, F.magReal_zero]
  · rw [F.magReal_roundMag e h0 hfin]
    have hlog : Nat.log2 m < F.fb + 1 := (Nat.log2_lt h0).2 hm
    have hle : F.lastExp m e ≤ e := by unfold Fmt.lastExp; omega
    unfold Fmt.kept rneScale
    rw [if_pos (by omega)]
    push_cast
    rw [mul_assoc, ← zpow_natCast, ← zpow_add₀ two_ne_zero]
    congr 2
    omega

/-! ## Operations on finite positive operands -/

theorem fmul64_fin {n a b : F64} {m k : Nat} {e g : Int} (ha : f64.unpack a.toNat = .fin false m e)
    (hb : f64.unpack b.toNat = .fin false k g) : fmul64 n a b = BitVec.ofNat 64 (f64.roundMag (m * k) (e + g)) := by
  simp [fmul64, Fmt.mul, ha, hb, Fmt.pack]

theorem fdiv64_fin {n a b : F64} {m k : Nat} {e g : Int} (ha : f64.unpack a.toNat = .fin false m e)
    (hb : f64.unpack b.toNat = .fin false k g) (hk : k ≠ 0) :
    fdiv64 n a b = BitVec.ofNat 64
      (f64.roundMag (stickyQuot (f64.divScale k) m k) (e - g - (f64.divScale k : Int) - 1)) := by
  simp [fdiv64, Fmt.div, ha, hb, hk, Fmt.pack]

theorem fmul32_fin {n a b : F32} {m k : Nat} {e g : Int} (ha : f32.unpack a.toNat = .fin false m e)
    (hb : f32.unpack b.toNat = .fin false k g) : fmul32 n a b = BitVec.ofNat 32 (f32.roundMag (m * k) (e + g)) := by
  simp [fmul32, Fmt.mul, ha, hb, Fmt.pack]

theorem toNat_roundMag64 (m : Nat) (e : Int) : (BitVec.ofNat 64 (f64.roundMag m e)).toNat = f64.roundMag m e := by
  have := f64.roundMag_lt m e
  rw [BitVec.toNat_ofNat, Nat.mod_eq_of_lt (this.trans (by decide))]

theorem toNat_roundMag32 (m : Nat) (e : Int) : (BitVec.ofNat 32 (f32.roundMag m e)).toNat = f32.roundMag m e := by
  have := f32.roundMag_lt m e
  rw [BitVec.toNat_ofNat, Nat.mod_eq_of_lt (this.trans (by decide))]

theorem Fmt.mag_roundMag (F : Fmt) (m : Nat) (e : Int) : F.mag (F.roundMag m e) = F.roundMag m e :=
  Nat.mod_eq_of_lt (F.roundMag_lt m e)

theorem Fmt.sign_roundMag (F : Fmt) (m : Nat) (e : Int) : F.sign (F.roundMag m e) = false := by
  simp [Fmt.sign, Nat.div_eq_of_lt (F.roundMag_lt m e)]

theorem Fmt.real_roundMag (F : Fmt) {m : Nat} {e : Int} (h : F.roundMag m e < F.infMag) :
    F.real (F.roundMag m e) = F.magReal (F.roundMag m e) := by
  rw [F.real_eq (by rwa [F.mag_roundMag]), F.mag_roundMag, F.sign_roundMag]; simp

/-- A finite rounded magnitude as what it denotes. -/
theorem Fmt.unpack_roundMag (F : Fmt) {m : Nat} {e : Int} (h : F.roundMag m e < F.infMag) :
    ∃ k g, F.unpack (F.roundMag m e) = .fin false k g ∧ (k : ℝ) * (2 : ℝ) ^ g = F.magReal (F.roundMag m e) := by
  refine ⟨_, _, ?_, rfl⟩
  rw [Fmt.unpack, F.mag_roundMag, if_pos h, F.sign_roundMag]

/-! ## The internal rate -/

theorem fs_bounds : 2 ≤ impl.fs ∧ impl.fs ≤ 2 ^ 24 := impl_legal.1

theorem fs_lt_pow : (impl.fs : ℝ) * (2 : ℝ) ^ (0 : Int) < (2 : ℝ) ^ (25 : Int) := by
  have : (impl.fs : ℝ) ≤ 2 ^ 24 := by exact_mod_cast fs_bounds.2
  norm_num at *
  linarith

theorem two_le_fs : (2 : ℝ) ≤ impl.fs := by exact_mod_cast fs_bounds.1

/-- `FS64` is positive and at least 1. -/
theorem fs64_fin : ∃ k g, f64.unpack (fs64 impl).toNat = .fin false k g ∧ 1 ≤ (k : ℝ) * (2 : ℝ) ^ g ∧ k ≠ 0 := by
  have hfin : f64.roundMag impl.fs 0 < f64.infMag := f64.roundMag_lt_infMag fs_lt_pow (by decide) (by decide)
  obtain ⟨k, g, hu, hr⟩ := f64.unpack_roundMag hfin
  have hn := f64.roundMag_near impl.fs 0 hfin
  have h2 := two_le_fs
  have h1 : 1 ≤ (k : ℝ) * (2 : ℝ) ^ g := by
    rw [hr]
    have := (abs_le.1 hn).1
    have e1 : (2 : ℝ) ^ (-(f64.fb : Int) - 1) ≤ 1 / 4 := by norm_num [f64]
    have e2 : (2 : ℝ) ^ (f64.emin - 1) ≤ 1 / 4 := by
      rw [show f64.emin - 1 = -1075 by decide, show (1 : ℝ) / 4 = 2 ^ (-2 : Int) by norm_num]
      exact zpow_le_zpow_right₀ (by norm_num) (by norm_num)
    simp only [zpow_zero, mul_one] at this
    nlinarith
  refine ⟨k, g, by rw [fs64, u2f64, toNat_roundMag64, hu], h1, ?_⟩
  rintro rfl
  norm_num at h1

/-- The half of `FS32`, as `CFG` computes it, is more than a quarter of `FS`, or an infinity. -/
theorem halfRate_large (n : F32) :
    f32.mag (fmul32 n (fs32 impl) half32).toNat ≤ f32.infMag ∧ f32.sign (fmul32 n (fs32 impl) half32).toNat = false ∧
      ∀ j, f32.magReal j ≤ impl.fs / 4 → j < f32.mag (fmul32 n (fs32 impl) half32).toNat := by
  have hfin : f32.roundMag impl.fs 0 < f32.infMag := f32.roundMag_lt_infMag fs_lt_pow (by decide) (by decide)
  obtain ⟨k, g, hu, hr⟩ := f32.unpack_roundMag hfin
  have hn := (abs_le.1 (f32.roundMag_near impl.fs 0 hfin))
  have h2 := two_le_fs
  have e1 : (2 : ℝ) ^ (-(f32.fb : Int) - 1) ≤ 1 / 100 := by norm_num [f32]
  have e2 : (2 : ℝ) ^ (f32.emin - 1) ≤ 1 / 100 := by
    rw [show f32.emin - 1 = -150 by decide]; norm_num
  have e3 : 0 < (2 : ℝ) ^ (-(f32.fb : Int) - 1) := by positivity
  simp only [zpow_zero, mul_one] at hn
  have hk : 98 / 100 * (impl.fs : ℝ) ≤ (k : ℝ) * (2 : ℝ) ^ g := by rw [hr]; nlinarith [hn.1]
  have heq : fmul32 n (fs32 impl) half32 = BitVec.ofNat 32 (f32.roundMag (k * 2 ^ 23) (g + -24)) :=
    fmul32_fin (by rw [fs32, u2f32, toNat_roundMag32, hu]) (by decide)
  rw [heq, toNat_roundMag32, f32.mag_roundMag]
  refine ⟨f32.roundMag_le _ _, f32.sign_roundMag _ _, fun j hj => ?_⟩
  have hx : ((k * 2 ^ 23 : Nat) : ℝ) * (2 : ℝ) ^ (g + -24) = (k : ℝ) * (2 : ℝ) ^ g / 2 := by
    rw [zpow_add₀ two_ne_zero]
    push_cast
    norm_num
    ring
  rcases lt_or_ge (f32.roundMag (k * 2 ^ 23) (g + -24)) f32.infMag with h | h
  · have hm := (abs_le.1 (f32.roundMag_near (k * 2 ^ 23) (g + -24) h)).1
    rw [hx] at hm
    by_contra hc
    have := f32.magReal_strictMono.monotone (not_lt.1 hc)
    have hV : (k : ℝ) * (2 : ℝ) ^ g / 2 * (2 : ℝ) ^ (-(f32.fb : Int) - 1) ≤ (k : ℝ) * (2 : ℝ) ^ g / 2 * (1 / 100) :=
      mul_le_mul_of_nonneg_left e1 (by positivity)
    generalize (2 : ℝ) ^ (f32.emin - 1) = δ at *
    generalize (k : ℝ) * (2 : ℝ) ^ g / 2 * (2 : ℝ) ^ (-(f32.fb : Int) - 1) = η at *
    generalize (k : ℝ) * (2 : ℝ) ^ g = V at *
    have a1 : f32.magReal (f32.roundMag (k * 2 ^ 23) (g + -24)) ≤ impl.fs / 4 := this.trans hj
    generalize f32.magReal (f32.roundMag (k * 2 ^ 23) (g + -24)) = M at *
    linarith only [a1, hm, hV, hk, e2, h2]
  · have hi : f32.roundMag (k * 2 ^ 23) (g + -24) = f32.infMag := le_antisymm (f32.roundMag_le _ _) h
    rw [hi]
    by_contra hc
    have h3 := f32.magReal_strictMono.monotone (not_lt.1 hc)
    have h4 : (impl.fs : ℝ) ≤ 2 ^ 24 := by exact_mod_cast fs_bounds.2
    have h5 : f32.magReal f32.infMag = 2 ^ 23 * (2 : ℝ) ^ (105 : Int) := by
      rw [Fmt.magReal, show f32.magVal f32.infMag = (2 ^ 23, 105) by decide]; norm_num
    rw [h5] at h3
    have h6 : (2 : ℝ) ^ 24 < 2 ^ 23 * (2 : ℝ) ^ (105 : Int) := by norm_num
    linarith

/-! ## Very small angles are hits -/

/-- A finite sine value below `2^-30` in magnitude is a hit. -/
theorem isHit_of_small {x : F64} (hf : finite64 x = true) (h : |real64 x| ≤ (2 : ℝ) ^ (-30 : Int)) : isHit x = true := by
  have hf' : f64.mag x.toNat < f64.infMag := by simpa [finite64, Fmt.finite] using hf
  have hn : (fabs64 x).toNat = f64.mag x.toNat := by
    rw [fabs64, BitVec.toNat_and, show (0x7FFFFFFFFFFFFFFF#64).toNat = 2 ^ 63 - 1 by decide, Nat.and_two_pow_sub_one_eq_mod]
    rfl
  have hmm : f64.mag (f64.mag x.toNat) = f64.mag x.toNat := Nat.mod_mod _ _
  have hs : f64.sign (f64.mag x.toNat) = false := by
    have : f64.mag x.toNat < 2 ^ (f64.eb + f64.fb) := Nat.mod_lt _ (Nat.two_pow_pos _)
    simp [Fmt.sign, Nat.div_eq_of_lt this]
  have hlt : f64.mag x.toNat < eps64.toNat := by
    by_contra hc
    have h1 := f64.magReal_strictMono.monotone (not_lt.1 hc)
    have h2 : f64.magReal eps64.toNat = (7555786372591432 : ℝ) * (2 : ℝ) ^ (-76 : Int) := by
      rw [Fmt.magReal, show f64.magVal eps64.toNat = (7555786372591432, -76) by decide]; norm_num
    have h3 : |real64 x| = f64.magReal (f64.mag x.toNat) := by
      rw [real64, f64.real_eq hf', abs_mul, abs_of_nonneg (f64.magReal_nonneg _)]
      split_ifs <;> simp
    rw [h3] at h
    rw [h2] at h1
    have := h1.trans h
    norm_num at this
  have hk : f64.key eps64.toNat = (eps64.toNat : Int) := by decide
  unfold isHit flt64 Fmt.lt
  rw [hn, hk]
  have h1 : f64.isNan (f64.mag x.toNat) = false := by simp [Fmt.isNan, hmm, hf'.le]
  have h2 : f64.key (f64.mag x.toNat) = (f64.mag x.toNat : Int) := by simp [Fmt.key, hs, hmm]
  rw [h1, h2, show f64.isNan eps64.toNat = false by decide]
  simpa using hlt

/-- A very small number over `FS64` is finite and very small. -/
theorem div_fs64_small {n c : F64} {m : Nat} {e : Int} (hc : f64.unpack c.toNat = .fin false m e)
    (hsm : (m : ℝ) * (2 : ℝ) ^ e ≤ (2 : ℝ) ^ (-100 : Int)) (he : e ≤ -100) :
    finite64 (fdiv64 n c (fs64 impl)) = true ∧ |real64 (fdiv64 n c (fs64 impl))| ≤ (2 : ℝ) ^ (-90 : Int) := by
  obtain ⟨k, g, hu, h1, hk⟩ := fs64_fin
  have hkb : k < 2 ^ 53 := (by
    have hlt : (fs64 impl).toNat = f64.roundMag impl.fs 0 := by rw [fs64, u2f64, toNat_roundMag64]
    have : f64.unpack (fs64 impl).toNat = .fin false k g := hu
    unfold Fmt.unpack at this
    split_ifs at this
    simp only [FVal.fin.injEq] at this
    obtain ⟨-, hk', -⟩ := this
    rw [← hk', Fmt.magVal]
    have hp := Nat.mod_lt (f64.mag (fs64 impl).toNat) (Nat.two_pow_pos f64.fb)
    split_ifs with h
    · have := (Nat.div_eq_zero_iff.1 h).resolve_left (by decide)
      exact this.trans (by decide)
    · exact (Nat.add_lt_add_right hp _).trans_le (by decide))
  rw [fdiv64_fin hc hu hk]
  generalize hds : f64.divScale k = s
  have hs56 : 56 ≤ s := by rw [← hds, Fmt.divScale]; show 56 ≤ 52 + 4 + _; omega
  have hkR : (0 : ℝ) < k := by exact_mod_cast Nat.pos_of_ne_zero hk
  have hg : (0 : ℝ) < (2 : ℝ) ^ g := by positivity
  -- the scaled quotient is at most the quotient and a little
  have hq : (stickyQuot s m k : ℝ) ≤ 2 * ((m : ℝ) * 2 ^ s / k) + 1 := by
    have h : ((m * 2 ^ s / k : Nat) : ℝ) ≤ (m : ℝ) * 2 ^ s / k := by
      have := @Nat.cast_div_le ℝ _ _ _ (m * 2 ^ s) k
      push_cast at this
      exact this
    unfold stickyQuot
    push_cast
    split_ifs <;> linarith
  have hx : (stickyQuot s m k : ℝ) * (2 : ℝ) ^ (e - g - (s : Int) - 1) ≤ (2 : ℝ) ^ (-95 : Int) := by
    have hz : (2 : ℝ) ^ (e - g - (s : Int) - 1) = (2 : ℝ) ^ e / (2 : ℝ) ^ g / 2 ^ s / 2 := by
      rw [zpow_sub_one₀ two_ne_zero, zpow_sub₀ two_ne_zero, zpow_sub₀ two_ne_zero, zpow_natCast]; ring
    have hp : (0 : ℝ) < 2 ^ s := by positivity
    have hez : (0 : ℝ) < (2 : ℝ) ^ e := by positivity
    have h56 : (2 : ℝ) ^ 53 ≤ 2 ^ s := pow_le_pow_right₀ (by norm_num) (by omega)
    have hk53 : (k : ℝ) ≤ 2 ^ 53 := by exact_mod_cast hkb.le
    have he' : (2 : ℝ) ^ e ≤ (2 : ℝ) ^ (-100 : Int) := zpow_le_zpow_right₀ (by norm_num) he
    have t1 : (m : ℝ) * 2 ^ e / (k * 2 ^ g) ≤ (2 : ℝ) ^ (-100 : Int) :=
      (div_le_self (by positivity) h1).trans hsm
    have t2 : 1 / ((2 : ℝ) ^ g * 2 ^ s) ≤ 1 := by
      rw [div_le_one (by positivity)]
      calc (1 : ℝ) ≤ k * 2 ^ g := h1
        _ ≤ 2 ^ s * 2 ^ g := by gcongr; exact hk53.trans h56
        _ = _ := mul_comm _ _
    calc _ ≤ (2 * ((m : ℝ) * 2 ^ s / k) + 1) * ((2 : ℝ) ^ e / (2 : ℝ) ^ g / 2 ^ s / 2) := by
            rw [hz]; gcongr
      _ = (m : ℝ) * 2 ^ e / (k * 2 ^ g) + (2 : ℝ) ^ e * (1 / ((2 : ℝ) ^ g * 2 ^ s)) / 2 := by field_simp
      _ ≤ (2 : ℝ) ^ (-100 : Int) + (2 : ℝ) ^ (-100 : Int) * 1 / 2 := by gcongr
      _ ≤ _ := by norm_num
  have hfin : f64.roundMag (stickyQuot s m k) (e - g - (s : Int) - 1) < f64.infMag :=
    f64.roundMag_lt_infMag (s := 0) (hx.trans_lt (by norm_num)) (by decide) (by decide)
  refine ⟨by rw [finite64, toNat_roundMag64, Fmt.finite, f64.mag_roundMag]; simpa using hfin, ?_⟩
  rw [real64, toNat_roundMag64, f64.real_roundMag hfin, abs_of_nonneg (f64.magReal_nonneg _)]
  have hn := (abs_le.1 (f64.roundMag_near _ _ hfin)).2
  have e1 : (2 : ℝ) ^ (-(f64.fb : Int) - 1) ≤ 1 := by norm_num [f64]
  have e2 : (2 : ℝ) ^ (f64.emin - 1) ≤ (2 : ℝ) ^ (-100 : Int) := zpow_le_zpow_right₀ (by norm_num) (by decide)
  have h0 : 0 ≤ (stickyQuot s m k : ℝ) * (2 : ℝ) ^ (e - g - (s : Int) - 1) := by positivity
  have : (2 : ℝ) ^ (-95 : Int) + (2 : ℝ) ^ (-95 : Int) + (2 : ℝ) ^ (-100 : Int) ≤ (2 : ℝ) ^ (-90 : Int) := by norm_num
  nlinarith

/-- The smallest positive frequency gives a hit at the indices 0, 1 and 2 on the hardware, whatever its parameters. -/
theorem isHit_lowest (d k : Nat) (hk : k ≤ 2) : isHit (impl.sin64 (theta impl d 0x00000001#32 k)) = true := by
  have hc : ∃ c m e, f64.unpack (BitVec.toNat c) = .fin false m e ∧ (m : ℝ) * (2 : ℝ) ^ e ≤ (2 : ℝ) ^ (-100 : Int) ∧ e ≤ -100 ∧
      theta impl d 0x00000001#32 k = fdiv64 (impl.nan64 d) c (fs64 impl) := by
    have h1 : cvt32to64 (impl.nan64 d) 0x00000001#32 = 0x36A0000000000000#64 := by
      rw [cvt32to64, Fmt.convert, show f32.unpack (0x00000001#32).toNat = .fin false 1 (-149) by decide]
      show BitVec.ofNat 64 (f64.pack false (f64.roundMag 1 (-149))) = _
      decide
    have h2 : fmul64 (impl.nan64 d) twoPi64 0x36A0000000000000#64 = 0x36C921FB54442D18#64 := by
      rw [fmul64_fin (show f64.unpack twoPi64.toNat = .fin false 0x1921FB54442D18 (-50) by decide)
        (show f64.unpack (0x36A0000000000000#64).toNat = .fin false 0x10000000000000 (-201) by decide)]
      decide
    have h3 : f64.unpack (0x36C921FB54442D18#64).toNat = .fin false 0x1921FB54442D18 (-199) := by decide
    unfold theta
    rw [h1, h2]
    interval_cases k
    · refine ⟨_, 0, -1074, ?_, by norm_num, by norm_num, rfl⟩
      rw [fmul64_fin h3 (show f64.unpack (u2f64 0).toNat = .fin false 0 (-1074) by decide)]; decide
    · refine ⟨_, 0x1921FB54442D18, -199, ?_, by norm_num, by norm_num, rfl⟩
      rw [fmul64_fin h3 (show f64.unpack (u2f64 1).toNat = .fin false 0x10000000000000 (-52) by decide)]; decide
    · refine ⟨_, 0x1921FB54442D18, -198, ?_, by norm_num, by norm_num, rfl⟩
      rw [fmul64_fin h3 (show f64.unpack (u2f64 2).toNat = .fin false 0x10000000000000 (-51) by decide)]; decide
  obtain ⟨c, m, e, hu, hsm, he, hth⟩ := hc
  obtain ⟨hf, hr⟩ := div_fs64_small (n := impl.nan64 d) hu hsm he
  rw [← hth] at hf hr
  obtain ⟨hsf, hsb⟩ := impl_numerics.sin_bound _ hf
  refine isHit_of_small hsf ?_
  have hsin : |Real.sin (real64 (theta impl d 0x00000001#32 k))| ≤ (2 : ℝ) ^ (-90 : Int) := Real.abs_sin_le_abs.trans hr
  have := abs_sub_abs_le_abs_sub (real64 (impl.sin64 (theta impl d 0x00000001#32 k)))
    (Real.sin (real64 (theta impl d 0x00000001#32 k)))
  have h52 : (2 : ℝ) ^ (-52 : Int) + (2 : ℝ) ^ (-90 : Int) ≤ (2 : ℝ) ^ (-30 : Int) := by norm_num
  linarith

/-- A positive pattern that denotes at most a quarter of `FS` is an accepted frequency. -/
theorem freqOk_of_small (d : Nat) {f : F32} (hs : f32.sign f.toNat = false) (h0 : 0 < f32.mag f.toNat)
    (hf : f32.mag f.toNat < f32.infMag) (h : f32.magReal (f32.mag f.toNat) ≤ impl.fs / 4) : freqOk impl d f = true := by
  obtain ⟨h1, h2, h3⟩ := halfRate_large (impl.nan32 d)
  have hn : f32.isNan f.toNat = false := by simp [Fmt.isNan, hf.le]
  have hk : f32.key f.toNat = (f32.mag f.toNat : Int) := by simp [Fmt.key, hs]
  have hn2 : f32.isNan (fmul32 (impl.nan32 d) (fs32 impl) half32).toNat = false := by simp [Fmt.isNan, h1]
  have hk2 : f32.key (fmul32 (impl.nan32 d) (fs32 impl) half32).toNat =
      (f32.mag (fmul32 (impl.nan32 d) (fs32 impl) half32).toNat : Int) := by simp [Fmt.key, h2]
  have hlt := h3 _ h
  unfold freqOk flt32 Fmt.lt
  rw [hn, hk, hn2, hk2, show f32.isNan (BitVec.toNat (0 : F32)) = false by decide, show f32.key (BitVec.toNat (0 : F32)) = 0 by decide]
  simp [h0, hlt]

end Sys2Proof.Machine
end

