-- ==== Sys2Proof/Laws/PerInstr.lean ====
section
/-! SUPPORT. Per instruction: the encoded header word is the one of its row of opcode_table.json (R84, R95). -/

namespace Sys2Proof.Laws.TableRow

/-- The `match` and `mask` of a command's row of opcode_table.json. -/
def row : Instr → Word × Word
  | .cfg _ _ _ _ _ => (0x01000000, 0xFFFFFFE0)
  | .pwr _ => (0x02000000, 0xFFFFFFFF)
  | .onext => (0x03000000, 0xFFFFFFFF)
  | .fpush _ => (0x04000000, 0xFFFFFFFF)
  | .step _ _ => (0x05000000, 0xFFFFFFFF)
  | .audw _ _ => (0x06000000, 0xFFFFFFFF)
  | .block => (0x07000000, 0xFFFFFFFF)
  | .stop _ => (0x08000000, 0xFFFFFF00)
  | .rdreg _ => (0x09000000, 0xFFFFFF00)

/-- `(W0 & mask) = match` for the command's own row (R95). -/
def Statement (i : Instr) : Prop := (encode i).w0 &&& (row i).2 = (row i).1

theorem cfg (mode ch : BitVec 2) (firEn : Bool) (arg0 arg1 : F32) : Statement (.cfg mode ch firEn arg0 arg1) :=
  have h : ∀ (m c : BitVec 2) (b : Bool), header 0x01 (cfgSub m c b) &&& 0xFFFFFFE0 = 0x01000000 := by decide
  h mode ch firEn
theorem pwr (arg0 : F32) : Statement (.pwr arg0) := show header 0x02 0 &&& 0xFFFFFFFF = 0x02000000 by decide
theorem onext : Statement .onext := show header 0x03 0 &&& 0xFFFFFFFF = 0x03000000 by decide
theorem fpush (arg0 : F32) : Statement (.fpush arg0) := show header 0x04 0 &&& 0xFFFFFFFF = 0x04000000 by decide
theorem step (arg0 arg1 : F32) : Statement (.step arg0 arg1) := show header 0x05 0 &&& 0xFFFFFFFF = 0x05000000 by decide
theorem audw (arg0 arg1 : F32) : Statement (.audw arg0 arg1) := show header 0x06 0 &&& 0xFFFFFFFF = 0x06000000 by decide
theorem block : Statement .block := show header 0x07 0 &&& 0xFFFFFFFF = 0x07000000 by decide
theorem stop (reason : BitVec 8) : Statement (.stop reason) :=
  have h : ∀ r : BitVec 8, header 0x08 r &&& 0xFFFFFF00 = 0x08000000 := by decide +kernel
  h reason
theorem rdreg (reg : BitVec 8) : Statement (.rdreg reg) :=
  have h : ∀ n : BitVec 8, header 0x09 n &&& 0xFFFFFF00 = 0x09000000 := by decide +kernel
  h reg

end Sys2Proof.Laws.TableRow
end

