-- ==== Sys2Proof/Tests/Slice0.lean ====
section
/-! SUPPORT. Tests against the vectors of 95_test_vectors.md, and a witness for the hypotheses of every statement. -/

namespace Sys2Proof.Tests

-- one theorem at a time: the kernel evaluations side by side would take too much memory
set_option Elab.async false

open Sys2Proof.Machine

/-! ## Well-formedness: each check refuses a term -/

theorem test_wellFormed_ok : (Instr.cfg 2 3 true 0 0).WellFormed = true ∧ (Instr.stop 6).WellFormed = true ∧
    (Instr.rdreg 0x0C).WellFormed = true ∧ Instr.block.WellFormed = true := by decide

theorem test_wellFormed_mode : (Instr.cfg 3 0 false 0 0).WellFormed = false := by decide

theorem test_wellFormed_reason : (Instr.stop 7).WellFormed = false := by decide

theorem test_wellFormed_reg : (Instr.rdreg 0x0D).WellFormed = false := by decide

/-! ## Decoding (V1, words written out from R81 to R87) -/

/-- `OPC` 01, `RSV` 0000, `FIR_EN` 1, `CH` 10, `MODE` 01. -/
theorem test_decode_cfg : decode ⟨0b00000001_0000000000000000_000_1_10_01#32, 0x3F800000, 0x40800000⟩ =
    .ok (.cfg 1 2 true 0x3F800000 0x40800000) := by decide

theorem test_decode_cfg_iq : decode ⟨0b00000001_0000000000000000_000_0_10_10#32, 1, 2⟩ = .ok (.cfg 2 2 false 1 2) := by decide

theorem test_decode_pwr : decode ⟨0b00000010_0000000000000000_00000000#32, 5, 6⟩ = .ok (.pwr 5) := by decide

theorem test_decode_onext : decode ⟨0b00000011_0000000000000000_00000000#32, 5, 6⟩ = .ok .onext := by decide

theorem test_decode_fpush : decode ⟨0b00000100_0000000000000000_00000000#32, 5, 6⟩ = .ok (.fpush 5) := by decide

theorem test_decode_step : decode ⟨0b00000101_0000000000000000_00000000#32, 5, 6⟩ = .ok (.step 5 6) := by decide

theorem test_decode_audw : decode ⟨0b00000110_0000000000000000_00000000#32, 5, 6⟩ = .ok (.audw 5 6) := by decide

theorem test_decode_block : decode ⟨0b00000111_0000000000000000_00000000#32, 5, 6⟩ = .ok .block := by decide

theorem test_decode_stop : decode ⟨0b00001000_0000000000000000_00000110#32, 5, 6⟩ = .ok (.stop 6) := by decide

theorem test_decode_rdreg : decode ⟨0b00001001_0000000000000000_00001100#32, 5, 6⟩ = .ok (.rdreg 0x0C) := by decide

/-- A serialised command is little-endian, `W0` first (R66). -/
theorem test_decode_bytes : decodeBytes [0x05, 0, 0, 0x01, 0, 0, 0x80, 0x3F, 0, 0, 0x80, 0x40, 0xAA] =
    .ok (.cfg 1 1 false 0x3F800000 0x40800000, [0xAA]) := by decide

/-- The illegal words of V1. -/
theorem test_decode_illegal : [0x00000000, 0xFFFFFFFF, 0x0A000000, 0x01000003, 0x01000007, 0x0100000F, 0x0100001F,
    0x01000020, 0x01000100, 0x02000001, 0x03800000, 0x05000100, 0x07000001, 0x08000007, 0x080000FF, 0x0900000D,
    0x09010000].all (fun w => (decodeTableWord 32 w).isNone) = true := by decide

/-! ## States -/

/-- The test parameters of 95_test_vectors.md, section 0, with the reference sine and cosine. -/
def unit : Impl where
  fs        := 8
  tblMax    := 64
  nh        := 2
  blockSize := 6
  abufMax   := 8
  sin64     := sinRef
  cos64     := cosRef
  nan32 _   := 0x7FC00000
  nan64 _   := 0x7FF8000000000000
  cut _     := 0

/-- The next state has a property. -/
def after (r : Result) (p : State → Bool) : Bool :=
  match r with
  | .next t => p t
  | _ => false

/-- A configured core with power written and a given table. -/
def core (mode : Mode) (ch : BitVec 2) (ti tq : List F32) : State :=
  { State.reset with
    cfgv := true, pwrv := true, mode := mode, ch := ch, txp := one32
    tlen := BitVec.ofNat 32 ti.length, ti := Mem.ofList ti, tq := Mem.ofList tq }

/-- A configured core with a table of two entries. -/
def running (mode : Mode) (ch : BitVec 2) : State :=
  core mode ch [0, one32] (if mode = .iq then [one32, 0] else [])

/-- AM from one channel with the filter, every coefficient and history entry zero. -/
def filtering : State :=
  { running .am 1 with
    firen := true, h := Mem.ofList (List.replicate impl.nh 0), hist := Mem.ofList (List.replicate impl.len 0) }

/-- AM from one channel with one frame buffered; the host presents `STOP` next. -/
def buffered : State :=
  { running .am 1 with afill := 1, abuf := [(0, ⟨one32, 0⟩)], inputs := [.command ⟨0x08000000, 0, 0⟩] }

/-- The table of V2 for `f` = 1.0, less its entry 4, which depends on the last bits of `SIN64`. -/
def eighth : List F32 :=
  [0, 0x3F3504F3, 0x3F800000, 0x3F3504F3, 0, 0xBF3504F3, 0xBF800000, 0xBF3504F3]

/-! ## One step on the vectors -/

/-- V2, IQ row `f` = 2.0; V3, ratio 8/4. -/
theorem test_cfg_iq : after (cfgOn unit 2 2 false 0x40000000 0x40800000 State.reset) (fun t =>
    t.tlen == 4 && t.ti.read 0 == some 0x3F800000 && t.ti.read 2 == some 0xBF800000 && t.tq.read 0 == some 0 &&
    t.tq.read 1 == some 0x3F800000 && t.tq.read 3 == some 0xBF800000 && t.ratio == 0x40000000 &&
    t.rsp == [⟨0, 4, 0⟩]) = true := by decide +kernel

/-- V6, first row: the filter built by `CFG AM, 1, 1, 2.0, 4.0`. -/
theorem test_cfg_filter : after (cfgOn unit 1 1 true 0x40000000 0x40800000 State.reset) (fun t =>
    t.fcut == 0x40000000 && t.h == [(0, 0x3E800000), (1, 0x3CD09B8A)] && t.hist == [(0, 0), (1, 0), (2, 0)] &&
    t.ti.read 1 == some 0x3F800000 && t.tq == []) = true := by decide +kernel

/-- V4: 33.0 is rounded. -/
theorem test_pwr_rounds : after (pwrOn unit 0x42040000 State.reset)
    (fun t => t.txp == 0x3EA8F5C3 && t.pwrv && t.rsp == [⟨0, 0x3EA8F5C3, 0⟩]) = true := by decide

/-- V4: the smallest power above 100. -/
theorem test_pwr_rejects : after (pwrOn unit 0x42C80001 State.reset)
    (fun t => t.txp == 0 && !t.pwrv && !t.fault && t.rsp == [⟨1, 0, 0⟩]) = true := by decide

/-- V5: the wrap. -/
theorem test_onext_wraps : after (onextOn unit { core .carrier 0 eighth [] with phase := 7 })
    (fun t => t.phase == 0 && t.rsp == [⟨0, 0xBF3504F3, 0⟩] && t.out == []) = true := by decide

/-- V5: both components in IQ mode. -/
theorem test_onext_iq : after (onextOn unit { core .iq 2 [0x3F800000, 0, 0xBF800000, 0] [0, 0x3F800000, 0, 0xBF800000] with phase := 3 })
    (fun t => t.phase == 0 && t.rsp == [⟨0, 0, 0xBF800000⟩]) = true := by decide

/-- V8: the second push of 1.0. -/
theorem test_fpush_window : after (fpushOn unit 0x3F800000 { running .am 1 with
      firen := true, h := [(0, 0x3E800000), (1, 0x3CD09B8A)], hist := [(0, 0x3F800000), (1, 0), (2, 0)], wr := 1 })
    (fun t => t.wr == 2 && t.hist.read 1 == some 0x3F800000 && t.rsp == [⟨0, 0x3F0684DC, 0⟩]) = true := by decide +kernel

/-- P4: `FPUSH 1.0` after the block, where the cursor wraps. -/
theorem test_fpush_wraps : after (fpushOn unit 0x3F800000 { running .am 1 with
      firen := true, h := [(0, 0x3E800000), (1, 0x3CD09B8A)], hist := [(0, 0xBF800000), (1, 0), (2, 0x3F000000)], wr := 2 })
    (fun t => t.wr == 0 && t.hist.read 2 == some 0x3F800000 && t.rsp == [⟨0, 0, 0⟩] && t.phase == 0) = true := by decide +kernel

/-- P4: `STEP 0.0, 0.0` through the filter, two channels. -/
theorem test_step_filtered : after (stepOn unit 0 0 { core .am 2 eighth [] with
      phase := 5, firen := true, h := [(0, 0x3E800000), (1, 0x3CD09B8A)]
      hist := [(0, 0xBF800000), (1, 0), (2, 0x3F800000)] })
    (fun t => t.out == [0xBF07C3B6] && t.phase == 6 && t.wr == 1) = true := by decide +kernel

/-- P3: `STEP 1.0, -1.0` in IQ mode is over range and not clamped. -/
theorem test_step_iq_over_range : after (stepOn unit 0x3F800000 0xBF800000
      { core .iq 2 [0x3F3504F3, 0] [0xBF3504F3, 0] with phase := 0 })
    (fun t => t.out == [0x3FB504F3] && t.ovr && t.rsp == [⟨0, 0x3FB504F3, 0⟩]) = true := by decide +kernel

/-- V12: the ninth frame finds the buffer full. -/
theorem test_audw_full : after (audwOn unit 0x3F800000 0 { running .am 1 with afill := 8 })
    (fun t => t.afill == 8 && t.fault && t.errcode == 0x18 && t.rsp == [⟨0x18, 0, 0⟩]) = true := by decide

/-- R170: both words are stored, whatever `ch` is. -/
theorem test_audw_stores : after (audwOn unit 0x3F000000 0x7FC00000 buffered)
    (fun t => t.afill == 2 && t.abuf.read 1 == some ⟨0x3F000000, 0x7FC00000⟩ && t.rsp == [⟨0, 2, 0⟩]) = true := by decide

/-- R171: the CARRIER block of the example, six samples from a table of four. -/
theorem test_block_carrier : after (blockOn unit (core .carrier 0 [0, 0x3F800000, 0x250D3132, 0xBF800000] []))
    (fun t => t.out == [0, 0x3F800000, 0x250D3132, 0xBF800000, 0, 0x3F800000] && t.phase == 2 &&
      t.rsp == [⟨0, 6, 0⟩]) = true := by decide +kernel

/-- P2: the AM block at half power, without its samples 4 on. -/
theorem test_block_am : after (blockOn unit { core .am 1 eighth [] with
      txp := 0x3F000000, afill := 4
      abuf := [(0, ⟨0, 0⟩), (1, ⟨0, 0⟩), (2, ⟨0x3F800000, 0⟩), (3, ⟨0x3F000000, 0⟩)] })
    (fun t => t.out == [0, 0x3E3504F3, 0x3F000000, 0x3E87C3B6] && t.afill == 0 && t.abuf == [] && t.phase == 4 &&
      t.rsp == [⟨0, 4, 0⟩]) = true := by decide +kernel

/-- P5: `STOP SeekError` in the fault state. -/
theorem test_stop_clears_fault : after (execStop 4 { State.reset with fault := true, errcode := 0x14, pwrv := true, ovr := true })
    (fun t => !t.fault && t.errcode == 0 && !t.pwrv && !t.ovr && t.exitc == 4 && t.rsp == [⟨0, 0, 0⟩]) = true := by decide

/-- R185: a reason above 6 tears nothing down. -/
theorem test_stop_reserved : after (execStop 9 { State.reset with pwrv := true })
    (fun t => t.pwrv && t.fault && t.errcode == 0x10 && t.exitc == 0) = true := by decide

/-- V13: CTRL of a two-channel AM core with the filter. -/
theorem test_rdreg_ctrl : after (execRdreg 0x01 { running .am 2 with firen := true })
    (fun t => t.rsp == [⟨0, 0x19, 0⟩]) = true := by decide

/-- R41: STATUS with all four flags; R40: POWER reads zero while `pwrv` is clear. -/
theorem test_rdreg_status : after (execRdreg 0x00 { running .am 2 with fault := true, ovr := true })
      (fun t => t.rsp == [⟨0, 0x0F, 0⟩]) = true ∧
    after (execRdreg 0x07 { State.reset with txp := one32 }) (fun t => t.rsp == [⟨0, 0, 0⟩]) = true := by decide

/-- V14: in the fault state an illegal opcode is not decoded, a malformed `STOP` is. -/
theorem test_fault_state : after (runCommand ⟨0x0A000000, 0, 0⟩ { State.reset with fault := true, errcode := 0x11 })
      (fun t => t.errcode == 0x11 && t.rsp == [⟨0x1F, 0, 0⟩]) = true ∧
    after (runCommand ⟨0x08000009, 0, 0⟩ { State.reset with fault := true, errcode := 0x11 })
      (fun t => t.fault && t.errcode == 0x11 && t.rsp == [⟨0x10, 0, 0⟩]) = true := by decide

/-- R231: a block cut short by `rst` leaves no response; here none of its samples. -/
theorem test_reset_cuts_short : cutOff unit (running .carrier 0) { running .carrier 0 with out := [one32], rsp := [⟨0, 1, 0⟩] } =
    { State.reset with draws := 1 } := by decide

/-! ## The states meet the invariants -/

theorem parameters : 2 ≤ impl.tblMax ∧ 2 ≤ impl.nh ∧ 1 ≤ impl.abufMax ∧ impl.len = 2 * impl.nh - 1 ∧ impl.abufMax < 2 ^ 31 :=
  ⟨impl_legal.2.1.1, impl_legal.2.2.1.1, impl_legal.2.2.2.2.1, rfl, impl_legal.2.2.2.2.2⟩

theorem ofList_wf {α : Type} (l : List α) : (Mem.ofList l).wf := Mem.writeFrom_wf l [] 0 Mem.wf_nil

theorem test_inv_running : Inv impl (running .carrier 0) ∧ Inv impl (running .iq 2) := by
  obtain ⟨h1, -⟩ := parameters
  have no {p : Prop} {b : Bool} (hb : b = false) : b = true → p := fun h => by rw [hb] at h; cases h
  have no' {p : Prop} {b : Bool} (hb : b = true) : b = false → p := fun h => by rw [hb] at h; cases h
  refine ⟨⟨⟨ofList_wf _, ofList_wf _, Mem.wf_nil, Mem.wf_nil, Mem.wf_nil⟩, no' rfl, fun _ => ?_, no rfl,
      fun _ => ⟨rfl, rfl, rfl⟩, Nat.zero_le _, writtenBelow_nil, fun h => absurd h (lt_irrefl _), fun _ => rfl, fun _ => by decide⟩,
    ⟨⟨ofList_wf _, ofList_wf _, Mem.wf_nil, Mem.wf_nil, Mem.wf_nil⟩, no' rfl, fun _ => ?_, no rfl,
      fun _ => ⟨rfl, rfl, rfl⟩, Nat.zero_le _, writtenBelow_nil, fun h => absurd h (lt_irrefl _), fun _ => rfl, fun _ => by decide⟩⟩
  · exact ⟨rfl, by decide, h1, by decide, writtenBelow_ofList [0, one32], fun h => (by cases h), fun _ => rfl⟩
  · exact ⟨rfl, by decide, h1, by decide, writtenBelow_ofList [0, one32], fun _ => writtenBelow_ofList [one32, 0],
      fun h => absurd rfl h⟩

theorem test_inv_buffered : Inv impl buffered := by
  obtain ⟨h1, -, h2, -⟩ := parameters
  have hb : WrittenBelow [(0, (⟨one32, 0⟩ : Frame))] 1 := writtenBelow_ofList [(⟨one32, 0⟩ : Frame)]
  exact ⟨⟨ofList_wf _, ofList_wf _, Mem.wf_nil, Mem.wf_nil, ofList_wf [(⟨one32, 0⟩ : Frame)]⟩, fun h => (by cases h),
    fun _ => ⟨rfl, by decide, h1, by decide, writtenBelow_ofList [0, one32], fun h => (by cases h), fun _ => rfl⟩,
    fun h => (by cases h), fun _ => ⟨rfl, rfl, rfl⟩, h2, hb, fun _ h => (by cases h), fun _ => rfl, fun _ => by decide⟩

theorem holds_replicate (n : Nat) (v : F32) : Holds (Mem.ofList (List.replicate n v)) (List.replicate n v) :=
  fun i _ => Mem.read_ofList _ i

theorem test_filterHolds : FilterHolds impl filtering (List.replicate impl.nh 0) (List.replicate impl.len 0) := by
  obtain ⟨-, h1, -, h2, -⟩ := parameters
  have h0 : filtering.wr.toNat = 0 := rfl
  refine ⟨by simp, holds_replicate _ _, ⟨by simp, fun j hj => ?_⟩, by rw [h0]; omega⟩
  rw [h0, Nat.zero_add, Nat.mod_eq_of_lt hj]
  exact Mem.read_ofList _ _

theorem test_inv_filtering : Inv impl filtering := by
  obtain ⟨h1, h2, -, h3, -⟩ := parameters
  have hh : WrittenBelow filtering.h impl.nh := by
    have h := writtenBelow_ofList (List.replicate impl.nh (0 : F32))
    rwa [List.length_replicate] at h
  have hx : WrittenBelow filtering.hist impl.len := by
    have h := writtenBelow_ofList (List.replicate impl.len (0 : F32))
    rwa [List.length_replicate] at h
  exact ⟨⟨ofList_wf _, ofList_wf _, ofList_wf _, ofList_wf _, Mem.wf_nil⟩, fun h => (by cases h),
    fun _ => ⟨rfl, by decide, h1, by decide, writtenBelow_ofList [0, one32], fun h => (by cases h), fun _ => rfl⟩,
    fun _ => ⟨rfl, rfl, hh, hx, show (0 : Nat) < impl.len by omega⟩, fun h => (by cases h), Nat.zero_le _,
    writtenBelow_nil, fun h => absurd h (lt_irrefl _), fun _ => rfl, fun _ => by decide⟩

theorem test_ready : Ready (running .carrier 0) ∧ Ready (running .am 2) ∧ Ready (running .iq 2) ∧ Ready filtering ∧ Ready buffered :=
  ⟨⟨rfl, rfl, rfl⟩, ⟨rfl, rfl, rfl⟩, ⟨rfl, rfl, rfl⟩, ⟨rfl, rfl, rfl⟩, ⟨rfl, rfl, rfl⟩⟩

theorem test_phaseInside (mode : Mode) (ch : BitVec 2) :
    PhaseInside impl (running mode ch) ∧ (running mode ch).ti.read 0 = some 0 :=
  ⟨⟨show 2 ≤ impl.tblMax from parameters.1, show (0 : Nat) < 2 by decide⟩, rfl⟩

/-! ## Witnesses for the other hypotheses, named after the statements -/

theorem test_witness_EncodeDecode : decode ⟨0x08000006, 1, 2⟩ = .ok (.stop 6) := by decide

theorem test_witness_IllegalWords : IllegalWord 0x0A000000 ∧ IllegalWord 0x01000100 ∧ IllegalWord 0x07000001 ∧
    IllegalWord 0x01000020 ∧ IllegalWord 0x01000003 ∧ IllegalWord 0x08000007 ∧ IllegalWord 0x0900000D ∧
    ¬IllegalWord 0x08000006 ∧ ¬IllegalWord 0x0900000C ∧ ¬IllegalWord 0x0100001E ∧ State.reset.fault = false := by
  norm_num [IllegalWord, State.reset]

theorem test_witness_IgnoredWords : 0x07000000 / 2 ^ 24 ∈ [0x03, 0x07, 0x08, 0x09] ∧ 0x04000000 / 2 ^ 24 ∈ [0x02, 0x04] ∧
    0x0100001C / 2 ^ 24 = 0x01 ∧ 0x0100001C % 4 = 0 ∧ 0x05000000 / 2 ^ 24 = 0x05 ∧ (running .carrier 0).mode = .carrier ∧
    (running .am 1).mode = .am ∧ (running .am 1).ch = 1 := by decide

theorem test_witness_StepRunsCommand : (State.reset.withFetchWord 32 0x03000000).inputs = .command ⟨0x03000000, 0, 0⟩ :: [] ∧
    decode ⟨0x03000000, 0, 0⟩ = .ok .onext := by decide

theorem test_witness_HardwareReset : ∃ t u, step { buffered with inputs := [.cutShort ⟨0x08000000, 0, 0⟩] } = .next t ∧
    runCommand ⟨0x08000000, 0, 0⟩ { buffered with inputs := [] } = .next u ∧ ({ buffered with inputs := [.rst] }).inputs = .rst :: [] :=
  ⟨_, _, rfl, rfl, rfl⟩

/-- Also for NeverStuck. -/
theorem test_witness_InvKept : ∃ t, Inv impl buffered ∧ step buffered = .next t := ⟨_, test_inv_buffered, rfl⟩

theorem thirdHit_lowest (d : Nat) : ThirdHit impl d 0x00000001#32 2 := by
  refine ⟨isHit_lowest d 2 (by omega), ?_⟩
  have h0 : hitAt impl d 0x00000001#32 0 = true := isHit_lowest d 0 (by omega)
  have h1 : hitAt impl d 0x00000001#32 1 = true := isHit_lowest d 1 (by omega)
  rw [show List.range 2 = [0, 1] by decide]
  simp [h0, h1]

theorem freqOk_lowest (d : Nat) : freqOk impl d 0x00000001#32 = true := by
  refine freqOk_of_small d (by decide) (by decide) (by decide) ?_
  have h := two_le_fs
  have : f32.magReal (f32.mag (0x00000001#32).toNat) = (1 : ℝ) * (2 : ℝ) ^ (-149 : Int) := by
    rw [Fmt.magReal, show f32.magVal (f32.mag (0x00000001#32).toNat) = (1, -149) by decide]; norm_num
  rw [this]
  have h2 : (1 : ℝ) * (2 : ℝ) ^ (-149 : Int) ≤ 1 / 2 := by norm_num
  linarith

theorem test_witness_CfgCompletes : State.reset.fault = false ∧ State.reset.cfgv = false ∧
    (modeCode .am, (2 : BitVec 2), true) ∈ legalCombos ∧
    flt32 0 0x00000001#32 = true ∧
    flt32 0x00000001#32 (fmul32 (impl.nan32 State.reset.draws) (fs32 impl) half32) = true ∧
    (∃ n m, n = impl.nan64 State.reset.draws ∧ m = impl.nan32 State.reset.draws) ∧
    flt32 0 0x40800000#32 = true ∧ flt32 0x40800000#32 inf32 = true ∧ ThirdHit impl State.reset.draws 0x00000001#32 2 ∧
    2 ≤ impl.tblMax :=
  ⟨rfl, rfl, by decide, by decide,
    (Bool.and_eq_true_iff.1 (freqOk_lowest State.reset.draws)).2, ⟨_, _, rfl, rfl⟩, by decide, by decide, thirdHit_lowest _, parameters.1⟩

/-- Both sides of LegalCombinations. -/
theorem test_witness_LegalCombinations : State.reset.fault = false ∧ State.reset.cfgv = false ∧ (2 : BitVec 2) ≠ 3 ∧
    ((2 : BitVec 2), (2 : BitVec 2), true) ∉ legalCombos ∧ ((2 : BitVec 2), (2 : BitVec 2), false) ∈ legalCombos := by decide

theorem real_lowest : finite32 0x00000001#32 = true ∧ 0 < real32 0x00000001#32 ∧ real32 0x00000001#32 < (impl.fs : ℝ) / 2 := by
  have h : real32 0x00000001#32 = (2 : ℝ) ^ (-149 : Int) := by
    rw [real32, Fmt.real, show f32.unpack (0x00000001#32).toNat = .fin false 1 (-149) by decide]
    simp [FVal.real]
  have h2 := two_le_fs
  have h3 : (2 : ℝ) ^ (-149 : Int) < 1 / 2 := by norm_num
  rw [h]
  exact ⟨by decide, by positivity, by linarith⟩

/-- Clause by clause: configured; frequency zero, infinite, NaN; rate zero behind an accepted frequency. -/
theorem test_witness_CfgFaults : (running .carrier 0).fault = false ∧ (running .carrier 0).cfgv = true ∧
    finite32 0x7F800000#32 = false ∧ finite32 0x7FC00000#32 = false ∧ ¬(0 < real32 0) ∧
    ((1 : BitVec 2), (1 : BitVec 2), false) ∈ legalCombos ∧
    finite32 0x00000001#32 = true ∧ 0 < real32 0x00000001#32 ∧ real32 0x00000001#32 < (impl.fs : ℝ) / 2 := by
  have h : real32 0 = 0 := by
    rw [real32, Fmt.real, show f32.unpack (BitVec.toNat (0 : F32)) = .fin false 0 (-149) by decide]; simp [FVal.real]
  exact ⟨rfl, rfl, by decide, by decide, by rw [h]; exact lt_irrefl _, by decide, real_lowest⟩

/-- V3: with `TBL_MAX = 7` and `f` = 1.0 the hits are 0 and 4. -/
theorem test_witness_TableOverflow : freqOk unit State.reset.draws 0x3F800000 = true ∧
    ∀ K ≤ 7, ¬ThirdHit { unit with tblMax := 7 } State.reset.draws 0x3F800000 K := by
  have hh : ∀ K, K < 8 → hitAt { unit with tblMax := 7 } 0 0x3F800000 K = (K == 0 || K == 4) := by
    have : ((List.range 8).all fun K => hitAt { unit with tblMax := 7 } 0 0x3F800000 K == (K == 0 || K == 4)) = true := by
      decide +kernel
    intro K hK
    simpa using List.all_eq_true.1 this K (List.mem_range.2 hK)
  refine ⟨by decide +kernel, fun K hK h => ?_⟩
  have hlen : ((List.range K).filter (fun k => k == 0 || k == 4)).length = 2 := by
    rw [← h.before]
    congr 1
    exact List.filter_congr fun k hk => (hh k (by have := List.mem_range.1 hk; omega)).symm
  have hhit := h.hit
  rw [show State.reset.draws = 0 from rfl, hh K (by omega)] at hhit
  have hall : ((List.range 8).all fun K => !(K == 0 || K == 4) ||
    ((List.range K).filter (fun k => k == 0 || k == 4)).length != 2) = true := by decide
  have := List.all_eq_true.1 hall K (List.mem_range.2 (by omega))
  simp [hhit, hlen] at this

/-- An accepted `CFG` on the hardware, for TableStart. -/
theorem test_witness_TableStart : ∃ t, exec (.cfg 0 0 false 0x00000001 0) State.reset = .next t ∧ t.fault = false := by
  have hb : buildTable impl State.reset.draws .carrier 0x00000001#32 =
      some [tableEntry impl State.reset.draws .carrier 0x00000001#32 0, tableEntry impl State.reset.draws .carrier 0x00000001#32 1] := by
    obtain ⟨n, hn⟩ : ∃ n, impl.tblMax = n + 2 := ⟨impl.tblMax - 2, by have := parameters.1; omega⟩
    have h (k : Nat) (hk : k ≤ 2) : isHit (impl.sin64 (theta impl State.reset.draws 0x00000001#32 k)) = true :=
      isHit_lowest _ k hk
    unfold buildTable
    rw [hn]
    simp only [tableFrom]
    unfold tableFrom
    simp [h]
  suffices h : cfgOn impl 0 0 false 0x00000001#32 0 State.reset = .next (respondOk 2 0 (commit impl .carrier 0 false 0x00000001#32 0
      [tableEntry impl State.reset.draws .carrier 0x00000001#32 0, tableEntry impl State.reset.draws .carrier 0x00000001#32 1]
      State.reset)) from ⟨_, h, rfl⟩
  unfold cfgOn
  rw [unlessFaulted_live rfl]
  simp only [show modeOf 0 = some Mode.carrier by decide, show legalCombo .carrier 0 false = true by decide, freqOk_lowest, hb]
  rfl

/-- The test parameters with another rate and another table memory. -/
def unitWith (fs tblMax : Nat) : Impl := { unit with fs := fs, tblMax := tblMax }

theorem unitWith_numerics (fs tblMax : Nat) : NumericsOk (unitWith fs tblMax) := ref_numerics

/-- Even `q` (2.0 of 8, 1/4) with the table inside and outside its memory, and odd `q` (3.0 of 9, 1/3). -/
theorem test_witness_TableSpansWholeCycles :
    (unitWith 8 64).Legal ∧ (unitWith 8 3).Legal ∧ (unitWith 9 64).Legal ∧ NumericsOk (unitWith 8 64) ∧
    freqOk (unitWith 8 64) 0 0x40000000 = true ∧ real32 0x40000000#32 * (4 : Nat) = (1 : Nat) * ((unitWith 8 64).fs : ℝ) ∧
    freqOk (unitWith 9 64) 0 0x40400000 = true ∧ real32 0x40400000#32 * (3 : Nat) = (1 : Nat) * ((unitWith 9 64).fs : ℝ) ∧
    Nat.Coprime 1 4 ∧ Nat.Coprime 1 3 ∧ (4 = if 4 % 2 = 0 then 4 else 2 * 4) ∧ (6 = if 3 % 2 = 0 then 3 else 2 * 3) ∧
    4 ≤ (unitWith 8 64).tblMax ∧ (unitWith 8 3).tblMax < 4 ∧ 6 ≤ (unitWith 9 64).tblMax ∧
    ((1 : BitVec 2), (1 : BitVec 2), true) ∈ legalCombos ∧ rateOk 0x40800000 = true := by
  have h2 : real32 0x40000000#32 = 2 := by
    rw [real32, Fmt.real, show f32.unpack (0x40000000#32).toNat = .fin false (2 ^ 23) (-22) by decide]
    simp [FVal.real]
    norm_num
  have h3 : real32 0x40400000#32 = 3 := by
    rw [real32, Fmt.real, show f32.unpack (0x40400000#32).toNat = .fin false (3 * 2 ^ 22) (-22) by decide]
    simp [FVal.real]
    norm_num
  rw [h2, h3]
  refine ⟨?_, ?_, ?_, unitWith_numerics _ _, by decide, ?_, by decide, ?_, by decide, by decide, rfl, rfl, by decide, by decide,
    by decide, by decide, by decide⟩ <;> norm_num [Impl.Legal, unitWith, unit]

/-- Both ends of the range, and a NaN outside it. -/
theorem test_witness_Pwr : fle32 0 0x80000000#32 = true ∧ fle32 0x80000000#32 hundred32 = true ∧ fle32 0 hundred32 = true ∧
    fle32 hundred32 hundred32 = true ∧ ¬(fle32 0 0x7FC00000#32 = true) ∧ ¬(fle32 0x42C80001#32 hundred32 = true) := by decide

theorem test_witness_OnextCompletes : (running .iq 2).fault = false ∧ (running .iq 2).cfgv = true ∧
    PhaseInside impl (running .iq 2) ∧ (running .iq 2).ti.read (running .iq 2).phase.toNat = some 0 ∧
    (running .iq 2).tq.read (running .iq 2).phase.toNat = some one32 := ⟨rfl, rfl, (test_phaseInside _ _).1, rfl, rfl⟩

/-- For FpushCompletes, HistoryHoldsRecent and StepAmFiltered, with test_filterHolds. -/
theorem test_witness_Filter : filtering.fault = false ∧ filtering.cfgv = true ∧ filtering.firen = true ∧
    filtering.mode = .am ∧ filtering.ch = 1 ∧ filtering.ti.read filtering.phase.toNat = some 0 ∧ PhaseInside impl filtering :=
  ⟨rfl, rfl, rfl, rfl, rfl, rfl, ⟨(test_phaseInside .am 1).1.1, (test_phaseInside .am 1).1.2⟩⟩

theorem real_one : real32 one32 = 1 := by
  rw [real32, Fmt.real, show f32.unpack one32.toNat = .fin false (2 ^ 23) (-23) by decide]
  simp [FVal.real]
  norm_num

theorem test_witness_DcSteadyState : finite32 one32 = true ∧ |2 * real32 one32| < f32.overflowAt ∧ impl.len ≤ impl.len + 1 := by
  refine ⟨by decide, ?_, by omega⟩
  rw [real_one, Fmt.overflowAt, show f32.emin + ((2 ^ f32.eb : Nat) : Int) - 4 = 103 by decide]
  norm_num [f32]

/-- For StepCarrier, StepAm and StepIq, with test_ready and test_phaseInside. -/
theorem test_witness_Step : (running .am 2).mode = .am ∧ (running .am 2).ch = 2 ∧ (running .am 2).firen = false ∧
    (running .carrier 0).mode = .carrier ∧ (running .iq 2).mode = .iq ∧ (running .iq 2).tq.read 0 = some one32 := by decide

theorem test_witness_ExactIdentities : finite32 one32 = true ∧ (2 : ℝ) ^ (-125 : ℤ) ≤ |real32 one32| ∧ real32 0 = 0 ∧
    fle32 0 one32 = true ∧ fle32 one32 one32 = true ∧ one32 &&& 0x7FFFFFFF#32 ≠ 0 := by
  have h : real32 0 = 0 := by
    rw [real32, Fmt.real, show f32.unpack (BitVec.toNat (0 : F32)) = .fin false 0 (-149) by decide]; simp [FVal.real]
  refine ⟨by decide, ?_, h, by decide, by decide, by decide⟩
  rw [real_one]
  norm_num

theorem test_witness_AudwCompletes : (running .am 1).fault = false ∧ (running .am 1).cfgv = true ∧
    (running .am 1).mode ≠ .carrier ∧ (running .am 1).afill.toNat < impl.abufMax :=
  ⟨rfl, rfl, by decide, show (0 : Nat) < impl.abufMax from parameters.2.2.1⟩

theorem test_witness_BlockCarrier : [(0 : F32), one32].length = (running .carrier 0).tlen.toNat ∧
    Holds (running .carrier 0).ti [0, one32] := ⟨by decide, fun i _ => Mem.read_ofList [0, one32] i⟩

/-- With test_inv_buffered and test_ready. -/
theorem test_witness_BlockIsSteps : buffered.mode ≠ .carrier ∧ [(⟨one32, 0⟩ : Frame)].length = buffered.afill.toNat ∧
    Holds buffered.abuf [⟨one32, 0⟩] := ⟨by decide, by decide, fun i _ => Mem.read_ofList [(⟨one32, 0⟩ : Frame)] i⟩

theorem test_witness_StopCompletes : (6 : BitVec 8) ≤ 0x06 := by decide

theorem test_witness_RdregCompletes : (0x0B : Word).toNat = (1 : Nat) + 2 * 1 + 4 * 0 + 8 * 1 ∧
    (0x19 : Word).toNat = 1 + 4 * (2 : BitVec 2).toNat + 16 * 1 := by decide

/-- Clause by clause, the last at the full buffer. -/
theorem test_witness_CommandFaults : State.reset.fault = false ∧ State.reset.cfgv = false ∧ (running .am 1).firen = false ∧
    ({ running .am 1 with pwrv := false }).pwrv = false ∧ (running .carrier 0).mode = .carrier ∧ (running .am 1).mode ≠ .carrier ∧
    ({ running .am 1 with afill := BitVec.ofNat 32 impl.abufMax }).afill.toNat = impl.abufMax := by
  refine ⟨rfl, rfl, rfl, rfl, rfl, by decide, ?_⟩
  show (BitVec.ofNat 32 impl.abufMax).toNat = impl.abufMax
  have := parameters.2.2.2.2
  rw [BitVec.toNat_ofNat, Nat.mod_eq_of_lt (by omega)]

theorem test_witness_FaultState : ({ State.reset with fault := true }).fault = true ∧
    (0x0A000000 : Word).toNat / 2 ^ 24 ≠ 0x08 ∧ (0x0A000000 : Word).toNat / 2 ^ 24 ≠ 0x09 ∧
    (0x08000009 : Word).toNat / 2 ^ 24 = 0x08 ∧ IllegalWord (0x08000009 : Word).toNat := by
  refine ⟨rfl, by decide, by decide, by decide, ?_⟩
  rw [show (0x08000009 : Word).toNat = 0x08000009 by decide]
  norm_num [IllegalWord]

theorem test_witness_FaultSticky : ∃ t, step { State.reset with fault := true, inputs := [.command ⟨0x05000000, 0, 0⟩] } = .next t :=
  ⟨_, rfl⟩

/-- For ResponseCodes, OnlyStepAndBlockEmit, OverRangeWarning and RegisterWriters: a `STEP` that sends a sample. -/
theorem test_witness_Emits : ∃ t, runCommand ⟨0x05000000, 0, 0⟩ (running .carrier 0) = .next t ∧
    exec (.step 0 0) (running .carrier 0) = .next t ∧ (∀ r, Instr.step 0 0 ≠ .stop r) := by
  have hs : exec (.step 0 0) (running .carrier 0) = .next (respondOk (fmul32 (impl.nan32 0) 0 one32) 0
      (emit (fmul32 (impl.nan32 0) 0 one32) (noteRange (fmul32 (impl.nan32 0) 0 one32) (advance (skip 1 (running .carrier 0)))))) := by
    show execStep 0 0 (running .carrier 0) = _
    have hr : readTi impl (running .carrier 0) = .ok 0 :=
      readEntry_ok.2 ⟨show (0 : Nat) < impl.tblMax by have := parameters.1; omega, rfl⟩
    unfold execStep stepOn sample
    rw [hr]
    rfl
  exact ⟨_, hs, hs, fun r h => by cases h⟩

/-- RegisterWriters, the clauses on `fault`, `errcode` and `ovr`: the responses `REJ` and `E_FAULTED`, and a fault entry, which the first of them leaves out. -/
theorem test_witness_RegisterWriters : (∃ t, exec (.pwr 0x7FC00000) State.reset = .next t ∧ t.rsp = State.reset.rsp ++ [⟨0x01, 0, 0⟩]) ∧
    (∃ t, exec .onext { State.reset with fault := true } = .next t ∧ t.rsp = State.reset.rsp ++ [⟨0x1F, 0, 0⟩]) ∧
    (∃ t, exec .onext State.reset = .next t ∧ t.rsp = State.reset.rsp ++ [⟨0x11, 0, 0⟩] ∧ t.fault = true) :=
  ⟨⟨_, rfl, rfl⟩, ⟨_, rfl, rfl⟩, ⟨_, rfl, rfl, rfl⟩⟩

/-- For AddRounds, MulRounds, DivRounds in both formats, Conversions, NanResults and the finite clauses of Comparisons. -/
theorem test_witness_Arithmetic : f32.finite one32.toNat = true ∧ f32.real one32.toNat + f32.real one32.toNat ≠ 0 ∧
    f32.real one32.toNat * f32.real one32.toNat ≠ 0 ∧ finite32 one32 = true ∧ finite64 0x3FF0000000000000#64 = true ∧
    real64 0x3FF0000000000000#64 ≠ 0 ∧
    f64.finite (0x3FF0000000000000#64).toNat = true ∧
    f64.real (0x3FF0000000000000#64).toNat + f64.real (0x3FF0000000000000#64).toNat ≠ 0 ∧
    f64.real (0x3FF0000000000000#64).toNat * f64.real (0x3FF0000000000000#64).toNat ≠ 0 ∧
    QuietNan 0xFFC00001#32 ∧ isNan32 0xFFC00001#32 = true := by
  have h : f32.real one32.toNat = 1 := real_one
  have h' : f64.real (0x3FF0000000000000#64).toNat = 1 := real64_one
  rw [h, h', real64_one]
  exact ⟨by decide, by norm_num, by norm_num, by decide, by decide, by norm_num, by decide, by norm_num, by norm_num,
    by unfold QuietNan; decide, by decide⟩

/-- A quiet and a signalling NaN of each format, and the infinities and zeros that are none. -/
theorem test_witness_Comparisons : NanPattern32 0x7FC00000 ∧ NanPattern32 0xFF800001 ∧ NanPattern64 0x7FF8000000000000 ∧
    NanPattern64 0xFFF0000000000001 ∧ ¬NanPattern32 0x7F800000 ∧ ¬NanPattern32 0xFF800000 ∧ ¬NanPattern32 0x80000000 ∧
    ¬NanPattern64 0x7FF0000000000000 ∧ ¬NanPattern64 0xFFF0000000000000 := by
  unfold NanPattern32 NanPattern64
  decide

/-- V10: an infinity of either sign is above 1 in magnitude, a NaN is not. -/
theorem test_overRange_infinite : flt32 one32 (fabs32 0x7F800000) = true ∧ flt32 one32 (fabs32 0xFF800000) = true ∧
    flt32 one32 (fabs32 0x7FC00000) = false := by decide

/-- A finite number other than zero, its negation, and a zero; what the statement says of them on the patterns. -/
theorem test_witness_SpecialOperands : f32.finite one32.toNat = true ∧ f32.finite 0x80000000 = true ∧
    f32.real one32.toNat ≠ 0 ∧ f32.finite 0xBF800000 = true ∧ f32.real 0xBF800000 = -f32.real one32.toNat ∧
    fadd32 0 one32 0xBF800000 = 0 ∧ fmul32 0 0x80000000 one32 = 0x80000000 ∧ fadd32 0 0xFF800000 one32 = 0xFF800000 := by
  have h : f32.real one32.toNat = 1 := real_one
  have h' : f32.real 0xBF800000 = -1 := by
    rw [Fmt.real, show f32.unpack 0xBF800000 = .fin true (2 ^ 23) (-23) by decide]
    simp [FVal.real]
    norm_num
  rw [h, h']
  exact ⟨by decide, by decide, by norm_num, by decide, rfl, by decide, by decide, by decide⟩

end Sys2Proof.Tests
end

section
/-! SUPPORT. What the operations of a format answer: the NaN they are given, or a pattern that is none (R12). -/

namespace Sys2Proof.Machine

/-! ## A result is the NaN given or no NaN -/

/-- What an operation of `F` that is given the NaN `nan` can answer. -/
inductive Fmt.Answer (F : Fmt) (nan : Nat) : Nat → Prop
  | nan : F.Answer nan nan
  | number (neg : Bool) {n : Nat} (h : n ≤ F.infMag) : F.Answer nan (F.pack neg n)

variable {F G : Fmt} {nan a b r : Nat} {neg s t : Bool} {m k : Nat} {e g : Int}

theorem Fmt.Answer.infinity (neg : Bool) : F.Answer nan (F.pack neg F.infMag) := .number neg le_rfl

theorem Fmt.Answer.rounded (neg : Bool) (m : Nat) (e : Int) : F.Answer nan (F.pack neg (F.roundMag m e)) :=
  .number neg (F.roundMag_le m e)

theorem Fmt.Answer.roundInt (neg : Bool) (x e : Int) : F.Answer nan (F.roundInt neg x e) := by
  unfold Fmt.roundInt
  split_ifs
  · exact .number _ (Nat.zero_le _)
  · exact .rounded _ _ _

theorem Fmt.add_answer (F : Fmt) (nan a b : Nat) : F.Answer nan (F.add nan a b) := by
  unfold Fmt.add
  split
  · exact .nan
  · exact .nan
  · split_ifs
    · exact .infinity _
    · exact .nan
  · exact .infinity _
  · exact .infinity _
  · exact .roundInt _ _ _

theorem Fmt.mul_answer (F : Fmt) (nan a b : Nat) : F.Answer nan (F.mul nan a b) := by
  unfold Fmt.mul
  split
  · exact .nan
  · exact .nan
  · exact .infinity _
  · split_ifs
    · exact .nan
    · exact .infinity _
  · split_ifs
    · exact .nan
    · exact .infinity _
  · exact .rounded _ _ _

theorem Fmt.div_answer (F : Fmt) (nan a b : Nat) : F.Answer nan (F.div nan a b) := by
  unfold Fmt.div
  split
  · exact .nan
  · exact .nan
  · exact .nan
  · exact .infinity _
  · exact .number _ (Nat.zero_le _)
  · split_ifs
    · exact .nan
    · exact .infinity _
    · exact .rounded _ _ _

theorem Fmt.convert_answer (F G : Fmt) (nan a : Nat) : G.Answer nan (F.convert G nan a) := by
  unfold Fmt.convert
  split
  · exact .nan
  · exact .infinity _
  · exact .rounded _ _ _

theorem Fmt.Answer.lt (h : F.Answer nan r) (hn : nan < 2 ^ (F.eb + F.fb + 1)) : r < 2 ^ (F.eb + F.fb + 1) := by
  cases h with
  | nan => exact hn
  | number neg h => exact F.pack_lt neg (h.trans_lt F.infMag_lt)

theorem Fmt.Answer.eq_of_isNan (h : F.Answer nan r) (hr : F.isNan r = true) : r = nan := by
  cases h with
  | nan => rfl
  | number neg h =>
    rw [Fmt.isNan, F.mag_pack neg (h.trans_lt F.infMag_lt), decide_eq_true_eq] at hr
    exact absurd hr h.not_gt

/-! ## The primitives on patterns -/

theorem Fmt.Answer.toNat_ofNat32 {n : F32} (h : f32.Answer n.toNat r) : (BitVec.ofNat 32 r).toNat = r :=
  (BitVec.toNat_ofNat r 32).trans (Nat.mod_eq_of_lt (h.lt n.isLt))

theorem Fmt.Answer.toNat_ofNat64 {n : F64} (h : f64.Answer n.toNat r) : (BitVec.ofNat 64 r).toNat = r :=
  (BitVec.toNat_ofNat r 64).trans (Nat.mod_eq_of_lt (h.lt n.isLt))

theorem toNat_fadd32 (n a b : F32) : (fadd32 n a b).toNat = f32.add n.toNat a.toNat b.toNat :=
  (f32.add_answer ..).toNat_ofNat32
theorem toNat_fmul32 (n a b : F32) : (fmul32 n a b).toNat = f32.mul n.toNat a.toNat b.toNat :=
  (f32.mul_answer ..).toNat_ofNat32
theorem toNat_fdiv32 (n a b : F32) : (fdiv32 n a b).toNat = f32.div n.toNat a.toNat b.toNat :=
  (f32.div_answer ..).toNat_ofNat32
theorem toNat_fadd64 (n a b : F64) : (fadd64 n a b).toNat = f64.add n.toNat a.toNat b.toNat :=
  (f64.add_answer ..).toNat_ofNat64
theorem toNat_fmul64 (n a b : F64) : (fmul64 n a b).toNat = f64.mul n.toNat a.toNat b.toNat :=
  (f64.mul_answer ..).toNat_ofNat64
theorem toNat_fdiv64 (n a b : F64) : (fdiv64 n a b).toNat = f64.div n.toNat a.toNat b.toNat :=
  (f64.div_answer ..).toNat_ofNat64
theorem toNat_cvt64to32 (n : F32) (a : F64) : (cvt64to32 n a).toNat = f64.convert f32 n.toNat a.toNat :=
  (f64.convert_answer ..).toNat_ofNat32
theorem toNat_cvt32to64 (n : F64) (a : F32) : (cvt32to64 n a).toNat = f32.convert f64 n.toNat a.toNat :=
  (f32.convert_answer ..).toNat_ofNat64

/-- Settles O49: no result has a bit above its format. -/
theorem primitivesOnPatterns : Obligations.PrimitivesOnPatterns :=
  ⟨fun n a b => ⟨toNat_fadd32 n a b, toNat_fmul32 n a b, toNat_fdiv32 n a b⟩,
    fun n a b => ⟨toNat_fadd64 n a b, toNat_fmul64 n a b, toNat_fdiv64 n a b⟩,
    toNat_cvt64to32, toNat_cvt32to64⟩

/-! ## NaN operands and results -/

theorem Fmt.unpack_of_isNan (h : F.isNan a = true) : F.unpack a = .nan := by
  have h : F.infMag < F.mag a := by simpa [Fmt.isNan] using h
  rw [Fmt.unpack, if_neg h.not_gt, if_neg h.ne']

theorem Fmt.add_nan (h : F.isNan a = true ∨ F.isNan b = true) : F.add nan a b = nan := by
  rcases h with h | h
  · rw [Fmt.add, F.unpack_of_isNan h]
  · rw [Fmt.add, F.unpack_of_isNan h]
    cases F.unpack a <;> rfl

theorem Fmt.mul_nan (h : F.isNan a = true ∨ F.isNan b = true) : F.mul nan a b = nan := by
  rcases h with h | h
  · rw [Fmt.mul, F.unpack_of_isNan h]
  · rw [Fmt.mul, F.unpack_of_isNan h]
    cases F.unpack a <;> rfl

theorem Fmt.div_nan (h : F.isNan a = true ∨ F.isNan b = true) : F.div nan a b = nan := by
  rcases h with h | h
  · rw [Fmt.div, F.unpack_of_isNan h]
  · rw [Fmt.div, F.unpack_of_isNan h]
    cases F.unpack a <;> rfl

theorem quietNan_quiet32 (p : F32) : QuietNan (quiet32 p) := by
  unfold QuietNan quiet32
  ext i
  simp only [BitVec.getElem_and, BitVec.getElem_or]
  cases p[i] <;> simp

/-- A binary32 result that is a NaN is the NaN given. -/
theorem eq_of_isNan32 {n x : F32} (hx : f32.Answer n.toNat x.toNat) (h : isNan32 x = true) : x = n :=
  BitVec.eq_of_toNat_eq (hx.eq_of_isNan h)

/-- Settles O48, by what each operation can answer. -/
theorem nanResults : Obligations.NanResults := by
  refine ⟨fun k => quietNan_quiet32 _, fun n a b => ⟨?_, ?_, ?_, fun h => ⟨?_, ?_, ?_⟩⟩⟩
  · exact eq_of_isNan32 (toNat_fadd32 n a b ▸ f32.add_answer ..)
  · exact eq_of_isNan32 (toNat_fmul32 n a b ▸ f32.mul_answer ..)
  · exact eq_of_isNan32 (toNat_fdiv32 n a b ▸ f32.div_answer ..)
  · exact BitVec.eq_of_toNat_eq ((toNat_fadd32 n a b).trans (Fmt.add_nan h))
  · exact BitVec.eq_of_toNat_eq ((toNat_fmul32 n a b).trans (Fmt.mul_nan h))
  · exact BitVec.eq_of_toNat_eq ((toNat_fdiv32 n a b).trans (Fmt.div_nan h))

end Sys2Proof.Machine
end

section
/-! SUPPORT. The order of patterns is the order of the numbers they denote, the infinities among them. -/

namespace Sys2Proof.Machine

variable {F : Fmt} {a b : Nat}

/-! ## The key of a pattern -/

theorem Fmt.isNan_eq_false : F.isNan a = false ↔ F.mag a ≤ F.infMag := by
  simp [Fmt.isNan]

theorem Fmt.natAbs_key (F : Fmt) (a : Nat) : (F.key a).natAbs = F.mag a := by
  unfold Fmt.key
  split_ifs <;> simp

/-- What a key denotes when it is below the infinities. -/
noncomputable def Fmt.keyReal (F : Fmt) (k : Int) : ℝ := if k < 0 then -F.magReal k.natAbs else F.magReal k.natAbs

theorem Fmt.keyReal_neg (F : Fmt) (k : Int) : F.keyReal (-k) = -F.keyReal k := by
  unfold Fmt.keyReal
  rw [Int.natAbs_neg]
  rcases lt_trichotomy k 0 with h | rfl | h
  · rw [if_neg (by omega), if_pos h, neg_neg]
  · simp [F.magReal_zero]
  · rw [if_pos (by omega), if_neg (by omega)]

theorem Fmt.keyReal_natCast (F : Fmt) (n : Nat) : F.keyReal n = F.magReal n := by
  rw [Fmt.keyReal, if_neg (by omega), Int.natAbs_natCast]

theorem Fmt.keyReal_strictMono (F : Fmt) : StrictMono F.keyReal := by
  refine strictMono_of_odd_strictMonoOn_nonneg F.keyReal_neg fun i hi j hj hij => ?_
  rw [Set.mem_Ici] at hi hj
  lift i to Nat using hi
  lift j to Nat using hj
  rw [F.keyReal_natCast, F.keyReal_natCast]
  exact F.magReal_strictMono (by omega)

/-- A finite pattern denotes what its key does. -/
theorem Fmt.real_eq_keyReal (h : F.mag a < F.infMag) : F.real a = F.keyReal (F.key a) := by
  rw [F.real_eq h]
  unfold Fmt.key
  split_ifs
  · rw [F.keyReal_neg, F.keyReal_natCast, neg_one_mul]
  · rw [F.keyReal_natCast, one_mul]

/-- What a key denotes, the keys of the infinities among them. -/
noncomputable def Fmt.keyExt (F : Fmt) (k : Int) : EReal :=
  if (F.infMag : Int) ≤ k then ⊤ else if k ≤ -(F.infMag : Int) then ⊥ else (F.keyReal k : EReal)

theorem Fmt.keyExt_of_lt {k : Int} (h1 : -(F.infMag : Int) < k) (h2 : k < F.infMag) : F.keyExt k = F.keyReal k := by
  rw [Fmt.keyExt, if_neg h2.not_ge, if_neg h1.not_ge]

theorem Fmt.keyExt_neg (h : 0 < F.infMag) (k : Int) : F.keyExt (-k) = -F.keyExt k := by
  rcases le_or_gt (F.infMag : Int) k with h1 | h1
  · rw [Fmt.keyExt, Fmt.keyExt, if_neg (by omega), if_pos (by omega), if_pos h1, EReal.neg_top]
  · rcases le_or_gt k (-(F.infMag : Int)) with h2 | h2
    · rw [Fmt.keyExt, Fmt.keyExt, if_pos (by omega), if_neg (by omega), if_pos h2, EReal.neg_bot]
    · rw [F.keyExt_of_lt (by omega) (by omega), F.keyExt_of_lt h2 h1, F.keyReal_neg, EReal.coe_neg]

theorem Fmt.keyExt_strictMonoOn (F : Fmt) : StrictMonoOn F.keyExt (Set.Icc (-(F.infMag : Int)) F.infMag) := by
  rintro i ⟨hi, -⟩ j ⟨-, hj⟩ hij
  unfold Fmt.keyExt
  rw [if_neg (by omega), if_neg (show ¬j ≤ -(F.infMag : Int) by omega)]
  split_ifs
  · exact bot_lt_top
  · exact EReal.bot_lt_coe _
  · exact EReal.coe_lt_top _
  · exact EReal.coe_lt_coe_iff.2 (F.keyReal_strictMono hij)

theorem Fmt.key_mem (h : F.isNan a = false) : F.key a ∈ Set.Icc (-(F.infMag : Int)) F.infMag := by
  have hk := F.natAbs_key a
  have hm := Fmt.isNan_eq_false.1 h
  exact ⟨by omega, by omega⟩

/-- A pattern that is no NaN denotes what its key does. -/
theorem Fmt.ext_eq_keyExt (hF : 0 < F.infMag) (h : F.isNan a = false) : F.ext a = F.keyExt (F.key a) := by
  rcases (Fmt.isNan_eq_false.1 h).lt_or_eq with hlt | heq
  · have hk := F.natAbs_key a
    rw [F.keyExt_of_lt (by omega) (by omega), ← F.real_eq_keyReal hlt, Fmt.ext, Fmt.real, Fmt.unpack, if_pos hlt]
  · rw [Fmt.ext, Fmt.unpack, if_neg heq.not_lt, if_pos heq, Fmt.key, heq]
    show (if F.sign a = true then (⊥ : EReal) else ⊤) = _
    split_ifs
    · rw [F.keyExt_neg hF, Fmt.keyExt, if_pos le_rfl, EReal.neg_top]
    · rw [Fmt.keyExt, if_pos le_rfl]

/-! ## Comparisons -/

theorem Fmt.isNan_eq_false_of_finite (h : F.finite a = true) : F.isNan a = false :=
  Fmt.isNan_eq_false.2 (of_decide_eq_true h).le

theorem Fmt.lt_iff_key (ha : F.isNan a = false) (hb : F.isNan b = false) : F.lt a b = true ↔ F.key a < F.key b := by
  simp [Fmt.lt, ha, hb]

theorem Fmt.le_iff_key (ha : F.isNan a = false) (hb : F.isNan b = false) : F.le a b = true ↔ F.key a ≤ F.key b := by
  simp [Fmt.le, ha, hb]

theorem Fmt.lt_iff_real (ha : F.finite a = true) (hb : F.finite b = true) : F.lt a b = true ↔ F.real a < F.real b := by
  rw [F.lt_iff_key (Fmt.isNan_eq_false_of_finite ha) (Fmt.isNan_eq_false_of_finite hb),
    F.real_eq_keyReal (of_decide_eq_true ha), F.real_eq_keyReal (of_decide_eq_true hb), F.keyReal_strictMono.lt_iff_lt]

theorem Fmt.le_iff_real (ha : F.finite a = true) (hb : F.finite b = true) : F.le a b = true ↔ F.real a ≤ F.real b := by
  rw [F.le_iff_key (Fmt.isNan_eq_false_of_finite ha) (Fmt.isNan_eq_false_of_finite hb),
    F.real_eq_keyReal (of_decide_eq_true ha), F.real_eq_keyReal (of_decide_eq_true hb), F.keyReal_strictMono.le_iff_le]

theorem Fmt.lt_iff_ext (hF : 0 < F.infMag) (ha : F.isNan a = false) (hb : F.isNan b = false) :
    F.lt a b = true ↔ F.ext a < F.ext b := by
  rw [F.lt_iff_key ha hb, F.ext_eq_keyExt hF ha, F.ext_eq_keyExt hF hb,
    F.keyExt_strictMonoOn.lt_iff_lt (Fmt.key_mem ha) (Fmt.key_mem hb)]

theorem Fmt.le_iff_ext (hF : 0 < F.infMag) (ha : F.isNan a = false) (hb : F.isNan b = false) :
    F.le a b = true ↔ F.ext a ≤ F.ext b := by
  rw [F.le_iff_key ha hb, F.ext_eq_keyExt hF ha, F.ext_eq_keyExt hF hb,
    F.keyExt_strictMonoOn.le_iff_le (Fmt.key_mem ha) (Fmt.key_mem hb)]

theorem Fmt.lt_eq_false_of_isNan (h : F.isNan a = true ∨ F.isNan b = true) : F.lt a b = false := by
  rcases h with h | h <;> simp [Fmt.lt, h]

theorem Fmt.le_eq_false_of_isNan (h : F.isNan a = true ∨ F.isNan b = true) : F.le a b = false := by
  rcases h with h | h <;> simp [Fmt.le, h]

/-! ## The magnitude of a pattern, read as a pattern, is the absolute value -/

@[simp] theorem Fmt.mag_mag (F : Fmt) (a : Nat) : F.mag (F.mag a) = F.mag a := Nat.mod_mod _ _

@[simp] theorem Fmt.sign_mag (F : Fmt) (a : Nat) : F.sign (F.mag a) = false := by
  simp [Fmt.sign, Nat.div_eq_of_lt (show F.mag a < 2 ^ (F.eb + F.fb) from Nat.mod_lt _ (Nat.two_pow_pos _))]

theorem Fmt.isNan_mag (F : Fmt) (a : Nat) : F.isNan (F.mag a) = F.isNan a := by simp [Fmt.isNan]

theorem Fmt.key_mag (F : Fmt) (a : Nat) : F.key (F.mag a) = F.mag a := by simp [Fmt.key]

theorem Fmt.real_mag (h : F.finite a = true) : F.real (F.mag a) = |F.real a| := by
  have h : F.mag a < F.infMag := of_decide_eq_true h
  rw [F.real_eq h, F.real_eq (by rwa [F.mag_mag]), F.mag_mag, F.sign_mag, abs_mul, abs_of_nonneg (F.magReal_nonneg _)]
  cases F.sign a <;> simp

theorem Fmt.ext_mag (hF : 0 < F.infMag) (h : F.isNan a = false) : F.ext (F.mag a) = max (F.ext a) (-F.ext a) := by
  have hm := Fmt.isNan_eq_false.1 h
  have h0 : -F.keyExt (F.mag a) ≤ F.keyExt (F.mag a) := by
    rw [← F.keyExt_neg hF, F.keyExt_strictMonoOn.le_iff_le ⟨by omega, by omega⟩ ⟨by omega, by omega⟩]
    omega
  rw [F.ext_eq_keyExt hF ((F.isNan_mag a).trans h), F.key_mag, F.ext_eq_keyExt hF h]
  unfold Fmt.key
  split_ifs
  · rw [F.keyExt_neg hF, neg_neg, max_eq_right h0]
  · rw [max_eq_left h0]

theorem toNat_fabs32 (a : F32) : (fabs32 a).toNat = f32.mag a.toNat := by
  rw [fabs32, BitVec.toNat_and, show (0x7FFFFFFF#32).toNat = 2 ^ 31 - 1 by decide, Nat.and_two_pow_sub_one_eq_mod]
  rfl

theorem toNat_fabs64 (a : F64) : (fabs64 a).toNat = f64.mag a.toNat := by
  rw [fabs64, BitVec.toNat_and, show (0x7FFFFFFFFFFFFFFF#64).toNat = 2 ^ 63 - 1 by decide,
    Nat.and_two_pow_sub_one_eq_mod]
  rfl

/-! ## The comparisons on patterns -/

theorem nanPattern32_iff (a : F32) : NanPattern32 a ↔ f32.isNan a.toNat = true := by
  rw [NanPattern32, Fmt.isNan, decide_eq_true_eq, ← toNat_fabs32]
  rfl

theorem nanPattern64_iff (a : F64) : NanPattern64 a ↔ f64.isNan a.toNat = true := by
  rw [NanPattern64, Fmt.isNan, decide_eq_true_eq, ← toNat_fabs64]
  rfl

theorem fmin32_of_lt {a b : F32} (h : flt32 a b = true) : fmin32 a b = a := if_pos h

theorem fmin32_of_not_lt {a b : F32} (h : ¬flt32 a b = true) : fmin32 a b = b := if_neg h

theorem comparisons_finite32 {a b : F32} (ha : finite32 a = true) (hb : finite32 b = true) :
    (flt32 a b = true ↔ real32 a < real32 b) ∧ (fle32 a b = true ↔ real32 a ≤ real32 b) ∧
    real32 (fabs32 a) = |real32 a| ∧ (real32 a < real32 b → fmin32 a b = a) ∧
    (real32 b ≤ real32 a → fmin32 a b = b) := by
  have hlt : flt32 a b = true ↔ real32 a < real32 b := Fmt.lt_iff_real ha hb
  refine ⟨hlt, Fmt.le_iff_real ha hb, ?_, fun h => fmin32_of_lt (hlt.2 h), fun h => fmin32_of_not_lt (hlt.not.2 h.not_gt)⟩
  rw [real32, toNat_fabs32, Fmt.real_mag ha, real32]

theorem comparisons_ext32 {a b : F32} (ha : ¬NanPattern32 a) (hb : ¬NanPattern32 b) :
    (flt32 a b = true ↔ ext32 a < ext32 b) ∧ (fle32 a b = true ↔ ext32 a ≤ ext32 b) ∧
    ext32 (fabs32 a) = max (ext32 a) (-ext32 a) ∧ (ext32 a < ext32 b → fmin32 a b = a) ∧
    (ext32 b ≤ ext32 a → fmin32 a b = b) := by
  rw [nanPattern32_iff, Bool.not_eq_true] at ha hb
  have hF : 0 < f32.infMag := by decide
  have hlt : flt32 a b = true ↔ ext32 a < ext32 b := Fmt.lt_iff_ext hF ha hb
  refine ⟨hlt, Fmt.le_iff_ext hF ha hb, ?_, fun h => fmin32_of_lt (hlt.2 h), fun h => fmin32_of_not_lt (hlt.not.2 h.not_gt)⟩
  rw [ext32, toNat_fabs32, Fmt.ext_mag hF ha, ext32]

theorem comparisons_finite64 {a b : F64} (ha : finite64 a = true) (hb : finite64 b = true) :
    (flt64 a b = true ↔ real64 a < real64 b) ∧ real64 (fabs64 a) = |real64 a| :=
  ⟨Fmt.lt_iff_real ha hb, by rw [real64, toNat_fabs64, Fmt.real_mag ha, real64]⟩

theorem comparisons_ext64 {a b : F64} (ha : ¬NanPattern64 a) (hb : ¬NanPattern64 b) :
    (flt64 a b = true ↔ ext64 a < ext64 b) ∧ ext64 (fabs64 a) = max (ext64 a) (-ext64 a) := by
  rw [nanPattern64_iff, Bool.not_eq_true] at ha hb
  have hF : 0 < f64.infMag := by decide
  exact ⟨Fmt.lt_iff_ext hF ha hb, by rw [ext64, toNat_fabs64, Fmt.ext_mag hF ha, ext64]⟩

theorem comparisons_nan32 {a b : F32} (h : NanPattern32 a ∨ NanPattern32 b) :
    flt32 a b = false ∧ fle32 a b = false ∧ fmin32 a b = b := by
  rw [nanPattern32_iff, nanPattern32_iff] at h
  have hlt : flt32 a b = false := Fmt.lt_eq_false_of_isNan h
  exact ⟨hlt, Fmt.le_eq_false_of_isNan h, fmin32_of_not_lt (by simp [hlt])⟩

theorem flt64_nan {a b : F64} (h : NanPattern64 a ∨ NanPattern64 b) : flt64 a b = false := by
  rw [nanPattern64_iff, nanPattern64_iff] at h
  exact Fmt.lt_eq_false_of_isNan h

theorem ext_infinities : ext32 0x7F800000 = ⊤ ∧ ext32 0xFF800000 = ⊥ ∧
    ext64 0x7FF0000000000000 = ⊤ ∧ ext64 0xFFF0000000000000 = ⊥ := by
  unfold ext32 ext64 Fmt.ext
  rw [show f32.unpack (BitVec.toNat 0x7F800000) = .inf false by decide,
    show f32.unpack (BitVec.toNat 0xFF800000) = .inf true by decide,
    show f64.unpack (BitVec.toNat 0x7FF0000000000000) = .inf false by decide,
    show f64.unpack (BitVec.toNat 0xFFF0000000000000) = .inf true by decide]
  exact ⟨rfl, rfl, rfl, rfl⟩

/-- Settles O46: patterns are ordered by their keys, and the number a key denotes is strictly monotone in it. -/
theorem comparisons : Obligations.Comparisons := by
  refine ⟨fun a b => comparisons_finite32, fun a b => comparisons_finite64, fun a b => comparisons_ext32,
    fun a b => comparisons_ext64, ext_infinities, by decide, fun a b => comparisons_nan32, fun a b => flt64_nan,
    fun a => ?_, fun a => ?_⟩
  · rw [nanPattern32_iff, nanPattern32_iff, toNat_fabs32, f32.isNan_mag]
  · rw [nanPattern64_iff, nanPattern64_iff, toNat_fabs64, f64.isNan_mag]

end Sys2Proof.Machine
end

section
/-! SUPPORT. Infinities and zeros as operands (R8, log entry 10). -/

namespace Sys2Proof.Machine

variable {F G : Fmt} {n x y : Nat} {s t : Bool}

/-! ## What infinities, zeros and finite patterns are -/

theorem infMag_pos (hF : F ∈ [f32, f64]) : 0 < F.infMag := by
  revert F
  decide

@[simp] theorem Fmt.unpack_infinity (F : Fmt) (s : Bool) : F.unpack (F.pack s F.infMag) = .inf s := by
  rw [Fmt.unpack, F.mag_pack s F.infMag_lt, F.sign_pack s F.infMag_lt, if_neg (lt_irrefl _), if_pos rfl]

theorem Fmt.unpack_zero (h : 0 < F.infMag) (s : Bool) : F.unpack (F.pack s 0) = .fin s 0 F.emin := by
  have h0 : 0 < 2 ^ (F.eb + F.fb) := Nat.two_pow_pos _
  rw [Fmt.unpack, F.mag_pack s h0, F.sign_pack s h0, if_pos h]
  simp [Fmt.magVal]

theorem Fmt.unpack_finite (h : F.finite x = true) : ∃ m e, F.unpack x = .fin (F.sign x) m e :=
  ⟨_, _, if_pos (of_decide_eq_true h)⟩

theorem FVal.real_fin_eq_zero {m : Nat} {e : Int} : (FVal.fin s m e).real = 0 ↔ m = 0 := by
  cases s <;> simp [FVal.real, (zpow_pos (two_pos (α := ℝ)) e).ne']

theorem FVal.real_fin (s : Bool) (m : Nat) (e : Int) :
    (FVal.fin s m e).real = (if s then -1 else 1) * ((m : ℝ) * (2 : ℝ) ^ e) := mul_assoc _ _ _

theorem Fmt.real_of_unpack {v : FVal} (h : F.unpack x = v) : F.real x = v.real := congrArg FVal.real h

/-- The significand of a finite pattern is zero exactly when its number is. -/
theorem Fmt.unpack_finite_ne (h : F.finite x = true) (hx : F.real x ≠ 0) :
    ∃ m e, F.unpack x = .fin (F.sign x) m e ∧ m ≠ 0 := by
  obtain ⟨m, e, hu⟩ := F.unpack_finite h
  exact ⟨m, e, hu, fun hm => hx ((F.real_of_unpack hu).trans (FVal.real_fin_eq_zero.2 hm))⟩

@[simp] theorem Fmt.roundMag_zero (F : Fmt) (e : Int) : F.roundMag 0 e = 0 := if_pos rfl

@[simp] theorem stickyQuot_zero (k m : Nat) : stickyQuot k 0 m = 0 := by simp [stickyQuot]

@[simp] theorem alignTo_zero (lo : Int) (s : Bool) (e : Int) : alignTo lo s 0 e = 0 := by simp [alignTo]

@[simp] theorem Fmt.roundInt_zero (F : Fmt) (s : Bool) (e : Int) : F.roundInt s 0 e = F.pack s 0 := if_pos rfl

/-! ## Infinities and zeros with each other -/

theorem Fmt.specials_together (hF : 0 < F.infMag) (n : Nat) (s t : Bool) :
    F.add n (F.pack s F.infMag) (F.pack t F.infMag) = (if s = t then F.pack s F.infMag else n) ∧
    F.add n (F.pack s 0) (F.pack t 0) = F.pack (s && t) 0 ∧
    F.mul n (F.pack s F.infMag) (F.pack t F.infMag) = F.pack (s ^^ t) F.infMag ∧
    F.mul n (F.pack s F.infMag) (F.pack t 0) = n ∧ F.mul n (F.pack s 0) (F.pack t F.infMag) = n ∧
    F.mul n (F.pack s 0) (F.pack t 0) = F.pack (s ^^ t) 0 ∧
    F.div n (F.pack s F.infMag) (F.pack t F.infMag) = n ∧ F.div n (F.pack s 0) (F.pack t 0) = n ∧
    F.div n (F.pack s F.infMag) (F.pack t 0) = F.pack (s ^^ t) F.infMag ∧
    F.div n (F.pack s 0) (F.pack t F.infMag) = F.pack (s ^^ t) 0 := by
  simp [Fmt.add, Fmt.mul, Fmt.div, Fmt.unpack_zero hF]

/-! ## An infinity or a zero with a finite number -/

theorem Fmt.infinity_with_finite (n : Nat) (s : Bool) (h : F.finite x = true) :
    F.add n (F.pack s F.infMag) x = F.pack s F.infMag ∧ F.add n x (F.pack s F.infMag) = F.pack s F.infMag ∧
    F.div n (F.pack s F.infMag) x = F.pack (s ^^ F.sign x) F.infMag ∧
    F.div n x (F.pack s F.infMag) = F.pack (F.sign x ^^ s) 0 := by
  obtain ⟨m, e, hu⟩ := F.unpack_finite h
  simp [Fmt.add, Fmt.div, hu]

theorem Fmt.zero_mul_finite (hF : 0 < F.infMag) (n : Nat) (s : Bool) (h : F.finite x = true) :
    F.mul n (F.pack s 0) x = F.pack (s ^^ F.sign x) 0 ∧ F.mul n x (F.pack s 0) = F.pack (F.sign x ^^ s) 0 := by
  obtain ⟨m, e, hu⟩ := F.unpack_finite h
  simp [Fmt.mul, hu, Fmt.unpack_zero hF]

theorem Fmt.specials_with_nonzero (hF : 0 < F.infMag) (n : Nat) (s : Bool) (h : F.finite x = true) (hx : F.real x ≠ 0) :
    F.mul n (F.pack s F.infMag) x = F.pack (s ^^ F.sign x) F.infMag ∧
    F.mul n x (F.pack s F.infMag) = F.pack (F.sign x ^^ s) F.infMag ∧
    F.div n (F.pack s 0) x = F.pack (s ^^ F.sign x) 0 ∧
    F.div n x (F.pack s 0) = F.pack (F.sign x ^^ s) F.infMag := by
  obtain ⟨m, e, hu, hm⟩ := F.unpack_finite_ne h hx
  simp [Fmt.mul, Fmt.div, hu, hm, Fmt.unpack_zero hF]

/-- An infinity times a zero, and a zero by a zero, whatever the signs. -/
theorem Fmt.invalid_with_zero (hF : 0 < F.infMag) (n : Nat) (s : Bool) (h : F.finite x = true) (hx : F.real x = 0) :
    F.mul n (F.pack s F.infMag) x = n ∧ F.div n x (F.pack s 0) = n := by
  obtain ⟨m, e, hu⟩ := F.unpack_finite h
  have hm : m = 0 := FVal.real_fin_eq_zero.1 ((F.real_of_unpack hu).symm.trans hx)
  simp [Fmt.mul, Fmt.div, hu, hm, Fmt.unpack_zero hF]

theorem Fmt.convert_specials (hF : 0 < F.infMag) (G : Fmt) (n : Nat) (s : Bool) :
    F.convert G n (F.pack s F.infMag) = G.pack s G.infMag ∧ F.convert G n (F.pack s 0) = G.pack s 0 := by
  simp [Fmt.convert, Fmt.unpack_zero hF]

/-! ## Exact cancellation -/

/-- The sum of a finite number and its negation of the other sign is `+0`. -/
theorem Fmt.add_cancel (n : Nat) (hx : F.finite x = true) (hy : F.finite y = true) (hs : (F.sign x && F.sign y) = false)
    (h : F.real y = -F.real x) : F.add n x y = F.pack false 0 := by
  obtain ⟨m, e, hu⟩ := F.unpack_finite hx
  obtain ⟨k, g, hv⟩ := F.unpack_finite hy
  have hsum : alignTo (min e g) (F.sign x) m e + alignTo (min e g) (F.sign y) k g = 0 := by
    have h1 := alignTo_real (min e g) (F.sign x) m e (min_le_left _ _)
    have h2 := alignTo_real (min e g) (F.sign y) k g (min_le_right _ _)
    rw [← F.real_of_unpack hu] at h1
    rw [← F.real_of_unpack hv, h, ← h1, ← neg_mul, mul_left_inj' (by positivity)] at h2
    have h2 : alignTo (min e g) (F.sign y) k g = -alignTo (min e g) (F.sign x) m e := by exact_mod_cast h2
    omega
  simp [Fmt.add, hu, hv, hsum, hs]

theorem Fmt.signs_of_real_eq_neg (hx : F.finite x = true) (hy : F.finite y = true) (h0 : F.real x ≠ 0)
    (h : F.real y = -F.real x) : (F.sign x && F.sign y) = false := by
  rw [Bool.and_eq_false_iff]
  by_contra hc
  have hxm := F.real_eq (of_decide_eq_true hx)
  have hym := F.real_eq (of_decide_eq_true hy)
  simp only [not_or, Bool.not_eq_false] at hc
  rw [hc.1, if_pos rfl] at hxm
  rw [hc.2, if_pos rfl] at hym
  have := F.magReal_nonneg (F.mag x)
  have := F.magReal_nonneg (F.mag y)
  exact h0 (by linarith)

/-! ## On binary32 patterns -/

theorem sign32_eq_msb (x : F32) : f32.sign x.toNat = x.msb := by
  have hx := x.isLt
  rw [BitVec.msb_eq_decide, Fmt.sign, Bool.eq_iff_iff, beq_iff_eq, decide_eq_true_eq]
  show x.toNat / 2 ^ 31 % 2 = 1 ↔ 2 ^ 31 ≤ x.toNat
  omega

theorem and_signMask32 (x : F32) : x &&& 0x80000000#32 = BitVec.ofNat 32 (f32.pack (f32.sign x.toNat) 0) := by
  rw [sign32_eq_msb, BitVec.msb_eq_getLsbD_last, show 0x80000000#32 = BitVec.twoPow 32 31 from rfl, BitVec.and_twoPow]
  cases x.getLsbD (32 - 1) <;> rfl

theorem inf32_or_signMask (x : F32) :
    inf32 ||| (x &&& 0x80000000#32) = BitVec.ofNat 32 (f32.pack (f32.sign x.toNat) f32.infMag) := by
  rw [and_signMask32]
  cases f32.sign x.toNat <;> rfl

theorem mag_xor_signMask32 (x : F32) : f32.mag (x ^^^ 0x80000000#32).toNat = f32.mag x.toNat := by
  show (x.toNat ^^^ 2 ^ 31) % 2 ^ 31 = x.toNat % 2 ^ 31
  rw [Nat.xor_mod_two_pow, Nat.mod_self, Nat.xor_zero]

theorem sign_xor_signMask32 (x : F32) : f32.sign (x ^^^ 0x80000000#32).toNat = !f32.sign x.toNat := by
  rw [sign32_eq_msb, BitVec.msb_xor, sign32_eq_msb, show (0x80000000#32).msb = true by decide, Bool.xor_true]

/-- A finite number and its negation cancel to `+0`, two zeros among them. -/
theorem fadd32_xor_signMask {n x : F32} (h : finite32 x = true) : fadd32 n x (x ^^^ 0x80000000#32) = 0 := by
  have hm := mag_xor_signMask32 x
  have hs := sign_xor_signMask32 x
  have hf : f32.mag x.toNat < f32.infMag := of_decide_eq_true h
  have hf' : f32.mag (x ^^^ 0x80000000#32).toNat < f32.infMag := hm ▸ hf
  have hneg : f32.real (x ^^^ 0x80000000#32).toNat = -f32.real x.toNat := by
    rw [f32.real_eq hf, f32.real_eq hf', hm, hs]
    cases f32.sign x.toNat <;> simp
  rw [fadd32, Fmt.add_cancel _ h (decide_eq_true hf') (by rw [hs, Bool.and_not_self]) hneg]
  rfl

theorem fadd32_inf (n : F32) {x : F32} (h : finite32 x = true) : fadd32 n inf32 x = inf32 :=
  congrArg (BitVec.ofNat 32) (Fmt.infinity_with_finite n.toNat false h).1

theorem fadd32_inf_negInf (n : F32) : fadd32 n inf32 0xFF800000 = n := by
  have h : f32.add n.toNat inf32.toNat (0xFF800000#32).toNat = n.toNat :=
    (Fmt.specials_together (by decide) n.toNat false true).1
  exact BitVec.eq_of_toNat_eq ((toNat_fadd32 ..).trans h)

theorem fdiv32_inf (n : F32) {x : F32} (h : finite32 x = true) : fdiv32 n x inf32 = x &&& 0x80000000#32 := by
  have hd : f32.div n.toNat x.toNat inf32.toNat = f32.pack (f32.sign x.toNat ^^ false) 0 :=
    (Fmt.infinity_with_finite n.toNat false h).2.2.2
  rw [and_signMask32, fdiv32, hd, Bool.xor_false]

theorem specials32_with_nonzero (n : F32) {x : F32} (h : finite32 x = true) (hx : real32 x ≠ 0) :
    fmul32 n inf32 x = inf32 ||| (x &&& 0x80000000#32) ∧ fdiv32 n x 0 = inf32 ||| (x &&& 0x80000000#32) := by
  obtain ⟨hmul, -, -, hdiv⟩ := Fmt.specials_with_nonzero (by decide) n.toNat false h hx
  have hdiv : f32.div n.toNat x.toNat (0 : F32).toNat = f32.pack (f32.sign x.toNat ^^ false) f32.infMag := hdiv
  have hmul : f32.mul n.toNat inf32.toNat x.toNat = f32.pack (false ^^ f32.sign x.toNat) f32.infMag := hmul
  rw [inf32_or_signMask, fmul32, fdiv32, hmul, hdiv, Bool.xor_false, Bool.false_xor]
  exact ⟨rfl, rfl⟩

theorem invalid32_with_zero (n : F32) {x : F32} (h : finite32 x = true) (hx : real32 x = 0) :
    fmul32 n inf32 x = n ∧ fdiv32 n x 0 = n := by
  obtain ⟨hmul, hdiv⟩ := Fmt.invalid_with_zero (by decide) n.toNat false h hx
  exact ⟨BitVec.eq_of_toNat_eq ((toNat_fmul32 ..).trans hmul), BitVec.eq_of_toNat_eq ((toNat_fdiv32 ..).trans hdiv)⟩

theorem fadd32_negZero (n : F32) : fadd32 n 0x80000000 0x80000000 = 0x80000000 :=
  congrArg (BitVec.ofNat 32) (Fmt.specials_together (by decide) n.toNat true true).2.1

/-- Settles O47, by what each operation answers once its operands are known to be infinities, zeros or finite. -/
theorem specialOperands : Obligations.SpecialOperands := by
  refine ⟨fun n x hx => ⟨⟨fadd32_inf n hx, fadd32_inf_negInf n, fdiv32_inf n hx⟩, specials32_with_nonzero n hx,
    invalid32_with_zero n hx, fadd32_xor_signMask hx, fadd32_negZero n⟩, by decide, ?_⟩
  intro F hF n inf zero hinf hzero
  have hpos := infMag_pos hF
  obtain rfl : inf = fun s => F.pack s F.infMag := funext hinf
  obtain rfl : zero = fun s => F.pack s 0 := funext hzero
  refine ⟨Fmt.specials_together hpos n, fun s x hx => ?_, fun G _ => Fmt.convert_specials hpos G n⟩
  obtain ⟨hadd, hadd', hdiv, hdiv'⟩ := Fmt.infinity_with_finite n s hx
  obtain ⟨hmul, hmul'⟩ := Fmt.zero_mul_finite hpos n s hx
  refine ⟨hadd, hadd', hmul, hmul', hdiv, hdiv', fun h0 => ?_⟩
  obtain ⟨himul, himul', hzdiv, hzdiv'⟩ := Fmt.specials_with_nonzero hpos n s hx h0
  exact ⟨himul, himul', hzdiv, hzdiv',
    fun y hy h => Fmt.add_cancel n hx hy (Fmt.signs_of_real_eq_neg hx hy h0 h) h⟩

end Sys2Proof.Machine
end

section
/-! SUPPORT. Rounding to nearest, ties to even, of any positive real number: the significand kept, and the pattern it makes (R8). -/

namespace Sys2Proof.Machine

variable {F : Fmt} {v w : ℝ} {E : Int} {q n : Nat}

/-! ## The significand kept -/

/-- `q` units of `2^E` are the positive real `v` rounded to nearest, ties to even, and `2^E` is the unit of the last place `F` keeps of `v`. -/
structure Fmt.Keeps (F : Fmt) (v : ℝ) (E : Int) (q : Nat) : Prop where
  emin_le : F.emin ≤ E
  low     : E ≠ F.emin → (2 : ℝ) ^ F.fb * (2 : ℝ) ^ E ≤ v
  high    : v ≤ (2 : ℝ) ^ (F.fb + 1) * (2 : ℝ) ^ E
  near    : |(q : ℝ) * (2 : ℝ) ^ E - v| ≤ (2 : ℝ) ^ E / 2
  even    : |(q : ℝ) * (2 : ℝ) ^ E - v| = (2 : ℝ) ^ E / 2 → q % 2 = 0

/-- The pattern of `q` units of `2^E`, an infinity when that is too much. -/
def Fmt.assemble (F : Fmt) (E : Int) (q : Nat) : Nat := (E - F.emin).toNat * 2 ^ F.fb + q

theorem Fmt.Keeps.le_pow (h : F.Keeps v E q) : q ≤ 2 ^ (F.fb + 1) := by
  have hu : (0 : ℝ) < (2 : ℝ) ^ E := by positivity
  have hn := (abs_le.1 h.near).2
  have hq : (q : ℝ) < 2 ^ (F.fb + 1) + 1 := lt_of_mul_lt_mul_right (by linarith [h.high]) hu.le
  exact Nat.lt_succ_iff.1 (by exact_mod_cast hq)

theorem Fmt.Keeps.pow_le (h : F.Keeps v E q) (hE : E ≠ F.emin) : 2 ^ F.fb ≤ q := by
  have hu : (0 : ℝ) < (2 : ℝ) ^ E := by positivity
  have hn := (abs_le.1 h.near).1
  have hq : (2 : ℝ) ^ F.fb < q + 1 := lt_of_mul_lt_mul_right (by linarith [h.low hE]) hu.le
  exact Nat.lt_succ_iff.1 (by exact_mod_cast hq)

theorem Fmt.Keeps.magReal_assemble (h : F.Keeps v E q) : F.magReal (F.assemble E q) = (q : ℝ) * (2 : ℝ) ^ E := by
  have hE := h.emin_le
  rw [Fmt.assemble, F.magReal_assemble _ _ h.le_pow fun h0 => h.pow_le (by omega)]
  congr 2
  omega

/-! ## No number of the format is nearer -/

/-- A number `F` has is a whole number of units `2^E`, or in magnitude below `2^fb` of them. -/
def Fmt.OnGrid (F : Fmt) (E : Int) (y : ℝ) : Prop :=
  (∃ j : Int, y = (j : ℝ) * (2 : ℝ) ^ E) ∨ (E ≠ F.emin ∧ |y| < (2 : ℝ) ^ F.fb * (2 : ℝ) ^ E)

theorem Fmt.OnGrid.neg {y : ℝ} (h : F.OnGrid E y) : F.OnGrid E (-y) := by
  rcases h with ⟨j, hj⟩ | h
  · exact .inl ⟨-j, by rw [hj]; push_cast; ring⟩
  · exact .inr (by rwa [abs_neg])

theorem Fmt.onGrid_scaled {m : Nat} {e : Int} (hm : m < 2 ^ (F.fb + 1)) (he : F.emin ≤ e) (E : Int) :
    F.OnGrid E ((m : ℝ) * (2 : ℝ) ^ e) := by
  rcases le_or_gt E e with h | h
  · refine .inl ⟨m * 2 ^ (e - E).toNat, ?_⟩
    push_cast
    rw [mul_assoc, ← zpow_natCast, ← zpow_add₀ two_ne_zero]
    congr 2
    omega
  · refine .inr ⟨by omega, ?_⟩
    have hm' : (m : ℝ) < 2 ^ (F.fb + 1) := by exact_mod_cast hm
    rw [abs_of_nonneg (by positivity)]
    calc (m : ℝ) * (2 : ℝ) ^ e < 2 ^ (F.fb + 1) * (2 : ℝ) ^ e := by gcongr
      _ = 2 ^ F.fb * (2 : ℝ) ^ (e + 1) := by rw [zpow_add_one₀ two_ne_zero]; ring
      _ ≤ 2 ^ F.fb * (2 : ℝ) ^ E := by gcongr; exacts [one_le_two, h]

theorem Fmt.magVal_lt (F : Fmt) (n : Nat) : (F.magVal n).1 < 2 ^ (F.fb + 1) := by
  have hp := Nat.two_pow_pos F.fb
  have hr := Nat.mod_lt n hp
  unfold Fmt.magVal
  rw [pow_succ]
  split_ifs with h
  · have := (Nat.div_eq_zero_iff.1 h).resolve_left hp.ne'
    omega
  · omega

theorem Fmt.emin_le_magVal (F : Fmt) (n : Nat) : F.emin ≤ (F.magVal n).2 := by
  unfold Fmt.magVal
  split_ifs with h
  · exact le_rfl
  · have := Nat.one_le_iff_ne_zero.2 h
    omega

theorem Fmt.onGrid_real (h : F.finite n = true) (E : Int) : F.OnGrid E (F.real n) := by
  have hg : F.OnGrid E (F.magReal (F.mag n)) := F.onGrid_scaled (F.magVal_lt _) (F.emin_le_magVal _) E
  rw [F.real_eq (of_decide_eq_true h)]
  split_ifs
  · rw [neg_one_mul]
    exact hg.neg
  · rwa [one_mul]

/-- A whole number of units other than the one kept is at least half a unit away. -/
theorem Fmt.Keeps.half_le_of_ne (h : F.Keeps v E q) {j : Int} (hj : j ≠ q) :
    (2 : ℝ) ^ E / 2 ≤ |(j : ℝ) * (2 : ℝ) ^ E - v| := by
  have hu : (0 : ℝ) < (2 : ℝ) ^ E := by positivity
  have hn := abs_le.1 h.near
  rcases lt_or_gt_of_ne hj with hlt | hgt
  · have h1 : ((j : ℝ) + 1) * (2 : ℝ) ^ E ≤ (q : ℝ) * (2 : ℝ) ^ E :=
      mul_le_mul_of_nonneg_right (by exact_mod_cast hlt) hu.le
    exact le_abs.2 (.inr (by linarith))
  · have h1 : ((q : ℝ) + 1) * (2 : ℝ) ^ E ≤ (j : ℝ) * (2 : ℝ) ^ E :=
      mul_le_mul_of_nonneg_right (by exact_mod_cast hgt) hu.le
    exact le_abs.2 (.inl (by linarith))

/-- Below the lowest significand with that unit every number is farther away. -/
theorem Fmt.Keeps.lt_of_small (h : F.Keeps v E q) (hE : E ≠ F.emin) {y : ℝ} (hy : |y| < (2 : ℝ) ^ F.fb * (2 : ℝ) ^ E) :
    |(q : ℝ) * (2 : ℝ) ^ E - v| < |y - v| := by
  have hlow := h.low hE
  have hy' := (abs_lt.1 hy).2
  have hfar : |(2 : ℝ) ^ F.fb * (2 : ℝ) ^ E - v| < |y - v| := by
    rw [abs_of_nonpos (by linarith), abs_of_neg (by linarith)]
    linarith
  by_cases hq : (2 ^ F.fb : Nat) = q
  · rw [← hq]
    push_cast
    exact hfar
  · have hhalf := h.half_le_of_ne (j := (2 ^ F.fb : Nat)) (by exact_mod_cast hq)
    push_cast at hhalf
    exact (h.near.trans hhalf).trans_lt hfar

theorem Fmt.Keeps.nearest (h : F.Keeps v E q) {y : ℝ} (hy : F.OnGrid E y) : |(q : ℝ) * (2 : ℝ) ^ E - v| ≤ |y - v| := by
  rcases hy with ⟨j, rfl⟩ | ⟨hE, hy⟩
  · by_cases hj : j = q
    · rw [hj, Int.cast_natCast]
    · exact h.near.trans (h.half_le_of_ne hj)
  · exact (h.lt_of_small hE hy).le

theorem Fmt.Keeps.even_of_tie (h : F.Keeps v E q) {y : ℝ} (hy : F.OnGrid E y) (hne : y ≠ (q : ℝ) * (2 : ℝ) ^ E)
    (htie : |(q : ℝ) * (2 : ℝ) ^ E - v| = |y - v|) : q % 2 = 0 := by
  rcases hy with ⟨j, rfl⟩ | ⟨hE, hy⟩
  · have hj : j ≠ q := by
      rintro rfl
      exact hne (by rw [Int.cast_natCast])
    exact h.even (h.near.antisymm ((h.half_le_of_ne hj).trans_eq htie.symm))
  · exact absurd htie (h.lt_of_small hE hy).ne

/-! ## Overflow -/

/-- What the rounding statements ask of a format. -/
structure Fmt.Wide (F : Fmt) : Prop where
  eb : 2 ≤ F.eb
  fb : 1 ≤ F.fb

theorem Fmt.wide_of_mem (h : F ∈ [f32, f64]) : F.Wide := by
  rcases List.mem_pair.1 h with rfl | rfl
  · exact ⟨by decide, by decide⟩
  · exact ⟨by decide, by decide⟩

theorem Fmt.Wide.four_le (hF : F.Wide) : 4 ≤ 2 ^ F.eb := Nat.pow_le_pow_right (n := 2) two_pos hF.eb

/-- The overflow threshold in units of the last place of the largest finite number. -/
theorem Fmt.overflowAt_eq (F : Fmt) :
    F.overflowAt = ((2 : ℝ) ^ (F.fb + 1) - 1 / 2) * (2 : ℝ) ^ (F.emin + (2 ^ F.eb : Nat) - 3) := by
  rw [Fmt.overflowAt, show F.emin + (2 ^ F.eb : Nat) - 3 = F.emin + (2 ^ F.eb : Nat) - 4 + 1 by ring,
    zpow_add_one₀ two_ne_zero]
  ring

/-- The kept significand reaches the next power of two from half a unit below it on: there the tie goes up, to the even one. -/
theorem Fmt.Keeps.lt_pow_iff (h : F.Keeps v E q) :
    q < 2 ^ (F.fb + 1) ↔ v < ((2 : ℝ) ^ (F.fb + 1) - 1 / 2) * (2 : ℝ) ^ E := by
  have hu : (0 : ℝ) < (2 : ℝ) ^ E := by positivity
  have hn := abs_le.1 h.near
  constructor
  · intro hq
    by_contra hv
    have hq' : ((q : ℝ) + 1) * (2 : ℝ) ^ E ≤ 2 ^ (F.fb + 1) * (2 : ℝ) ^ E :=
      mul_le_mul_of_nonneg_right (by exact_mod_cast hq) hu.le
    have htie : (q : ℝ) * (2 : ℝ) ^ E - v = -((2 : ℝ) ^ E / 2) := by linarith
    have heven := h.even (by rw [htie, abs_neg, abs_of_pos (by positivity)])
    have hge : (2 : ℝ) ^ (F.fb + 1) < q + 2 := lt_of_mul_lt_mul_right (by linarith) hu.le
    have hge : 2 ^ (F.fb + 1) < q + 2 := by exact_mod_cast hge
    rw [pow_succ] at hq hge
    omega
  · intro hv
    have : (q : ℝ) < 2 ^ (F.fb + 1) := lt_of_mul_lt_mul_right (by linarith) hu.le
    exact_mod_cast this

theorem Fmt.infMag_eq (hF : F.Wide) : F.infMag = (2 ^ F.eb - 3) * 2 ^ F.fb + 2 ^ (F.fb + 1) := by
  have h4 := hF.four_le
  rw [Fmt.infMag, pow_succ', ← Nat.add_mul]
  congr 1
  omega

/-- The kept significand makes a finite pattern exactly below the overflow threshold. -/
theorem Fmt.Keeps.assemble_lt_iff (h : F.Keeps v E q) (hF : F.Wide) :
    F.assemble E q < F.infMag ↔ v < F.overflowAt := by
  have h4 := hF.four_le
  have hq := h.le_pow
  have hE := h.emin_le
  have hp1 : (1 : ℝ) ≤ 2 ^ F.fb := one_le_pow₀ one_le_two
  have hpow : (2 : ℝ) ^ (F.fb + 1) = 2 * 2 ^ F.fb := pow_succ' _ _
  rw [F.overflowAt_eq, F.infMag_eq hF, Fmt.assemble]
  rcases lt_trichotomy E (F.emin + (2 ^ F.eb : Nat) - 3) with hlt | heq | hgt
  · -- a binade below the top one: finite, and below the threshold
    refine iff_of_true ?_ ?_
    · have ha : (E - F.emin).toNat * 2 ^ F.fb < (2 ^ F.eb - 3) * 2 ^ F.fb :=
        Nat.mul_lt_mul_of_pos_right (by omega) (Nat.two_pow_pos _)
      omega
    · calc v ≤ (2 : ℝ) ^ (F.fb + 1) * (2 : ℝ) ^ E := h.high
        _ = 2 ^ F.fb * (2 : ℝ) ^ (E + 1) := by rw [zpow_add_one₀ two_ne_zero]; ring
        _ < ((2 : ℝ) ^ (F.fb + 1) - 1 / 2) * (2 : ℝ) ^ (E + 1) := by gcongr; linarith
        _ ≤ _ := by gcongr; exacts [by linarith, one_le_two, hlt]
  · -- the top binade: finite as long as the significand does not reach the next power of two
    have ha : (E - F.emin).toNat = 2 ^ F.eb - 3 := by omega
    rw [ha, ← heq, ← h.lt_pow_iff]
    omega
  · -- a binade above the top one: infinite, and beyond the threshold
    refine iff_of_false (not_lt.2 ?_) (not_lt.2 ?_)
    · have ha : (2 ^ F.eb - 3 + 1) * 2 ^ F.fb ≤ (E - F.emin).toNat * 2 ^ F.fb := Nat.mul_le_mul_right _ (by omega)
      have := h.pow_le (by omega)
      rw [Nat.add_mul, Nat.one_mul] at ha
      rw [pow_succ]
      omega
    · have hz : (2 : ℝ) ^ (F.emin + (2 ^ F.eb : Nat) - 3) ≤ (2 : ℝ) ^ (E - 1) :=
        zpow_le_zpow_right₀ one_le_two (by omega)
      calc ((2 : ℝ) ^ (F.fb + 1) - 1 / 2) * (2 : ℝ) ^ (F.emin + (2 ^ F.eb : Nat) - 3)
          ≤ 2 ^ (F.fb + 1) * (2 : ℝ) ^ (E - 1) := by gcongr; linarith
        _ = 2 ^ F.fb * (2 : ℝ) ^ E := by rw [zpow_sub_one₀ two_ne_zero]; ring
        _ ≤ v := h.low (by omega)

/-! ## Rounding -/

theorem abs_sub_signed (neg : Bool) (y v : ℝ) :
    |y - (if neg then -1 else 1) * v| = |(if neg then -1 else 1) * y - v| := by
  cases neg
  · simp
  · rw [← abs_neg]
    simp only [if_true]
    ring_nf

theorem signed_signed (neg : Bool) (y : ℝ) : (if neg then -1 else 1) * ((if neg then -1 else 1) * y) = y := by
  cases neg <;> simp

theorem Fmt.OnGrid.signed {y : ℝ} (h : F.OnGrid E y) (neg : Bool) : F.OnGrid E ((if neg then -1 else 1) * y) := by
  cases neg
  · simpa using h
  · simpa using h.neg

theorem Fmt.pack_mod_two (hF : F.Wide) (neg : Bool) (n : Nat) : F.pack neg n % 2 = n % 2 := by
  have := hF.fb
  have h2 : 2 ^ (F.eb + F.fb) % 2 = 0 := Nat.mod_eq_zero_of_dvd (dvd_pow_self 2 (by omega))
  unfold Fmt.pack
  split_ifs <;> omega

theorem Fmt.assemble_mod_two (hF : F.Wide) (E : Int) (q : Nat) : F.assemble E q % 2 = q % 2 := by
  have := hF.fb
  have h2 : 2 ∣ (E - F.emin).toNat * 2 ^ F.fb := dvd_mul_of_dvd_right (dvd_pow_self 2 (by omega)) _
  unfold Fmt.assemble
  omega

/-- The pattern made of a sign and the kept significand is the number rounded as R8 asks. -/
theorem Fmt.Keeps.rounds (h : F.Keeps v E q) (hF : F.Wide) (hv : 0 < v) (neg : Bool) :
    F.Rounds ((if neg then -1 else 1) * v) (F.pack neg (min (F.assemble E q) F.infMag)) := by
  have habs : |(if neg then -1 else 1) * v| = v := by cases neg <;> simp [hv.le]
  have hlt : min (F.assemble E q) F.infMag < 2 ^ (F.eb + F.fb) := (min_le_right _ _).trans_lt F.infMag_lt
  have hfin : v < F.overflowAt → F.assemble E q < F.infMag := (h.assemble_lt_iff hF).2
  have hreal : v < F.overflowAt → F.real (F.pack neg (min (F.assemble E q) F.infMag)) =
      (if neg then -1 else 1) * ((q : ℝ) * (2 : ℝ) ^ E) := fun hx => by
    rw [min_eq_left (hfin hx).le, F.real_pack neg (hfin hx), h.magReal_assemble]
  refine ⟨?_, fun hx => ?_, fun hx => ?_, fun hx y hy => ?_, fun hx y hy hne htie => ?_⟩
  · rw [F.sign_pack neg hlt]
    cases neg <;> simp [hv, hv.le]
  · rw [habs] at hx
    rw [F.mag_pack neg hlt, min_eq_right (not_lt.1 ((h.assemble_lt_iff hF).not.2 hx.not_gt))]
  · rw [habs] at hx
    rw [Fmt.finite, F.mag_pack neg hlt, min_eq_left (hfin hx).le]
    exact decide_eq_true (hfin hx)
  · rw [habs] at hx
    rw [hreal hx, abs_sub_signed, abs_sub_signed, signed_signed]
    exact h.nearest ((F.onGrid_real hy E).signed neg)
  · rw [habs] at hx
    rw [hreal hx] at hne htie
    rw [abs_sub_signed, abs_sub_signed, signed_signed] at htie
    rw [F.pack_mod_two hF, min_eq_left (hfin hx).le, F.assemble_mod_two hF]
    refine h.even_of_tie ((F.onGrid_real hy E).signed neg) (fun heq => hne ?_) htie
    rw [← heq, signed_signed]

end Sys2Proof.Machine
end

section
/-! SUPPORT. The operations round once: addition, multiplication, division and the conversions (R8, R10). -/

namespace Sys2Proof.Machine

variable {F G : Fmt} {v w : ℝ} {E e g : Int} {q m n k a b nan : Nat} {neg : Bool}

/-! ## The rounding of a scaled integer -/

/-- A number exactly between two integers goes to the even one. -/
theorem rneShift_tie (m k : Nat) (h : 2 * |((rneShift m k * 2 ^ k : Nat) : Int) - m| = (2 ^ k : Nat)) :
    rneShift m k % 2 = 0 := by
  have hm := Nat.div_add_mod' m (2 ^ k)
  have hlt := Nat.mod_lt m (Nat.two_pow_pos k)
  unfold rneShift at h ⊢
  generalize m / 2 ^ k = q at *
  generalize m % 2 ^ k = r at *
  generalize 2 ^ k = p at *
  split_ifs at h ⊢ with h1 h2
  · rw [abs_of_nonpos (by omega)] at h
    omega
  · exact h2.2
  · rw [Nat.add_mul, Nat.one_mul] at h
    generalize q * p = x at *
    rcases abs_cases (((x + p : Nat) : Int) - m) with ⟨h', -⟩ | ⟨h', -⟩ <;> omega

theorem Fmt.kept_exact (h : F.lastExp m e ≤ e) :
    (F.kept m e : ℝ) * (2 : ℝ) ^ F.lastExp m e = (m : ℝ) * (2 : ℝ) ^ e := by
  rw [Fmt.kept, rneScale, if_pos (by omega)]
  push_cast
  rw [mul_assoc, ← zpow_natCast, ← zpow_add₀ two_ne_zero]
  congr 2
  omega

theorem Fmt.kept_even (h : |(F.kept m e : ℝ) * (2 : ℝ) ^ F.lastExp m e - (m : ℝ) * (2 : ℝ) ^ e| = (2 : ℝ) ^ F.lastExp m e / 2) :
    F.kept m e % 2 = 0 := by
  rcases le_or_gt (F.lastExp m e) e with hle | hgt
  · rw [F.kept_exact hle, sub_self, abs_zero] at h
    exact absurd h (by positivity)
  · obtain ⟨k, hk⟩ : ∃ k : Nat, F.lastExp m e = e + k := ⟨(F.lastExp m e - e).toNat, by omega⟩
    have hkept : F.kept m e = rneShift m k := by
      rw [Fmt.kept, rneScale, if_neg (by omega), hk, add_sub_cancel_left, Int.toNat_natCast]
    have he : (0 : ℝ) < (2 : ℝ) ^ e := by positivity
    rw [hkept] at h ⊢
    refine rneShift_tie m k ?_
    rw [hk, zpow_add₀ two_ne_zero, zpow_natCast, mul_comm ((2 : ℝ) ^ e), ← mul_assoc, ← sub_mul, abs_mul, abs_of_pos he,
      mul_div_right_comm, mul_left_inj' he.ne'] at h
    have h : 2 * |(rneShift m k : ℝ) * 2 ^ k - m| = 2 ^ k := by linarith
    exact_mod_cast h

theorem Fmt.keeps_lastExp (F : Fmt) (e : Int) (hm : m ≠ 0) :
    F.Keeps ((m : ℝ) * (2 : ℝ) ^ e) (F.lastExp m e) (F.kept m e) where
  emin_le := F.emin_le_lastExp m e
  low := fun h => by
    have hlog : (2 : ℝ) ^ Nat.log2 m ≤ m := by exact_mod_cast Nat.log2_self_le hm
    have hE : F.lastExp m e = e + (Nat.log2 m : Int) - F.fb := by unfold Fmt.lastExp at h ⊢; omega
    calc (2 : ℝ) ^ F.fb * (2 : ℝ) ^ F.lastExp m e = (2 : ℝ) ^ Nat.log2 m * (2 : ℝ) ^ e := by
          rw [← zpow_natCast, ← zpow_natCast, ← zpow_add₀ two_ne_zero, ← zpow_add₀ two_ne_zero, hE]
          congr 1
          ring
      _ ≤ m * (2 : ℝ) ^ e := by gcongr
  high := by
    have hlog : (m : ℝ) ≤ (2 : ℝ) ^ (Nat.log2 m + 1) := by exact_mod_cast (Nat.lt_log2_self (n := m)).le
    have hE : e + (Nat.log2 m : Int) - F.fb ≤ F.lastExp m e := le_max_right _ _
    calc (m : ℝ) * (2 : ℝ) ^ e ≤ (2 : ℝ) ^ (Nat.log2 m + 1) * (2 : ℝ) ^ e := by gcongr
      _ = (2 : ℝ) ^ ((Nat.log2 m : Int) + 1 + e) := by
          rw [← zpow_natCast, ← zpow_add₀ two_ne_zero]
          push_cast
          rfl
      _ ≤ (2 : ℝ) ^ (((F.fb + 1 : Nat) : Int) + F.lastExp m e) := zpow_le_zpow_right₀ one_le_two (by omega)
      _ = _ := by rw [zpow_add₀ two_ne_zero, zpow_natCast]
  near := (F.kept_error m e).trans_eq (zpow_sub_one₀ two_ne_zero _)
  even := F.kept_even

/-- A finite value other than zero, rounded once. -/
theorem Fmt.rounds_fin (hF : F.Wide) (neg : Bool) (e : Int) (hm : m ≠ 0) :
    F.Rounds (FVal.fin neg m e).real (F.pack neg (F.roundMag m e)) := by
  have hm' : (0 : ℝ) < m := by exact_mod_cast Nat.pos_of_ne_zero hm
  rw [FVal.real_fin, F.roundMag_eq e hm]
  exact (F.keeps_lastExp e hm).rounds hF (by positivity) neg

theorem FVal.real_fin_natAbs (x : Int) (e : Int) : (FVal.fin (decide (x < 0)) x.natAbs e).real = (x : ℝ) * (2 : ℝ) ^ e := by
  rw [FVal.real_fin, ← mul_assoc, Nat.cast_natAbs, Int.cast_abs]
  congr 1
  rcases lt_or_ge x 0 with h | h
  · rw [if_pos (decide_eq_true h), abs_of_neg (by exact_mod_cast h), neg_one_mul, neg_neg]
  · rw [if_neg (by simpa using h), abs_of_nonneg (by exact_mod_cast h), one_mul]

theorem Fmt.rounds_roundInt (hF : F.Wide) (neg : Bool) (e : Int) {x : Int} (hx : x ≠ 0) :
    F.Rounds ((x : ℝ) * (2 : ℝ) ^ e) (F.roundInt neg x e) := by
  rw [Fmt.roundInt, if_neg hx, ← FVal.real_fin_natAbs]
  exact F.rounds_fin hF _ e (Int.natAbs_ne_zero.2 hx)

/-! ## Addition and multiplication -/

/-- Settles O42: the sum of the significands at the lower exponent is the exact sum. -/
theorem addRounds : Obligations.AddRounds := by
  intro F hF nan a b ha hb hsum
  obtain ⟨m, e, hu⟩ := F.unpack_finite ha
  obtain ⟨n, g, hv⟩ := F.unpack_finite hb
  have hx : ((alignTo (min e g) (F.sign a) m e + alignTo (min e g) (F.sign b) n g : Int) : ℝ) * (2 : ℝ) ^ min e g =
      F.real a + F.real b := by
    push_cast
    rw [add_mul, alignTo_real _ _ _ _ (min_le_left _ _), alignTo_real _ _ _ _ (min_le_right _ _), F.real_of_unpack hu,
      F.real_of_unpack hv]
  rw [← hx] at hsum ⊢
  simp only [Fmt.add, hu, hv]
  exact F.rounds_roundInt (F.wide_of_mem hF) _ _ (by exact_mod_cast left_ne_zero_of_mul hsum)

theorem signed_mul_signed (s t : Bool) (x y : ℝ) :
    (if s then -1 else 1) * x * ((if t then -1 else 1) * y) = (if s != t then -1 else 1) * (x * y) := by
  cases s <;> cases t <;> simp

/-- Settles O43: the product of the significands at the sum of the exponents is the exact product. -/
theorem mulRounds : Obligations.MulRounds := by
  intro F hF nan a b ha hb hprod
  obtain ⟨m, e, hu, hm⟩ := F.unpack_finite_ne ha (left_ne_zero_of_mul hprod)
  obtain ⟨n, g, hv, hn⟩ := F.unpack_finite_ne hb (right_ne_zero_of_mul hprod)
  have hx : (FVal.fin (F.sign a != F.sign b) (m * n) (e + g)).real = F.real a * F.real b := by
    rw [F.real_of_unpack hu, F.real_of_unpack hv, FVal.real_fin, FVal.real_fin, FVal.real_fin, signed_mul_signed,
      zpow_add₀ two_ne_zero]
    push_cast
    ring
  rw [← hx]
  simp only [Fmt.mul, hu, hv]
  exact F.rounds_fin (F.wide_of_mem hF) _ _ (Nat.mul_ne_zero hm hn)

/-! ## Division -/

theorem abs_sub_le_half_iff {u : ℝ} : |(q : ℝ) * u - v| ≤ u / 2 ↔
    ((2 * q - 1 : Int) : ℝ) * (u / 2) ≤ v ∧ v ≤ ((2 * q + 1 : Int) : ℝ) * (u / 2) := by
  push_cast
  rw [abs_le]
  constructor <;> rintro ⟨h1, h2⟩ <;> constructor <;> linarith

theorem abs_sub_eq_half_iff {u : ℝ} (hu : 0 < u) : |(q : ℝ) * u - v| = u / 2 ↔
    v = ((2 * q - 1 : Int) : ℝ) * (u / 2) ∨ v = ((2 * q + 1 : Int) : ℝ) * (u / 2) := by
  push_cast
  rw [abs_eq (half_pos hu).le]
  constructor <;> rintro (h | h)
  · exact .inl (by linarith)
  · exact .inr (by linarith)
  · exact .inl (by linarith)
  · exact .inr (by linarith)

/-- Two reals that lie alike to every whole number of half units round alike. -/
theorem Fmt.Keeps.congr (h : F.Keeps w E q) (hle : ∀ c : Int, v ≤ c * ((2 : ℝ) ^ E / 2) ↔ w ≤ c * ((2 : ℝ) ^ E / 2))
    (hge : ∀ c : Int, c * ((2 : ℝ) ^ E / 2) ≤ v ↔ c * ((2 : ℝ) ^ E / 2) ≤ w) : F.Keeps v E q where
  emin_le := h.emin_le
  low := fun hE => by
    have hc : (2 : ℝ) ^ F.fb * (2 : ℝ) ^ E = ((2 ^ (F.fb + 1) : Int) : ℝ) * ((2 : ℝ) ^ E / 2) := by push_cast; ring
    rw [hc, hge, ← hc]
    exact h.low hE
  high := by
    have hc : (2 : ℝ) ^ (F.fb + 1) * (2 : ℝ) ^ E = ((2 ^ (F.fb + 2) : Int) : ℝ) * ((2 : ℝ) ^ E / 2) := by push_cast; ring
    rw [hc, hle, ← hc]
    exact h.high
  near := by
    rw [abs_sub_le_half_iff, hle, hge, ← abs_sub_le_half_iff]
    exact h.near
  even := by
    have heq : ∀ c : Int, v = c * ((2 : ℝ) ^ E / 2) ↔ w = c * ((2 : ℝ) ^ E / 2) := fun c => by
      rw [le_antisymm_iff, le_antisymm_iff, hle, hge]
    rw [abs_sub_eq_half_iff (by positivity), heq, heq, ← abs_sub_eq_half_iff (by positivity)]
    exact h.even

/-- The scaled quotient is the floor and the ceiling of the exact one together. -/
theorem stickyQuot_eq (k m : Nat) (hn : n ≠ 0) :
    (stickyQuot k m n : Int) = ⌊((m * 2 ^ k : Nat) : ℝ) / n⌋ + ⌈((m * 2 ^ k : Nat) : ℝ) / n⌉ := by
  have hn' : (n : ℝ) ≠ 0 := by exact_mod_cast hn
  have hfloor : ⌊((m * 2 ^ k : Nat) : ℝ) / n⌋ = (m * 2 ^ k / n : Nat) := by
    rw [Int.floor_div_natCast, Int.floor_natCast]
    rfl
  rw [stickyQuot, hfloor]
  split_ifs with h
  · have hdvd := Nat.dvd_of_mod_eq_zero h
    rw [← Nat.cast_div hdvd hn', Int.ceil_natCast]
    omega
  · have hceil : ⌈((m * 2 ^ k : Nat) : ℝ) / n⌉ = ⌊((m * 2 ^ k : Nat) : ℝ) / n⌋ + 1 := by
      rw [Int.ceil_eq_floor_add_one_iff_notMem]
      rintro ⟨c, hc⟩
      rw [eq_div_iff hn'] at hc
      have hc : c * (n : Int) = (m * 2 ^ k : Nat) := by exact_mod_cast hc
      exact h (Nat.mod_eq_zero_of_dvd (Int.natCast_dvd_natCast.1 ⟨c, by rw [← hc, mul_comm]⟩))
    rw [hceil, hfloor]
    push_cast
    omega

/-- The scaled quotient lies to every even number as twice the exact quotient does. -/
theorem stickyQuot_le_iff (k m : Nat) (hn : n ≠ 0) (c : Int) :
    (stickyQuot k m n : Int) ≤ 2 * c ↔ ((m * 2 ^ k : Nat) : ℝ) / n ≤ c := by
  have h := Int.ceil_le_floor_add_one (((m * 2 ^ k : Nat) : ℝ) / n)
  have h' := Int.floor_le_ceil (((m * 2 ^ k : Nat) : ℝ) / n)
  rw [stickyQuot_eq k m hn, ← Int.ceil_le]
  omega

theorem le_stickyQuot_iff (k m : Nat) (hn : n ≠ 0) (c : Int) :
    2 * c ≤ (stickyQuot k m n : Int) ↔ (c : ℝ) ≤ ((m * 2 ^ k : Nat) : ℝ) / n := by
  have h := Int.ceil_le_floor_add_one (((m * 2 ^ k : Nat) : ℝ) / n)
  have h' := Int.floor_le_ceil (((m * 2 ^ k : Nat) : ℝ) / n)
  rw [stickyQuot_eq k m hn, ← Int.le_floor]
  omega

/-- The scaled quotient has more bits than the format keeps. -/
theorem Fmt.le_log2_stickyQuot (F : Fmt) (hm : m ≠ 0) (hn : n ≠ 0) :
    F.fb + 4 ≤ Nat.log2 (stickyQuot (F.divScale n) m n) := by
  have hquot : 2 ^ (F.fb + 3) ≤ m * 2 ^ F.divScale n / n := by
    rw [Nat.le_div_iff_mul_le (Nat.pos_of_ne_zero hn)]
    calc 2 ^ (F.fb + 3) * n ≤ 2 ^ (F.fb + 3) * 2 ^ (Nat.log2 n + 1) := Nat.mul_le_mul_left _ Nat.lt_log2_self.le
      _ = 2 ^ F.divScale n := by rw [← pow_add, Fmt.divScale]; congr 1; omega
      _ ≤ m * 2 ^ F.divScale n := Nat.le_mul_of_pos_left _ (Nat.pos_of_ne_zero hm)
  have hsticky : 2 ^ (F.fb + 4) ≤ stickyQuot (F.divScale n) m n := by
    rw [stickyQuot, pow_succ']
    omega
  exact (Nat.le_log2 (by have := Nat.two_pow_pos (F.fb + 4); omega)).2 hsticky

theorem Fmt.stickyQuot_ne_zero (F : Fmt) (hm : m ≠ 0) (hn : n ≠ 0) : stickyQuot (F.divScale n) m n ≠ 0 := fun h0 => by
  have := F.le_log2_stickyQuot hm hn
  rw [h0, Nat.log2_zero] at this
  omega

/-- The exact quotient is rounded as its scaled integer approximation is: no point where rounding turns lies between them. -/
theorem Fmt.keeps_quotient (F : Fmt) (e : Int) (hm : m ≠ 0) (hn : n ≠ 0) {k Q : Nat} (hk : F.divScale n = k)
    (hQ : stickyQuot k m n = Q) :
    F.Keeps (((m * 2 ^ k : Nat) : ℝ) / n * (2 : ℝ) ^ e) (F.lastExp Q (e - 1)) (F.kept Q (e - 1)) := by
  have hlog := F.le_log2_stickyQuot hm hn
  rw [hk, hQ] at hlog
  obtain ⟨j, hj⟩ : ∃ j : Nat, F.lastExp Q (e - 1) = e + (j + 1) := by
    have : e - 1 + (Nat.log2 Q : Int) - F.fb ≤ F.lastExp Q (e - 1) := le_max_right _ _
    exact ⟨(F.lastExp Q (e - 1) - e - 1).toNat, by omega⟩
  have hQ0 : Q ≠ 0 := by
    rw [← hQ, ← hk]
    exact F.stickyQuot_ne_zero hm hn
  have he : (0 : ℝ) < (2 : ℝ) ^ e := by positivity
  -- half a unit of the last place is a whole number of units of the exact quotient
  have hhalf : ∀ c : Int, (c : ℝ) * ((2 : ℝ) ^ F.lastExp Q (e - 1) / 2) = ((c * 2 ^ j : Int) : ℝ) * (2 : ℝ) ^ e := fun c => by
    rw [hj, ← add_assoc, zpow_add_one₀ two_ne_zero, zpow_add₀ two_ne_zero, zpow_natCast]
    push_cast
    ring
  have hQe : (Q : ℝ) * (2 : ℝ) ^ (e - 1) = Q / 2 * (2 : ℝ) ^ e := by
    rw [zpow_sub_one₀ two_ne_zero]
    ring
  refine (F.keeps_lastExp (e - 1) hQ0).congr (fun c => ?_) (fun c => ?_)
  · rw [hhalf, hQe, mul_le_mul_iff_left₀ he, mul_le_mul_iff_left₀ he, ← stickyQuot_le_iff k m hn, hQ,
      div_le_iff₀ two_pos, mul_comm]
    norm_cast
  · rw [hhalf, hQe, mul_le_mul_iff_left₀ he, mul_le_mul_iff_left₀ he, ← le_stickyQuot_iff k m hn, hQ,
      le_div_iff₀ two_pos, mul_comm]
    norm_cast

theorem signed_div_signed (s t : Bool) (x y : ℝ) :
    (if s then -1 else 1) * x / ((if t then -1 else 1) * y) = (if s != t then -1 else 1) * (x / y) := by
  cases s <;> cases t <;> simp [neg_div, div_neg]

/-- Settles O44: the exact quotient has the same kept significand as the scaled integer quotient. -/
theorem divRounds : Obligations.DivRounds := by
  intro F hF nan a b ha hb ha0 hb0
  obtain ⟨m, e, hu, hm⟩ := F.unpack_finite_ne ha ha0
  obtain ⟨n, g, hv, hn⟩ := F.unpack_finite_ne hb hb0
  have hm' : (0 : ℝ) < m := by exact_mod_cast Nat.pos_of_ne_zero hm
  have hn' : (0 : ℝ) < n := by exact_mod_cast Nat.pos_of_ne_zero hn
  have hkeeps := F.keeps_quotient (e - g - (F.divScale n : Int)) hm hn rfl rfl
  have hx : ((m * 2 ^ F.divScale n : Nat) : ℝ) / n * (2 : ℝ) ^ (e - g - (F.divScale n : Int)) =
      m * (2 : ℝ) ^ e / (n * (2 : ℝ) ^ g) := by
    rw [zpow_sub₀ two_ne_zero, zpow_sub₀ two_ne_zero, zpow_natCast]
    push_cast
    field_simp
  rw [hx] at hkeeps
  rw [F.real_of_unpack hu, F.real_of_unpack hv, FVal.real_fin, FVal.real_fin, signed_div_signed]
  simp only [Fmt.div, hu, hv, if_neg hn]
  rw [F.roundMag_eq _ (F.stickyQuot_ne_zero hm hn)]
  exact hkeeps.rounds (F.wide_of_mem hF) (by positivity) _

/-! ## Conversions -/

theorem toNat_u2f64 (k : Nat) : (u2f64 k).toNat = f64.roundMag k 0 := toNat_roundMag64 k 0

theorem toNat_u2f32 (k : Nat) : (u2f32 k).toNat = f32.roundMag k 0 := toNat_roundMag32 k 0

theorem Fmt.finite_roundMag (h : F.roundMag m e < F.infMag) : F.finite (F.roundMag m e) = true := by
  rw [Fmt.finite, F.mag_roundMag]
  exact decide_eq_true h

theorem u2f64_exact (h : k < 2 ^ 53) : finite64 (u2f64 k) = true ∧ real64 (u2f64 k) = k := by
  have hk : (k : ℝ) * (2 : ℝ) ^ (0 : Int) < (2 : ℝ) ^ (53 : Int) := by
    rw [zpow_zero, mul_one]
    exact_mod_cast h
  have hfin : f64.roundMag k 0 < f64.infMag := f64.roundMag_lt_infMag hk (by decide) (by decide)
  rw [finite64, real64, toNat_u2f64, f64.real_roundMag hfin, f64.roundMag_exact h (by decide) hfin, zpow_zero, mul_one]
  exact ⟨Fmt.finite_roundMag hfin, rfl⟩

theorem u2f32_exact (h : k ≤ 2 ^ 24) : finite32 (u2f32 k) = true ∧ real32 (u2f32 k) = k := by
  rcases h.lt_or_eq with hlt | rfl
  · have hk : (k : ℝ) * (2 : ℝ) ^ (0 : Int) < (2 : ℝ) ^ (24 : Int) := by
      rw [zpow_zero, mul_one]
      exact_mod_cast hlt
    have hfin : f32.roundMag k 0 < f32.infMag := f32.roundMag_lt_infMag hk (by decide) (by decide)
    rw [finite32, real32, toNat_u2f32, f32.real_roundMag hfin, f32.roundMag_exact hlt (by decide) hfin, zpow_zero, mul_one]
    exact ⟨Fmt.finite_roundMag hfin, rfl⟩
  · refine ⟨by decide, ?_⟩
    rw [real32, Fmt.real, show f32.unpack (u2f32 (2 ^ 24)).toNat = .fin false (2 ^ 23) 1 by decide]
    norm_num [FVal.real]

theorem Fmt.unpack_finite_bounds (h : F.finite a = true) : ∃ m e, F.unpack a = .fin (F.sign a) m e ∧
    m < 2 ^ (F.fb + 1) ∧ F.emin ≤ e ∧ (m : ℝ) * (2 : ℝ) ^ e = F.magReal (F.mag a) :=
  ⟨_, _, if_pos (of_decide_eq_true h), F.magVal_lt _, F.emin_le_magVal _, rfl⟩

theorem magReal_infMag32 : f32.magReal f32.infMag = (2 : ℝ) ^ (128 : Int) := by
  rw [Fmt.magReal, show f32.magVal f32.infMag = (2 ^ 23, 105) by decide]
  norm_num

/-- Every binary32 number is a binary64 number. -/
theorem cvt32to64_exact (n : F64) {a : F32} (h : finite32 a = true) :
    finite64 (cvt32to64 n a) = true ∧ real64 (cvt32to64 n a) = real32 a := by
  obtain ⟨m, e, hu, hm, he, hreal⟩ := Fmt.unpack_finite_bounds h
  have hlt : (m : ℝ) * (2 : ℝ) ^ e < (2 : ℝ) ^ (128 : Int) := by
    rw [hreal, ← magReal_infMag32]
    exact f32.magReal_strictMono (of_decide_eq_true h)
  have hfin : f64.roundMag m e < f64.infMag := f64.roundMag_lt_infMag hlt (by decide) (by decide)
  have hto : (cvt32to64 n a).toNat = f64.pack (f32.sign a.toNat) (f64.roundMag m e) := by
    rw [toNat_cvt32to64, Fmt.convert, hu]
  rw [finite64, real64, hto, f64.real_pack _ hfin, f64.roundMag_exact (hm.trans_le (by decide)) (le_trans (by decide) he) hfin,
    real32, f32.real_of_unpack hu, FVal.real_fin, Fmt.finite, f64.mag_pack _ (f64.roundMag_lt m e)]
  exact ⟨decide_eq_true hfin, rfl⟩

theorem cvt64to32_rounds (n : F32) {x : F64} (h : finite64 x = true) (hx : real64 x ≠ 0) :
    f32.Rounds (real64 x) (cvt64to32 n x).toNat := by
  obtain ⟨m, e, hu, hm⟩ := Fmt.unpack_finite_ne h hx
  rw [toNat_cvt64to32, Fmt.convert, hu, real64, Fmt.real_of_unpack hu]
  exact Fmt.rounds_fin (Fmt.wide_of_mem (by decide)) _ e hm

/-- Settles O45: narrowing is one rounding, and what the wider format holds is not changed. -/
theorem conversions : Obligations.Conversions :=
  ⟨fun n _ => cvt64to32_rounds n, fun n _ => cvt32to64_exact n, fun _ => u2f64_exact, u2f32_exact fs_bounds.2,
    u2f64_exact (fs_bounds.2.trans_lt (by decide))⟩

end Sys2Proof.Machine
end

section
/-! SUPPORT. What a command has done when it ends in a next state: one case for each way a command ends, cited instead of unfolding the meanings. -/

namespace Sys2Proof.Machine

variable {I : Impl} {s t u : State} {i : Instr}

/-! ## How a command ends -/

/-- The ways in which a command takes `s` to a next state, with the checks it has passed (R205). -/
inductive Effect (I : Impl) (s : State) : Instr → State → Prop
  /-- R207. -/
  | refused {i : Instr} (hfault : s.fault = true) : Effect I s i (refuseFaulted s)
  /-- R206. -/
  | faulted {i : Instr} (e : ErrCode) : Effect I s i (enterFault e s)
  /-- R100. -/
  | cfg {m ch : BitVec 2} {firEn : Bool} {f r : F32} {mode : Mode} {tab : List (F32 × F32)} (hlive : s.fault = false)
      (hnew : s.cfgv = false) (hmode : modeOf m = some mode) (hcombo : legalCombo mode ch firEn = true)
      (hfreq : freqOk I s.draws f = true) (hrate : mode ≠ .carrier → rateOk r = true)
      (htab : buildTable I s.draws mode f = some tab) :
      Effect I s (.cfg m ch firEn f r) (respondOk (BitVec.ofNat 32 tab.length) 0 (commit I mode ch firEn f r tab s))
  /-- R110. -/
  | pwr {p : F32} (hlive : s.fault = false) (hp : powerOk p = true) :
      Effect I s (.pwr p) (respondOk (fdiv32 (I.nan32 s.draws) p hundred32) 0
        { s with txp := fdiv32 (I.nan32 s.draws) p hundred32, pwrv := true })
  /-- R110, R204. -/
  | rejected {p : F32} (hlive : s.fault = false) (hp : powerOk p = false) : Effect I s (.pwr p) (respondRej s)
  /-- R111. -/
  | onext {a q : F32} (hlive : s.fault = false) (hcfg : s.cfgv = true) (ha : readTi I s = .ok a)
      (hq : readQ I s = .ok q) : Effect I s .onext (respondOk a q (advance s))
  /-- R136. -/
  | fpush {x y : F32} {u : State} (hlive : s.fault = false) (hcfg : s.cfgv = true) (hfir : s.firen = true)
      (hpush : firPush I x s = .ok (y, u)) : Effect I s (.fpush x) (respondOk y 0 u)
  /-- R150. -/
  | step {c0 c1 o : F32} {u : State} (hlive : s.fault = false) (hcfg : s.cfgv = true) (hpwr : s.pwrv = true)
      (hsample : sample I c0 c1 s = .ok (o, u)) : Effect I s (.step c0 c1) (respondOk o 0 u)
  /-- R170. -/
  | audw {c0 c1 : F32} (hlive : s.fault = false) (hcfg : s.cfgv = true) (hmode : s.mode ≠ .carrier)
      (hroom : s.afill.toNat < I.abufMax) :
      Effect I s (.audw c0 c1) (respondOk (s.afill + 1) 0
        { s with abuf := s.abuf.write s.afill.toNat ⟨c0, c1⟩, afill := s.afill + 1 })
  /-- R172. -/
  | carrierBlock {u : State} (hlive : s.fault = false) (hcfg : s.cfgv = true) (hpwr : s.pwrv = true)
      (hmode : s.mode = .carrier) (hblock : carrierBlock I I.blockSize s = .ok u) :
      Effect I s .block (respondOk (BitVec.ofNat 32 I.blockSize) 0 u)
  /-- R173. -/
  | audioBlock {u : State} (hlive : s.fault = false) (hcfg : s.cfgv = true) (hpwr : s.pwrv = true)
      (hmode : s.mode ≠ .carrier) (hblock : audioBlock I s.afill.toNat 0 s = .ok u) :
      Effect I s .block (respondOk s.afill 0 (dropFrames u))
  /-- R185. -/
  | stop {reason : BitVec 8} (hreason : reasonDefined reason = true) :
      Effect I s (.stop reason) (respondOk 0 0 (tearDown reason s))
  /-- R186. -/
  | rdreg {n : BitVec 8} {v : Word} (hv : readReg s n = some v) : Effect I s (.rdreg n) (respondOk v 0 s)

theorem unlessFaulted_next {r : Result} : unlessFaulted s r = .next t ↔
    (s.fault = true ∧ t = refuseFaulted s) ∨ (s.fault = false ∧ r = .next t) := by
  cases hf : s.fault <;> simp [unlessFaulted, hf, eq_comm]

theorem Effect.of_unlessFaulted {r : Result} (h : unlessFaulted s r = .next t)
    (hlive : s.fault = false → r = .next t → Effect I s i t) : Effect I s i t := by
  obtain ⟨hf, rfl⟩ | ⟨hf, hr⟩ := unlessFaulted_next.1 h
  · exact .refused hf
  · exact hlive hf hr

theorem Effect.of_raiseFault {e : ErrCode} (h : raiseFault e s = .next t) : Effect I s i t := by
  cases h
  exact .faulted e

theorem cfgOn_effect {m ch : BitVec 2} {firEn : Bool} {f r : F32} (h : cfgOn I m ch firEn f r s = .next t) :
    Effect I s (.cfg m ch firEn f r) t := by
  refine .of_unlessFaulted h fun hlive h => ?_
  cases hmode : modeOf m with
  | none =>
    rw [hmode] at h
    exact .of_raiseFault h
  | some mode =>
    simp only [hmode] at h
    split_ifs at h with hnew hcombo hfreq hrate
    iterate 4 exact .of_raiseFault h
    cases htab : buildTable I s.draws mode f with
    | none =>
      rw [htab] at h
      exact .of_raiseFault h
    | some tab =>
      rw [htab] at h
      cases h
      exact .cfg hlive (by simpa using hnew) hmode (by simpa using hcombo) (by simpa using hfreq)
        (by simpa using hrate) htab

theorem pwrOn_effect {p : F32} (h : pwrOn I p s = .next t) : Effect I s (.pwr p) t := by
  refine .of_unlessFaulted h fun hlive h => ?_
  split_ifs at h with hp
  · cases h
    exact .pwr hlive hp
  · cases h
    exact .rejected hlive (by simpa using hp)

theorem onextOn_effect (h : onextOn I s = .next t) : Effect I s .onext t := by
  refine .of_unlessFaulted h fun hlive h => ?_
  split_ifs at h with hcfg
  · exact .of_raiseFault h
  · obtain ⟨a, ha, h⟩ := bind_ok.1 (finish_next.1 h)
    obtain ⟨q, hq, h⟩ := bind_ok.1 h
    cases h
    exact .onext hlive (by simpa using hcfg) ha hq

theorem fpushOn_effect {x : F32} (h : fpushOn I x s = .next t) : Effect I s (.fpush x) t := by
  refine .of_unlessFaulted h fun hlive h => ?_
  split_ifs at h with hcfg hfir
  · exact .of_raiseFault h
  · exact .of_raiseFault h
  · obtain ⟨⟨y, u⟩, hpush, h⟩ := bind_ok.1 (finish_next.1 h)
    cases h
    exact .fpush hlive (by simpa using hcfg) (by simpa using hfir) hpush

theorem stepOn_effect {c0 c1 : F32} (h : stepOn I c0 c1 s = .next t) : Effect I s (.step c0 c1) t := by
  refine .of_unlessFaulted h fun hlive h => ?_
  split_ifs at h with hcfg hpwr
  · exact .of_raiseFault h
  · exact .of_raiseFault h
  · obtain ⟨⟨o, u⟩, hsample, h⟩ := bind_ok.1 (finish_next.1 h)
    cases h
    exact .step hlive (by simpa using hcfg) (by simpa using hpwr) hsample

theorem audwOn_effect {c0 c1 : F32} (h : audwOn I c0 c1 s = .next t) : Effect I s (.audw c0 c1) t := by
  refine .of_unlessFaulted h fun hlive h => ?_
  split_ifs at h with hcfg hmode hfull
  · exact .of_raiseFault h
  · exact .of_raiseFault h
  · exact .of_raiseFault h
  · obtain ⟨m, hm, h⟩ := bind_ok.1 (finish_next.1 h)
    obtain ⟨hroom, rfl⟩ := writeEntry_ok.1 hm
    cases h
    exact .audw hlive (by simpa using hcfg) hmode hroom

theorem blockOn_effect (h : blockOn I s = .next t) : Effect I s .block t := by
  refine .of_unlessFaulted h fun hlive h => ?_
  split_ifs at h with hcfg hpwr hmode
  · exact .of_raiseFault h
  · exact .of_raiseFault h
  · obtain ⟨u, hblock, h⟩ := bind_ok.1 (finish_next.1 h)
    cases h
    exact .carrierBlock hlive (by simpa using hcfg) (by simpa using hpwr) hmode hblock
  · obtain ⟨u, hblock, h⟩ := bind_ok.1 (finish_next.1 h)
    cases h
    exact .audioBlock hlive (by simpa using hcfg) (by simpa using hpwr) hmode hblock

theorem execStop_effect {reason : BitVec 8} (h : execStop reason s = .next t) : Effect I s (.stop reason) t := by
  unfold execStop at h
  split_ifs at h with hreason
  · cases h
    exact .stop hreason
  · exact .of_raiseFault h

theorem execRdreg_effect {n : BitVec 8} (h : execRdreg n s = .next t) : Effect I s (.rdreg n) t := by
  unfold execRdreg at h
  cases hv : readReg s n with
  | none =>
    rw [hv] at h
    exact .of_raiseFault h
  | some v =>
    rw [hv] at h
    cases h
    exact .rdreg hv

/-- What a command of the hardware has done when it ends in a next state. -/
theorem exec_effect (h : exec i s = .next t) : Effect impl s i t := by
  cases i with
  | cfg mode ch firEn arg0 arg1 => exact cfgOn_effect h
  | pwr arg0 => exact pwrOn_effect h
  | onext => exact onextOn_effect h
  | fpush arg0 => exact fpushOn_effect h
  | step arg0 arg1 => exact stepOn_effect h
  | audw arg0 arg1 => exact audwOn_effect h
  | block => exact blockOn_effect h
  | stop reason => exact execStop_effect h
  | rdreg reg => exact execRdreg_effect h

/-- What a transferred command does: a command decoded, or a word that is none. -/
theorem runCommand_next {c : Command} (h : runCommand c s = .next t) :
    (∃ i, decode c = .ok i ∧ Effect impl s i t) ∨ t = enterFault .illegal s ∨ (s.fault = true ∧ t = refuseFaulted s) := by
  unfold runCommand at h
  cases hd : decode c with
  | ok i =>
    rw [hd] at h
    exact .inl ⟨i, rfl, exec_effect h⟩
  | error e =>
    rw [hd] at h
    simp only [illegalWord] at h
    split_ifs at h
    · cases h
      exact .inr (.inl rfl)
    · obtain ⟨hf, rfl⟩ | ⟨-, h⟩ := unlessFaulted_next.1 h
      · exact .inr (.inr ⟨hf, rfl⟩)
      · cases h
        exact .inr (.inl rfl)

/-! ## Samples one after another -/

/-- `t` comes from `s` by producing samples, for whatever channel samples. -/
def Samples (I : Impl) : State → State → Prop :=
  Relation.ReflTransGen fun s t => ∃ c0 c1 o, sample I c0 c1 s = .ok (o, t)

theorem Samples.of_sample {c0 c1 o : F32} (h : sample I c0 c1 s = .ok (o, t)) : Samples I s t :=
  Relation.ReflTransGen.single ⟨c0, c1, o, h⟩

theorem carrierBlock_samples {n : Nat} (h : carrierBlock I n s = .ok t) : Samples I s t := by
  induction n generalizing s with
  | zero =>
    cases h
    exact .refl
  | succ n ih =>
    obtain ⟨⟨o, u⟩, hu, h⟩ := bind_ok.1 h
    exact (Samples.of_sample hu).trans (ih h)

theorem audioBlock_samples {n j : Nat} (h : audioBlock I n j s = .ok t) : Samples I s t := by
  induction n generalizing j s with
  | zero =>
    cases h
    exact .refl
  | succ n ih =>
    obtain ⟨fr, -, h⟩ := bind_ok.1 h
    obtain ⟨⟨o, u⟩, hu, h⟩ := bind_ok.1 h
    exact (Samples.of_sample hu).trans (ih h)

theorem Samples.frame (h : Samples I s t) : SampleFrame s t := by
  induction h with
  | refl => exact .refl s
  | tail _ hstep ih =>
    obtain ⟨c0, c1, o, hu⟩ := hstep
    exact ih.trans (sample_frame hu).1

/-- What producing samples can change, with the values it is changed to. -/
theorem SampleFrame.exists_eq (h : SampleFrame s t) : ∃ phase ovr hist wr out draws,
    t = { s with phase := phase, ovr := ovr, hist := hist, wr := wr, out := out, draws := draws } :=
  ⟨_, _, _, _, _, _, h⟩

theorem SampleFrame.advance (s : State) : SampleFrame s (advance s) := rfl

/-- A push changes nothing a sample does not, and keeps the phase. -/
theorem firPush_frame {x y : F32} (h : firPush I x s = .ok (y, t)) : SampleFrame s t ∧ t.phase = s.phase := by
  obtain ⟨-, -, rfl⟩ := firPush_ok.1 h
  exact ⟨rfl, rfl⟩

end Sys2Proof.Machine
end

section
/-! SUPPORT. The power factor lies in [0, 1] (R30): an accepted power, divided by 100 and rounded once, passes neither bound. -/

namespace Sys2Proof.Machine

variable {n p : F32}

theorem real32_zero : real32 0 = 0 := by
  rw [real32, f32.real_of_unpack (show f32.unpack ((0 : F32).toNat) = .fin false 0 (-149) by decide), FVal.real_fin_eq_zero]

theorem real32_one32 : real32 one32 = 1 := by
  rw [real32, f32.real_of_unpack (show f32.unpack one32.toNat = .fin false (2 ^ 23) (-23) by decide)]
  norm_num [FVal.real]

theorem real32_hundred32 : real32 hundred32 = 100 := by
  rw [real32, f32.real_of_unpack (show f32.unpack hundred32.toNat = .fin false (25 * 2 ^ 19) (-17) by decide)]
  norm_num [FVal.real]

theorem one_lt_overflowAt32 : 1 < f32.overflowAt := by
  rw [Fmt.overflowAt, show f32.emin + ((2 ^ f32.eb : Nat) : Int) - 4 = 103 by decide]
  norm_num [f32]

/-- An accepted power is a number from 0 to 100 (R110). -/
theorem powerOk_bounds (h : powerOk p = true) : finite32 p = true ∧ 0 ≤ real32 p ∧ real32 p ≤ 100 := by
  obtain ⟨h0, h100⟩ : fle32 0 p = true ∧ fle32 p hundred32 = true := by simpa [powerOk] using h
  have hnan : f32.isNan p.toNat = false := by
    by_contra hn
    simp [fle32, Fmt.le, hn] at h0
  have hfin : finite32 p = true := by
    have hk0 := (f32.le_iff_key (by decide) hnan).1 h0
    have hk100 := (f32.le_iff_key hnan (by decide)).1 h100
    have hmag := f32.natAbs_key p.toNat
    rw [show f32.key ((0 : F32).toNat) = 0 by decide] at hk0
    rw [show f32.key hundred32.toNat = 0x42C80000 by decide] at hk100
    rw [finite32, Fmt.finite, decide_eq_true_eq, show f32.infMag = 0x7F800000 by decide]
    omega
  refine ⟨hfin, ?_, ?_⟩
  · rw [← real32_zero]
    exact (Fmt.le_iff_real (by decide) hfin).1 h0
  · rw [← real32_hundred32]
    exact (Fmt.le_iff_real hfin (by decide)).1 h100

/-- Rounding to nearest does not pass a number of the format: not a lower bound, and not an upper one. -/
theorem Fmt.Rounds.le_real {F : Fmt} {x : ℝ} {r y : Nat} (h : F.Rounds x r) (hx : |x| < F.overflowAt) (hy : F.finite y = true)
    (hyx : F.real y ≤ x) : F.real y ≤ F.real r := by
  have hn := h.nearest hx y hy
  rw [abs_of_nonpos (sub_nonpos.2 hyx)] at hn
  linarith [neg_le_abs (F.real r - x)]

theorem Fmt.Rounds.real_le {F : Fmt} {x : ℝ} {r y : Nat} (h : F.Rounds x r) (hx : |x| < F.overflowAt) (hy : F.finite y = true)
    (hyx : x ≤ F.real y) : F.real r ≤ F.real y := by
  have hn := h.nearest hx y hy
  rw [abs_of_nonneg (sub_nonneg.2 hyx)] at hn
  linarith [le_abs_self (F.real r - x)]

/-- A zero divided by 100 is a zero of its sign. -/
theorem fdiv32_hundred32_of_zero (hp : finite32 p = true) (h0 : real32 p = 0) :
    fdiv32 n p hundred32 = BitVec.ofNat 32 (f32.pack (f32.sign p.toNat) 0) := by
  obtain ⟨m, e, hu⟩ := f32.unpack_finite hp
  have hm : m = 0 := FVal.real_fin_eq_zero.1 ((f32.real_of_unpack hu).symm.trans h0)
  rw [fdiv32, Fmt.div, hu, show f32.unpack hundred32.toNat = .fin false (25 * 2 ^ 19) (-17) by decide]
  simp [hm]

/-- R30: the power factor of an accepted power lies in [0, 1]. -/
theorem powerFactor_bounds (n : F32) (h : powerOk p = true) :
    fle32 0 (fdiv32 n p hundred32) = true ∧ fle32 (fdiv32 n p hundred32) one32 = true := by
  obtain ⟨hfin, hlo, hhi⟩ := powerOk_bounds h
  rcases hlo.eq_or_lt with h0 | hpos
  · rw [fdiv32_hundred32_of_zero hfin h0.symm]
    cases f32.sign p.toNat <;> decide
  · have hround : f32.Rounds (real32 p / real32 hundred32) (fdiv32 n p hundred32).toNat := by
      rw [toNat_fdiv32]
      refine divRounds f32 (by decide) _ _ _ hfin (by decide) hpos.ne' ?_
      rw [← real32, real32_hundred32]
      norm_num
    rw [real32_hundred32] at hround
    have hx : |real32 p / 100| < f32.overflowAt := by
      rw [abs_of_pos (by positivity)]
      exact ((div_le_one (by norm_num)).2 hhi).trans_lt one_lt_overflowAt32
    have hq : finite32 (fdiv32 n p hundred32) = true := hround.finite hx
    refine ⟨(Fmt.le_iff_real (by decide) hq).2 (hround.le_real hx (by decide) ?_),
      (Fmt.le_iff_real hq (by decide)).2 (hround.real_le hx (by decide) ?_)⟩
    · rw [← real32, real32_zero]
      positivity
    · rw [← real32, real32_one32]
      linarith

end Sys2Proof.Machine
end

section
/-! SUPPORT. The invariants of R44: what each update of the state asks for so that they are kept. -/

namespace Sys2Proof.Machine

variable {I : Impl} {s t u : State} {i : Instr}

/-! ## Reset -/

theorem filterAbsent_reset : FilterAbsent State.reset where
  h := rfl
  hist := rfl
  wr := rfl

theorem unconfigured_reset : Unconfigured State.reset := by constructor <;> rfl

theorem inv_reset (I : Impl) : Inv I State.reset where
  mems := ⟨Mem.wf_nil, Mem.wf_nil, Mem.wf_nil, Mem.wf_nil, Mem.wf_nil⟩
  unconfigured _ := unconfigured_reset
  configured h := by cases h
  filterOn h := by cases h
  filterOff _ := filterAbsent_reset
  afill_le := Nat.zero_le _
  abuf := writtenBelow_nil
  afill_mode h := absurd h (by decide)
  noFault _ := rfl
  power h := by cases h

/-- Settles O9: nothing is configured, nothing is written, nothing has failed. -/
theorem invAtReset : Obligations.InvAtReset := inv_reset impl

/-! ## Updates that keep the invariants -/

/-- The fault flag and its code, the warning, the streams and the host's list are in no other invariant than R44 (e). -/
theorem Inv.bookkeeping (hI : Inv I s) {fault : Bool} {errcode : BitVec 8} (hfault : fault = false → errcode = 0)
    (ovr : Bool) (exitc : BitVec 8) (rsp : List Response) (out : List F32) (inputs : List Input) (draws : Nat) :
    Inv I { s with fault := fault, errcode := errcode, ovr := ovr, exitc := exitc, rsp := rsp, out := out,
                   inputs := inputs, draws := draws } :=
  { hI with
    mems := { hI.mems with }
    unconfigured := fun h => { hI.unconfigured h with }
    configured := fun h => { hI.configured h with }
    filterOn := fun h => { hI.filterOn h with }
    filterOff := fun h => { hI.filterOff h with }
    noFault := hfault }

theorem Inv.respond (hI : Inv I s) (c : BitVec 8) (d0 d1 : Word) : Inv I (respond c d0 d1 s) :=
  hI.bookkeeping hI.noFault _ _ _ _ _ _

theorem Inv.enterFault (hI : Inv I s) (e : ErrCode) : Inv I (enterFault e s) :=
  hI.bookkeeping (fun h => by cases h) _ _ _ _ _ _

theorem Inv.inputs (hI : Inv I s) (l : List Input) : Inv I { s with inputs := l } :=
  hI.bookkeeping hI.noFault _ _ _ _ _ _

theorem inv_tearDown (I : Impl) (reason : BitVec 8) (s : State) : Inv I (tearDown reason s) :=
  (inv_reset I).bookkeeping (fun _ => rfl) _ _ _ _ _ _

theorem inv_hardReset (I : Impl) (s : State) : Inv I (hardReset s) :=
  (inv_reset I).bookkeeping (fun _ => rfl) _ _ _ _ _ _

theorem Inv.setPower (hI : Inv I s) {q : F32} (hq : fle32 0 q = true ∧ fle32 q one32 = true) :
    Inv I { s with txp := q, pwrv := true } :=
  { hI with
    mems := { hI.mems with }
    unconfigured := fun h => { hI.unconfigured h with }
    configured := fun h => { hI.configured h with }
    filterOn := fun h => { hI.filterOn h with }
    filterOff := fun h => { hI.filterOff h with }
    power := fun _ => hq }

/-- A configured core may hold any frames that are stored in order and counted. -/
theorem Inv.setFrames (hI : Inv I s) (hcfg : s.cfgv = true) {m : Mem Frame} {n : Word} (hwf : m.wf)
    (hw : WrittenBelow m n.toNat) (hn : n.toNat ≤ I.abufMax) (hmode : 0 < n.toNat → s.mode ≠ .carrier) :
    Inv I { s with abuf := m, afill := n } :=
  { hI with
    mems := { hI.mems with abuf := hwf }
    unconfigured := fun h => nomatch hcfg.symm.trans h
    configured := fun h => { hI.configured h with }
    filterOn := fun h => { hI.filterOn h with }
    filterOff := fun h => { hI.filterOff h with }
    afill_le := hn
    abuf := hw
    afill_mode := hmode }

/-- R44 (c) and the canonical form, of the history and its cursor. -/
structure HistoryInv (I : Impl) (s : State) : Prop where
  wf  : s.hist.wf
  on  : s.firen = true → WrittenBelow s.hist I.len ∧ s.wr.toNat < I.len
  off : s.firen = false → s.hist = [] ∧ s.wr = 0

theorem Inv.history (hI : Inv I s) : HistoryInv I s :=
  ⟨hI.mems.hist, fun h => ⟨(hI.filterOn h).hist, (hI.filterOn h).wr_lt⟩,
    fun h => ⟨(hI.filterOff h).hist, (hI.filterOff h).wr⟩⟩

/-- Of what producing samples can change, the invariants ask that the phase stays in the table and the history in order. -/
theorem Inv.of_sampleFrame (hI : Inv I s) (hcfg : s.cfgv = true) (hframe : SampleFrame s t)
    (hphase : t.phase.toNat < s.tlen.toNat) (hhist : HistoryInv I t) : Inv I t := by
  obtain ⟨_, _, _, _, _, _, rfl⟩ := hframe.exists_eq
  exact { hI with
    mems := { hI.mems with hist := hhist.wf }
    unconfigured := fun h => nomatch hcfg.symm.trans h
    configured := fun h => { hI.configured h with phase_lt := hphase }
    filterOn := fun h => { hI.filterOn h with hist := (hhist.on h).1, wr_lt := (hhist.on h).2 }
    filterOff := fun h => { hI.filterOff h with hist := (hhist.off h).1, wr := (hhist.off h).2 } }

/-! ## The history under a push and a sample -/

theorem HistoryInv.push (hL : I.Legal) (hh : HistoryInv I s) (hfir : s.firen = true) {x y : F32}
    (h : firPush I x s = .ok (y, t)) : HistoryInv I t := by
  obtain ⟨hlt, -, rfl⟩ := firPush_ok.1 h
  exact ⟨Mem.write_wf _ _ _ hh.wf, fun _ => ⟨(hh.on hfir).1.write_inside hlt x, nextCursor_lt hL _⟩,
    fun hoff => nomatch hfir.symm.trans hoff⟩

theorem HistoryInv.modulate (hL : I.Legal) (hh : HistoryInv I s) {a c0 c1 o : F32}
    (h : modulate I a c0 c1 s = .ok (o, t)) : HistoryInv I t := by
  unfold Machine.modulate at h
  split at h
  · cases h
    exact { hh with }
  · obtain ⟨⟨b, u⟩, hu, h⟩ := bind_ok.1 h
    cases h
    suffices hu : HistoryInv I u from { hu with }
    have hs : HistoryInv I (skip 2 s) := { hh with }
    unfold filtered at hu
    split_ifs at hu with hfir
    · exact hs.push hL hfir hu
    · cases hu
      exact hs
  · obtain ⟨q, -, h⟩ := bind_ok.1 h
    cases h
    exact { hh with }

theorem Inv.sample (hL : I.Legal) (hI : Inv I s) (hcfg : s.cfgv = true) {c0 c1 o : F32}
    (h : sample I c0 c1 s = .ok (o, t)) : Inv I t := by
  obtain ⟨hframe, -, hphase, -⟩ := sample_frame h
  obtain ⟨a, u, -, -, hu, rfl⟩ := sample_ok.1 h
  exact hI.of_sampleFrame hcfg hframe (nextPhase_lt (hI.configured hcfg).phase_lt) { hI.history.modulate hL hu with }

theorem Inv.samples (hL : I.Legal) (hI : Inv I s) (hcfg : s.cfgv = true) (h : Samples I s t) :
    Inv I t ∧ t.cfgv = true := by
  induction h with
  | refl => exact ⟨hI, hcfg⟩
  | tail _ hsample ih =>
    obtain ⟨c0, c1, o, hu⟩ := hsample
    exact ⟨ih.1.sample hL ih.2 hu, (congrArg State.cfgv (sample_frame hu).1).trans ih.2⟩

/-! ## The commit of CFG -/

/-- One round of the loop of R104: it ends at the third hit, or stores an entry and goes on with at most one hit more. -/
theorem tableFrom_some {d : Nat} {mode : Mode} {f : F32} {room k hits : Nat} {tab : List (F32 × F32)}
    (h : tableFrom I d mode f room k hits = some tab) : ∃ hits' ≤ hits + 1, (hits' = 3 ∧ tab = []) ∨
      ∃ room' rest, room = room' + 1 ∧ tableFrom I d mode f room' (k + 1) hits' = some rest ∧
        tab = tableEntry I d mode f k :: rest := by
  rw [tableFrom.eq_def] at h
  refine ⟨if isHit (I.sin64 (theta I d f k)) then hits + 1 else hits, by split <;> omega, ?_⟩
  dsimp only at h
  generalize (if isHit (I.sin64 (theta I d f k)) then hits + 1 else hits) = hits' at h ⊢
  split_ifs at h with h3
  · cases h
    exact .inl ⟨h3, rfl⟩
  · cases room with
    | zero => cases h
    | succ room' =>
      obtain ⟨rest, hrest, rfl⟩ := Option.map_eq_some_iff.1 h
      exact .inr ⟨room', rest, rfl, hrest, rfl⟩

/-- The table has an entry for each index before the third hit, and there is at most one hit at each index. -/
theorem tableFrom_length {d : Nat} {mode : Mode} {f : F32} {room k hits : Nat} {tab : List (F32 × F32)}
    (h : tableFrom I d mode f room k hits = some tab) : 2 ≤ hits + tab.length ∧ tab.length ≤ room := by
  induction tab generalizing room k hits with
  | nil =>
    obtain ⟨hits', hle, ⟨h3, -⟩ | ⟨_, _, _, _, h⟩⟩ := tableFrom_some h
    · exact ⟨by rw [List.length_nil]; omega, Nat.zero_le _⟩
    · cases h
  | cons v rest ih =>
    obtain ⟨hits', hle, ⟨_, h⟩ | ⟨room', _, rfl, hrest, h⟩⟩ := tableFrom_some h
    · cases h
    · cases h
      have := ih hrest
      rw [List.length_cons]
      omega

theorem mode_of_legalCombo_filter {mode : Mode} {ch : BitVec 2} (h : legalCombo mode ch true = true) : mode = .am := by
  cases mode with
  | am => rfl
  | carrier => simp [legalCombo] at h
  | iq => simp [legalCombo] at h

/-- A list written into an unwritten memory is all it holds. -/
theorem writtenBelow_writeFrom {α : Type} {m : Mem α} {l : List α} {n : Nat} (hm : m = []) (hl : l.length = n) :
    WrittenBelow (m.writeFrom 0 l) n := by
  subst hm hl
  exact writtenBelow_ofList l

theorem Inv.commit (hL : I.Legal) (hI : Inv I s) (hnew : s.cfgv = false) {mode : Mode} {ch : BitVec 2} {firEn : Bool}
    {f r : F32} {tab : List (F32 × F32)} (hcombo : legalCombo mode ch firEn = true)
    (htab : buildTable I s.draws mode f = some tab) : Inv I (commit I mode ch firEn f r tab s) := by
  obtain ⟨hti, htq, hh, hhist, habuf⟩ := hI.mems
  have hU := hI.unconfigured hnew
  obtain ⟨hlo, hhi⟩ := tableFrom_length htab
  have hlen : (BitVec.ofNat 32 tab.length).toNat = tab.length := by
    obtain ⟨-, ⟨-, hmax⟩, -⟩ := hL
    rw [BitVec.toNat_ofNat, Nat.mod_eq_of_lt (by omega)]
  constructor
  case mems =>
    constructor <;> simp only [commit_ti, commit_tq, commit_h, commit_hist, commit_abuf]
    · exact Mem.writeFrom_wf _ _ _ hti
    · split_ifs
      exacts [Mem.writeFrom_wf _ _ _ htq, htq]
    · split_ifs
      exacts [Mem.writeFrom_wf _ _ _ hh, hh]
    · split_ifs
      exacts [Mem.writeFrom_wf _ _ _ hhist, hhist]
    · exact habuf
  case unconfigured => simp
  case configured =>
    intro _
    constructor <;> simp only [commit_mode, commit_ch, commit_firen, commit_tlen, commit_phase, commit_ti, commit_tq, hlen]
    · exact hcombo
    · omega
    · exact hhi
    · exact (by omega : 0 < tab.length)
    · exact writtenBelow_writeFrom hU.ti (List.length_map _)
    · intro hiq
      rw [if_pos hiq]
      exact writtenBelow_writeFrom hU.tq (List.length_map _)
    · intro hiq
      rw [if_neg hiq]
      exact hU.tq
  case filterOn =>
    intro hfir
    obtain rfl : firEn = true := by simpa using hfir
    constructor <;> simp only [commit_cfgv, commit_mode, commit_h, commit_hist, commit_wr, if_true]
    · exact mode_of_legalCombo_filter hcombo
    · exact writtenBelow_writeFrom hU.h (by simp [coefficients])
    · exact writtenBelow_writeFrom hU.hist List.length_replicate
    · exact Nat.lt_of_lt_of_le (by decide) (len_bounds hL).1
  case filterOff =>
    intro hfir
    obtain rfl : firEn = false := by simpa using hfir
    exact ⟨by simp [hU.h], by simp [hU.hist], by simp⟩
  case afill_le => simp
  case abuf =>
    rw [commit_abuf, commit_afill, hU.abuf]
    exact writtenBelow_nil
  case afill_mode => simp
  case noFault => simpa using hI.noFault
  case power => simpa using hI.power

/-! ## Every step -/

theorem Effect.inv (hL : I.Legal) (hI : Inv I s) (h : Effect I s i t) : Inv I t := by
  cases h with
  | refused => exact hI.respond _ _ _
  | faulted e => exact hI.enterFault e
  | cfg _ hnew _ hcombo _ _ htab => exact (hI.commit hL hnew hcombo htab).respond _ _ _
  | pwr _ hp => exact (hI.setPower (powerFactor_bounds _ hp)).respond _ _ _
  | rejected => exact hI.respond _ _ _
  | onext _ hcfg =>
    have hphase := nextPhase_lt (hI.configured hcfg).phase_lt
    exact (hI.of_sampleFrame hcfg (SampleFrame.advance s) hphase { hI.history with }).respond _ _ _
  | fpush _ hcfg hfir hpush =>
    obtain ⟨hframe, hphase⟩ := firPush_frame hpush
    have hlt := hphase ▸ (hI.configured hcfg).phase_lt
    exact (hI.of_sampleFrame hcfg hframe hlt (hI.history.push hL hfir hpush)).respond _ _ _
  | step _ hcfg _ hsample => exact (hI.sample hL hcfg hsample).respond _ _ _
  | audw _ hcfg hmode hroom =>
    have hn : (s.afill + 1).toNat = s.afill.toNat + 1 := by
      obtain ⟨-, -, -, -, -, hmax⟩ := hL
      exact BitVec.toNat_add_of_lt (show s.afill.toNat + 1 < 2 ^ 32 by omega)
    refine (hI.setFrames hcfg (Mem.write_wf _ _ _ hI.mems.abuf) ?_ ?_ fun _ => hmode).respond _ _ _
    · rw [hn]
      exact hI.abuf.write_end _
    · rw [hn]
      exact hroom
  | carrierBlock _ hcfg _ _ hblock => exact (hI.samples hL hcfg (carrierBlock_samples hblock)).1.respond _ _ _
  | audioBlock _ hcfg _ _ hblock =>
    obtain ⟨hu, hcfg⟩ := hI.samples hL hcfg (audioBlock_samples hblock)
    exact (hu.setFrames hcfg Mem.wf_nil writtenBelow_nil (Nat.zero_le _) (absurd · (by decide))).respond _ _ _
  | stop => exact (inv_tearDown I _ s).respond _ _ _
  | rdreg => exact hI.respond _ _ _

theorem Inv.runCommand (hI : Inv impl s) {c : Command} (h : runCommand c s = .next t) : Inv impl t := by
  obtain ⟨i, -, heff⟩ | rfl | ⟨-, rfl⟩ := runCommand_next h
  · exact heff.inv impl_legal hI
  · exact hI.enterFault _
  · exact hI.respond _ _ _

/-- Settles O10, by how each command ends; a reset, within a command or between two, leaves the reset state. -/
theorem invKept : Obligations.InvKept := by
  intro s t hI hstep
  cases hin : s.inputs with
  | nil =>
    rw [step_idle hin] at hstep
    cases hstep
    exact hI
  | cons inp rest =>
    rw [step_accept hin] at hstep
    cases inp with
    | command c => exact (hI.inputs rest).runCommand hstep
    | rst =>
      cases hstep
      exact inv_hardReset impl _
    | cutShort c =>
      simp only [accept, runCutShort] at hstep
      split at hstep
      · cases hstep
        exact inv_hardReset impl _
      · exact (hI.inputs rest).runCommand hstep

end Sys2Proof.Machine
end

section
/-! SUPPORT. What single commands and resets do to the registers (R40 to R43), the fault flag (R24) and the over-range warning (R25). -/

namespace Sys2Proof.Machine

variable {I : Impl} {s t u : State} {i : Instr}

/-! ## The register map -/

/-- Settles O7, from the values `State.reset` is written with. -/
theorem resetValues : Obligations.ResetValues := by
  refine ⟨by decide, ⟨rfl, rfl, rfl, rfl⟩, ⟨rfl, rfl, rfl⟩, ⟨rfl, rfl, rfl, rfl⟩, ⟨rfl, rfl, rfl, rfl⟩, ⟨rfl, rfl⟩,
    fun k => ⟨rfl, rfl, rfl, rfl, rfl⟩⟩

theorem toNat_statusWord (s : State) :
    (statusWord s).toNat = s.cfgv.toNat + 2 * s.pwrv.toNat + 4 * s.fault.toNat + 8 * s.ovr.toNat :=
  have h : ∀ o f p c : Bool, ((0 : BitVec 28) ++ BitVec.ofBool o ++ BitVec.ofBool f ++ BitVec.ofBool p ++ BitVec.ofBool c).toNat =
      c.toNat + 2 * p.toNat + 4 * f.toNat + 8 * o.toNat := by decide
  h s.ovr s.fault s.pwrv s.cfgv

theorem toNat_ctrlWord (s : State) :
    (ctrlWord s).toNat = (modeCode s.mode).toNat + 4 * s.ch.toNat + 16 * s.firen.toNat :=
  have h : ∀ (b : Bool) (c m : BitVec 2), ((0 : BitVec 27) ++ BitVec.ofBool b ++ c ++ m).toNat =
      m.toNat + 4 * c.toNat + 16 * b.toNat := by decide
  h s.firen s.ch (modeCode s.mode)

/-- The values of the thirteen registers in the order of R40. -/
def registers (s : State) : List Word :=
  [statusWord s, ctrlWord s, s.freq, s.srate, s.ratio, s.tlen, s.phase, if s.pwrv then s.txp else 0, s.fcut, s.wr,
    s.afill, s.errcode.setWidth 32, s.exitc.setWidth 32]

theorem readReg_ofNat (s : State) {k : Nat} (hk : k < 13) : readReg s (BitVec.ofNat 8 k) = (registers s)[k]? := by
  interval_cases k <;> rfl

theorem execRdreg_of_some {n : BitVec 8} {v : Word} (h : readReg s n = some v) :
    execRdreg n s = .next (Answered 0x00 v 0 s) := by
  rw [execRdreg, h]
  rfl

/-- Settles O34: the register map of the model is the list of R40, and its flag words are their weighted sums. -/
theorem rdregCompletes : Obligations.RdregCompletes := by
  intro s status ctrl hstatus hctrl k v hv
  obtain rfl : status = statusWord s := BitVec.eq_of_toNat_eq (hstatus.trans (toNat_statusWord s).symm)
  obtain rfl : ctrl = ctrlWord s := by
    refine BitVec.eq_of_toNat_eq (hctrl.trans ?_)
    rw [toNat_ctrlWord]
    cases s.mode <;> rfl
  rw [BitVec.ofNat_toNat, BitVec.ofNat_toNat] at hv
  obtain ⟨hk, -⟩ := List.getElem?_eq_some_iff.1 hv
  exact execRdreg_of_some ((readReg_ofNat s hk).trans hv)

/-! ## The fault flag -/

theorem Effect.fault_sticky (h : Effect I s i t) (hfault : s.fault = true) (hstop : ∀ r, i ≠ .stop r) :
    t.fault = true ∧ t.errcode = s.errcode := by
  cases h with
  | refused => exact ⟨hfault, rfl⟩
  | faulted e => exact ⟨rfl, by simp [hfault]⟩
  | stop => exact absurd rfl (hstop _)
  | rdreg => exact ⟨hfault, rfl⟩
  -- every other end has passed the check of R205 that there is no fault
  | _ => simp_all

/-- Settles O37: a command that is no `STOP` is refused, answers a register or enters the fault it is in. -/
theorem faultSticky : Obligations.FaultSticky := by
  intro s t inp rest hinp hstep hfault
  rw [step_accept hinp] at hstep
  cases inp with
  | rst => exact .inr (.inl rfl)
  | cutShort c => exact .inr (.inr (.inl ⟨c, rfl⟩))
  | command c =>
    obtain ⟨i, hd, heff⟩ | rfl | ⟨-, rfl⟩ := runCommand_next hstep
    · by_cases hstop : ∃ r, i = .stop r
      · obtain ⟨r, rfl⟩ := hstop
        exact .inr (.inr (.inr ⟨c, r, rfl, hd⟩))
      · exact .inl (heff.fault_sticky hfault (not_exists.1 hstop))
    · exact .inl ⟨rfl, by simp [hfault]⟩
    · exact .inl ⟨hfault, rfl⟩

/-! ## The over-range warning -/

/-- `t` has sent some samples more than `s`, and its warning is that of `s` or of one of them. -/
def Warned (s t : State) : Prop := ∃ l, t.out = s.out ++ l ∧ t.ovr = (s.ovr || l.any overRange)

theorem Warned.of_eq (hout : t.out = s.out) (hovr : t.ovr = s.ovr) : Warned s t := ⟨[], by simp [hout], by simp [hovr]⟩

theorem Warned.trans (h : Warned s t) (h' : Warned t u) : Warned s u := by
  obtain ⟨l, hl, hv⟩ := h
  obtain ⟨l', hl', hv'⟩ := h'
  exact ⟨l ++ l', by rw [hl', hl, List.append_assoc], by rw [hv', hv, List.any_append, Bool.or_assoc]⟩

theorem Samples.warned (h : Samples I s t) : Warned s t := by
  induction h with
  | refl => exact .of_eq rfl rfl
  | tail _ hsample ih =>
    obtain ⟨c0, c1, o, hu⟩ := hsample
    obtain ⟨-, hout, -, hovr⟩ := sample_frame hu
    exact ih.trans ⟨[o], hout, by simpa using hovr⟩

theorem Effect.warned (h : Effect I s i t) (hstop : ∀ r, i ≠ .stop r) : Warned s t := by
  cases h with
  | step _ _ _ hsample => exact (Samples.of_sample hsample).warned
  | carrierBlock _ _ _ _ hblock => exact (carrierBlock_samples hblock).warned
  | audioBlock _ _ _ _ hblock => exact (audioBlock_samples hblock).warned
  | fpush _ _ _ hpush =>
    obtain ⟨-, -, rfl⟩ := firPush_ok.1 hpush
    exact .of_eq rfl rfl
  | stop => exact absurd rfl (hstop _)
  | cfg => exact .of_eq (by simp) (by simp)
  | _ => exact .of_eq rfl rfl

/-- Settles O40: only samples set the warning, each by its own magnitude. -/
theorem overRangeWarning : Obligations.OverRangeWarning := fun _ _ _ hstop h => (exec_effect h).warned hstop

/-! ## The writers of R40 -/

/-- Settles O41: how each command ends names what it writes. -/
theorem registerWriters : Obligations.RegisterWriters := by
  intro s t i h
  cases exec_effect h with
  | refused => simp
  | faulted e => cases e <;> simp [errBits]
  | cfg =>
    refine ⟨fun hcfg => (hcfg _ _ _ _ _ rfl).elim, by simp, fun hcfg => (hcfg _ _ _ _ _ rfl).elim,
      fun hcfg => (hcfg _ _ _ _ _ rfl).elim, fun hcfg => (hcfg _ _ _ _ _ rfl).elim, by simp, by simp, by simp, by simp⟩
  | pwr => simp
  | rejected => simp
  | onext => simp
  | fpush _ _ _ hpush =>
    obtain ⟨-, -, rfl⟩ := firPush_ok.1 hpush
    simp
  | step _ _ _ hsample =>
    obtain ⟨_, _, _, _, _, _, rfl⟩ := (Samples.of_sample hsample).frame.exists_eq
    simp
  | audw => simp
  | carrierBlock _ _ _ _ hblock =>
    obtain ⟨_, _, _, _, _, _, rfl⟩ := (carrierBlock_samples hblock).frame.exists_eq
    simp
  | audioBlock _ _ _ _ hblock =>
    obtain ⟨_, _, _, _, _, _, rfl⟩ := (audioBlock_samples hblock).frame.exists_eq
    simp
  | stop => simp
  | rdreg => simp

end Sys2Proof.Machine
end

section
/-! SUPPORT. Progress from a state that meets the invariants (R60, R65, R236): every memory access succeeds, so every step has a next state. -/

namespace Sys2Proof.Machine

variable {I : Impl} {s : State}

/-! ## Computations and commands that end -/

theorem bind_total {α β : Type} {x : Except Fault α} {f : α → Except Fault β} (hx : ∃ a, x = .ok a)
    (hf : ∀ a, x = .ok a → ∃ b, f a = .ok b) : ∃ b, (x >>= f) = .ok b := by
  obtain ⟨a, ha⟩ := hx
  obtain ⟨b, hb⟩ := hf a ha
  exact ⟨b, bind_ok.2 ⟨a, ha, hb⟩⟩

theorem finish_total {x : Except Fault State} (hx : ∃ t, x = .ok t) : ∃ t, finish x = .next t := by
  obtain ⟨t, ht⟩ := hx
  exact ⟨t, finish_next.2 ht⟩

theorem unlessFaulted_total {r : Result} (hr : ∃ t, r = .next t) : ∃ t, unlessFaulted s r = .next t := by
  cases hf : s.fault with
  | true => exact ⟨_, unlessFaulted_faulted hf r⟩
  | false => rwa [unlessFaulted_live hf]

theorem raiseFault_total (e : ErrCode) (s : State) : ∃ t, raiseFault e s = .next t := ⟨_, rfl⟩

/-! ## The memory accesses of a sample -/

theorem Configured.readTi_total (h : Configured I s) : ∃ v, readTi I s = .ok v := by
  obtain ⟨v, -, hv⟩ := readEntry_of_written (sp := .ti) h.ti h.tlen_hi h.phase_lt
  exact ⟨v, hv⟩

theorem Configured.readTq_total (h : Configured I s) (hiq : s.mode = .iq) : ∃ v, readTq I s = .ok v := by
  obtain ⟨v, -, hv⟩ := readEntry_of_written (sp := .tq) (h.tq_iq hiq) h.tlen_hi h.phase_lt
  exact ⟨v, hv⟩

theorem Configured.readQ_total (h : Configured I s) : ∃ v, readQ I s = .ok v := by
  unfold readQ
  split_ifs with hiq
  · exact h.readTq_total hiq
  · exact ⟨0, rfl⟩

theorem FilterPresent.firPush_total (h : FilterPresent I s) (x : F32) : ∃ p, firPush I x s = .ok p := by
  obtain ⟨y, hy⟩ := firSum_total h.h (h.hist.write_inside h.wr_lt x) s.draws (firCentre I s.wr.toNat)
    (Nat.zero_lt_of_lt h.wr_lt) I.nh le_rfl
  exact ⟨(y, _), firPush_ok.2 ⟨h.wr_lt, hy, rfl⟩⟩

theorem modulate_total (hI : Inv I s) (hcfg : s.cfgv = true) (a c0 c1 : F32) :
    ∃ p, modulate I a c0 c1 s = .ok p := by
  unfold modulate
  cases hmode : s.mode with
  | carrier => exact ⟨_, rfl⟩
  | am =>
    refine bind_total ?_ fun _ _ => ⟨_, rfl⟩
    unfold filtered
    split_ifs with hfir
    · exact FilterPresent.firPush_total (s := skip 2 s) { hI.filterOn hfir with } _
    · exact ⟨_, rfl⟩
  | iq => exact bind_total ((hI.configured hcfg).readTq_total hmode) fun _ _ => ⟨_, rfl⟩

theorem sample_total (hI : Inv I s) (hcfg : s.cfgv = true) (c0 c1 : F32) : ∃ p, sample I c0 c1 s = .ok p :=
  bind_total (hI.configured hcfg).readTi_total fun a _ =>
    bind_total (modulate_total hI hcfg a c0 c1) fun _ _ => ⟨_, rfl⟩

/-! ## The loops of a block -/

theorem carrierBlock_total (hL : I.Legal) (hI : Inv I s) (hcfg : s.cfgv = true) (n : Nat) :
    ∃ t, carrierBlock I n s = .ok t := by
  induction n generalizing s with
  | zero => exact ⟨s, rfl⟩
  | succ n ih =>
    refine bind_total (sample_total hI hcfg 0 0) fun ⟨o, u⟩ hu => ?_
    obtain ⟨hI', hcfg'⟩ := hI.samples hL hcfg (.of_sample hu)
    exact ih hI' hcfg'

theorem SampleFrame.afill_eq {t : State} (h : SampleFrame s t) : t.afill = s.afill := (congrArg State.afill h).trans rfl

/-- A sample keeps the frames and their count (R173), so each frame of the block is still there when its turn comes. -/
theorem audioBlock_total (hL : I.Legal) (hI : Inv I s) (hcfg : s.cfgv = true) (n j : Nat)
    (hn : j + n ≤ s.afill.toNat) : ∃ t, audioBlock I n j s = .ok t := by
  induction n generalizing j s with
  | zero => exact ⟨s, rfl⟩
  | succ n ih =>
    obtain ⟨fr, -, hfr⟩ := readEntry_of_written (sp := .abuf) hI.abuf hI.afill_le (show j < s.afill.toNat by omega)
    refine bind_total ⟨fr, hfr⟩ fun fr _ => bind_total (sample_total hI hcfg fr.c0 fr.c1) fun ⟨o, u⟩ hu => ?_
    obtain ⟨hI', hcfg'⟩ := hI.samples hL hcfg (.of_sample hu)
    exact ih hI' hcfg' (j + 1) (by rw [(sample_frame hu).1.afill_eq]; omega)

/-! ## The commands -/

theorem cfgOn_total (I : Impl) (m ch : BitVec 2) (firEn : Bool) (f r : F32) (s : State) :
    ∃ t, cfgOn I m ch firEn f r s = .next t := by
  refine unlessFaulted_total ?_
  cases modeOf m with
  | none => exact raiseFault_total _ s
  | some mode =>
    dsimp only
    split_ifs
    iterate 4 exact raiseFault_total _ s
    cases buildTable I s.draws mode f with
    | none => exact raiseFault_total _ s
    | some tab => exact ⟨_, rfl⟩

theorem pwrOn_total (I : Impl) (p : F32) (s : State) : ∃ t, pwrOn I p s = .next t := by
  refine unlessFaulted_total ?_
  split_ifs
  · exact ⟨_, rfl⟩
  · exact ⟨_, rfl⟩

theorem onextOn_total (hI : Inv I s) : ∃ t, onextOn I s = .next t := by
  refine unlessFaulted_total ?_
  split_ifs with hcfg
  · exact raiseFault_total _ s
  · have hc := hI.configured (by simpa using hcfg)
    exact finish_total (bind_total hc.readTi_total fun _ _ => bind_total hc.readQ_total fun _ _ => ⟨_, rfl⟩)

theorem fpushOn_total (hI : Inv I s) (x : F32) : ∃ t, fpushOn I x s = .next t := by
  refine unlessFaulted_total ?_
  split_ifs with hcfg hfir
  · exact raiseFault_total _ s
  · exact raiseFault_total _ s
  · exact finish_total (bind_total ((hI.filterOn (by simpa using hfir)).firPush_total x) fun _ _ => ⟨_, rfl⟩)

theorem stepOn_total (hI : Inv I s) (c0 c1 : F32) : ∃ t, stepOn I c0 c1 s = .next t := by
  refine unlessFaulted_total ?_
  split_ifs with hcfg hpwr
  · exact raiseFault_total _ s
  · exact raiseFault_total _ s
  · exact finish_total (bind_total (sample_total hI (by simpa using hcfg) c0 c1) fun _ _ => ⟨_, rfl⟩)

/-- The check for a full buffer is one for equality (log entry 18): by R44 (d) a buffer that is not full has room. -/
theorem audwOn_total (hI : Inv I s) (c0 c1 : F32) : ∃ t, audwOn I c0 c1 s = .next t := by
  refine unlessFaulted_total ?_
  split_ifs with hcfg hmode hfull
  · exact raiseFault_total _ s
  · exact raiseFault_total _ s
  · exact raiseFault_total _ s
  · have hroom : s.afill.toNat < I.abufMax := lt_of_le_of_ne hI.afill_le hfull
    exact finish_total (bind_total ⟨_, writeEntry_ok.2 ⟨hroom, rfl⟩⟩ fun _ _ => ⟨_, rfl⟩)

theorem blockOn_total (hL : I.Legal) (hI : Inv I s) : ∃ t, blockOn I s = .next t := by
  refine unlessFaulted_total ?_
  split_ifs with hcfg hpwr hmode
  · exact raiseFault_total _ s
  · exact raiseFault_total _ s
  · exact finish_total (bind_total (carrierBlock_total hL hI (by simpa using hcfg) _) fun _ _ => ⟨_, rfl⟩)
  · exact finish_total
      (bind_total (audioBlock_total hL hI (by simpa using hcfg) _ 0 (Nat.zero_add _).le) fun _ _ => ⟨_, rfl⟩)

theorem execStop_total (reason : BitVec 8) (s : State) : ∃ t, execStop reason s = .next t := by
  unfold execStop
  split_ifs
  · exact ⟨_, rfl⟩
  · exact raiseFault_total _ s

theorem execRdreg_total (n : BitVec 8) (s : State) : ∃ t, execRdreg n s = .next t := by
  unfold execRdreg
  cases readReg s n with
  | some v => exact ⟨_, rfl⟩
  | none => exact raiseFault_total _ s

theorem exec_total (hI : Inv impl s) (i : Instr) : ∃ t, exec i s = .next t := by
  cases i with
  | cfg mode ch firEn arg0 arg1 => exact cfgOn_total impl mode ch firEn arg0 arg1 s
  | pwr arg0 => exact pwrOn_total impl arg0 s
  | onext => exact onextOn_total hI
  | fpush arg0 => exact fpushOn_total hI arg0
  | step arg0 arg1 => exact stepOn_total hI arg0 arg1
  | audw arg0 arg1 => exact audwOn_total hI arg0 arg1
  | block => exact blockOn_total impl_legal hI
  | stop reason => exact execStop_total reason s
  | rdreg reg => exact execRdreg_total reg s

/-! ## Every step -/

theorem illegalWord_total (opc : BitVec 8) (s : State) : ∃ t, illegalWord opc s = .next t := by
  unfold illegalWord
  split_ifs
  · exact raiseFault_total _ s
  · exact unlessFaulted_total (raiseFault_total _ s)

theorem runCommand_of_decode {c : Command} {i : Instr} (h : decode c = .ok i) : runCommand c s = exec i s := by
  rw [runCommand, h]

theorem runCommand_of_illegal {c : Command} {e : Illegal} (h : decode c = .error e) :
    runCommand c s = illegalWord (opcOf c.w0) s := by
  rw [runCommand, h]

theorem runCommand_total (hI : Inv impl s) (c : Command) : ∃ t, runCommand c s = .next t := by
  cases hd : decode c with
  | ok i =>
    rw [runCommand_of_decode hd]
    exact exec_total hI i
  | error e =>
    rw [runCommand_of_illegal hd]
    exact illegalWord_total _ s

theorem runCutShort_of_next {c : Command} {t : State} (h : runCommand c s = .next t) :
    runCutShort c s = .next (cutOff impl s t) := by
  rw [runCutShort, h]

/-- Settles O11: under the invariants every memory access of every command succeeds. -/
theorem neverStuck : Obligations.NeverStuck := by
  intro s hI
  cases hin : s.inputs with
  | nil => exact ⟨s, step_idle hin⟩
  | cons inp rest =>
    rw [step_accept hin]
    cases inp with
    | command c => exact runCommand_total (hI.inputs rest) c
    | rst => exact ⟨_, rfl⟩
    | cutShort c =>
      obtain ⟨t, ht⟩ := runCommand_total (hI.inputs rest) c
      exact ⟨_, runCutShort_of_next ht⟩

/-- Settles O6: the step accepts the command, and its decoding is known. -/
theorem stepRunsCommand : Obligations.StepRunsCommand := fun _ _ _ _ hin hd =>
  (step_accept hin).trans (runCommand_of_decode hd)

end Sys2Proof.Machine
end

section
/-! SUPPORT. The history as a window of the most recent samples: what a push answers and leaves of it (R63, R65, R134, R136). -/

namespace Sys2Proof.Machine

variable {I : Impl} {s : State} {hs ws : List F32}

/-! ## Reading the window and the coefficients -/

theorem getElem?_eq_some_getD {l : List F32} {j : Nat} (h : j < l.length) : l[j]? = some (l.getD j 0) := by
  rw [List.getElem?_eq_getElem h, List.getD_eq_getElem l 0 h]

theorem Window.readEntry_eq (h : Window I s ws) {j : Nat} (hj : j < I.len) :
    readEntry I .hist s.hist ((s.wr.toNat + j) % I.len) = .ok (ws.getD j 0) :=
  readEntry_ok.2 ⟨Nat.mod_lt _ (Nat.zero_lt_of_lt hj),
    (h.entry j hj).trans (getElem?_eq_some_getD (hj.trans_eq h.length.symm))⟩

theorem FilterHolds.readEntry_coeff (h : FilterHolds I s hs ws) {i : Nat} (hi : i < I.nh) :
    readEntry I .h s.h i = .ok (hs.getD i 0) :=
  have hi' : i < hs.length := hi.trans_eq h.taps.symm
  readEntry_ok.2 ⟨hi, (h.coeff i hi').trans (getElem?_eq_some_getD hi')⟩

/-! The push at cursor `w` leaves the oldest sample at `w + 1`, and the centre of its sum stands `NH - 1` after that. -/

theorem firAhead_firCentre (I : Impl) (w : Nat) {i : Nat} (hi : i < I.nh) :
    firAhead I (firCentre I w) i = ((w + 1) % I.len + (I.nh - 1 + i)) % I.len := by
  rw [firAhead, firCentre, Nat.mod_add_mod, Nat.mod_add_mod]
  congr 1
  omega

theorem firBehind_firCentre (I : Impl) (w : Nat) {i : Nat} (hi : i < I.nh) :
    firBehind I (firCentre I w) i = ((w + 1) % I.len + (I.nh - 1 - i)) % I.len := by
  have hlen : i ≤ I.len := by rw [Impl.len]; omega
  rw [firBehind, firCentre, Nat.add_sub_assoc hlen, Nat.mod_add_mod, Nat.mod_add_mod,
    show w + I.nh + (I.len - i) = w + 1 + (I.nh - 1 - i) + I.len by omega, Nat.add_mod_right]

/-- The sum of R134 over a window whose oldest sample stands one after `w` is the sum on the lists. -/
theorem FilterHolds.firSum_eq (h : FilterHolds I s hs ws) {w : Nat} (hw : s.wr.toNat = (w + 1) % I.len) (d : Nat) :
    ∀ n ≤ I.nh, firSum I d s.h s.hist (firCentre I w) n = .ok (firRef (fun j => I.nan32 (d + j)) hs ws n) := by
  intro n
  induction n with
  | zero => exact fun _ => rfl
  | succ i ih =>
    intro hi
    have hlen : I.nh - 1 + i < I.len := by rw [Impl.len]; omega
    have ha := h.window.readEntry_eq hlen
    have hb := h.window.readEntry_eq (show I.nh - 1 - i < I.len by omega)
    rw [hw, ← firAhead_firCentre I w hi] at ha
    rw [hw, ← firBehind_firCentre I w hi] at hb
    refine bind_ok.2 ⟨_, ih (by omega), bind_ok.2 ⟨_, ha, bind_ok.2 ⟨_, hb, bind_ok.2 ⟨_, h.readEntry_coeff hi, ?_⟩⟩⟩⟩
    rw [firRef, h.taps]
    rfl

/-! ## A push -/

theorem Pushed.wr_toNat (hL : I.Legal) (x : F32) (s : State) :
    (Pushed I x s).wr.toNat = (s.wr.toNat + 1) % I.len := by
  obtain ⟨hlo, hhi⟩ := len_bounds hL
  have := Nat.mod_lt (s.wr.toNat + 1) (show 0 < I.len by omega)
  exact Nat.mod_eq_of_lt (by omega)

/-- A push replaces the oldest sample by the newest, and the next to oldest becomes the oldest. -/
theorem Window.pushed (hL : I.Legal) (h : Window I s ws) (hwr : s.wr.toNat < I.len) (x : F32) :
    Window I (Pushed I x s) (ws.drop 1 ++ [x]) := by
  have hpos := (len_bounds hL).1
  have hlen : (ws.drop 1).length = I.len - 1 := by rw [List.length_drop, h.length]
  refine ⟨by rw [List.length_append, hlen, List.length_singleton]; omega, fun j hj => ?_⟩
  rw [Pushed.wr_toNat hL, Nat.mod_add_mod, show s.wr.toNat + 1 + j = s.wr.toNat + (j + 1) by omega]
  show (s.hist.write s.wr.toNat x).read _ = _
  obtain hlt | heq : j + 1 < I.len ∨ j + 1 = I.len := by omega
  · have hne : (s.wr.toNat + (j + 1)) % I.len ≠ s.wr.toNat := by
      intro hmod
      have hcancel : s.wr.toNat + (j + 1) ≡ s.wr.toNat + 0 [MOD I.len] := hmod.trans (Nat.mod_eq_of_lt hwr).symm
      have hzero : (j + 1) % I.len = 0 % I.len := Nat.ModEq.add_left_cancel' _ hcancel
      rw [Nat.mod_eq_of_lt hlt, Nat.zero_mod] at hzero
      omega
    rw [Mem.read_write_other _ _ hne, h.entry _ hlt, List.getElem?_append_left (by omega), List.getElem?_drop,
      Nat.add_comm 1 j]
  · rw [heq, Nat.add_mod_right, Nat.mod_eq_of_lt hwr, Mem.read_write_same, List.getElem?_append_right (by omega),
      show j - (ws.drop 1).length = 0 by omega]
    rfl

theorem FilterHolds.pushed (hL : I.Legal) (h : FilterHolds I s hs ws) (x : F32) :
    FilterHolds I (Pushed I x s) hs (ws.drop 1 ++ [x]) where
  taps := h.taps
  coeff := h.coeff
  window := h.window.pushed hL h.wr_lt x
  wr_lt := nextCursor_lt hL _

theorem FilterHolds.firPush_eq (hL : I.Legal) (h : FilterHolds I s hs ws) (x : F32) :
    firPush I x s = .ok (firRef (fun j => I.nan32 (s.draws + j)) hs (ws.drop 1 ++ [x]) I.nh,
      skip (3 * I.nh) (Pushed I x s)) :=
  firPush_ok.2 ⟨h.wr_lt, (h.pushed hL x).firSum_eq (Pushed.wr_toNat hL x s) s.draws I.nh le_rfl, rfl⟩

/-- What `FPUSH` answers and leaves where the filter can run (R136). -/
theorem FilterHolds.fpushOn_eq (hL : I.Legal) (h : FilterHolds I s hs ws) (hlive : s.fault = false)
    (hcfg : s.cfgv = true) (hfir : s.firen = true) (x : F32) :
    fpushOn I x s = .next (Answered 0x00 (firRef (fun j => I.nan32 (s.draws + j)) hs (ws.drop 1 ++ [x]) I.nh) 0
      (skip (3 * I.nh) (Pushed I x s))) := by
  rw [fpushOn, unlessFaulted_live hlive, hcfg, hfir, h.firPush_eq hL]
  rfl

theorem FilterHolds.answered_skip (h : FilterHolds I s hs ws) (c : BitVec 8) (d0 d1 : Word) (n : Nat) :
    FilterHolds I (Answered c d0 d1 (skip n s)) hs ws :=
  { h with window := { h.window with } }

/-! ## Many pushes -/

/-- One push, as the induction over the pushes needs it: the window moves on by one sample, and the next push can run. -/
theorem FilterHolds.exec_fpush (h : FilterHolds impl s hs ws) (hlive : s.fault = false) (hcfg : s.cfgv = true)
    (hfir : s.firen = true) (x : F32) : ∃ u, exec (.fpush x) s = .next u ∧ FilterHolds impl u hs (ws.drop 1 ++ [x]) ∧
      u.fault = false ∧ u.cfgv = true ∧ u.firen = true ∧ u.rsp.length = s.rsp.length + 1 ∧ u.out = s.out :=
  ⟨_, h.fpushOn_eq impl_legal hlive hcfg hfir x, (h.pushed impl_legal x).answered_skip _ _ _ _, hlive, hcfg, hfir,
    List.length_append, rfl⟩

theorem execAll_cons {i : Instr} {t : State} (h : exec i s = .next t) (r : List Instr) :
    execAll (i :: r) s = execAll r t := by
  rw [execAll, h]

/-- A list moved on by one sample and then by the rest is the list moved on by all of them. -/
theorem drop_append_cons {α : Type} {l : List α} (hl : l ≠ []) (x : α) (xs : List α) :
    (l ++ x :: xs).drop (xs.length + 1) = (l.drop 1 ++ [x] ++ xs).drop xs.length := by
  cases l with
  | nil => exact absurd rfl hl
  | cons a l => simp

/-- Settles O23, by induction on the samples: each push moves the window on by one sample. -/
theorem historyHoldsRecent : Obligations.HistoryHoldsRecent := by
  intro xs
  induction xs with
  | nil => exact fun s hs ws _ _ _ h => ⟨s, rfl, by simpa using h, rfl, rfl⟩
  | cons x xs ih =>
    intro s hs ws hlive hcfg hfir h
    obtain ⟨u, hexec, hu, hlive', hcfg', hfir', hrsp, hout⟩ := h.exec_fpush hlive hcfg hfir x
    obtain ⟨t, ht, hwindow, hrsp', hout'⟩ := ih u hs _ hlive' hcfg' hfir' hu
    have hne : ws ≠ [] := List.ne_nil_of_length_pos (h.window.length ▸ Nat.zero_lt_of_lt h.wr_lt)
    refine ⟨t, (execAll_cons hexec _).trans ht, ?_, ?_, hout'.trans hout⟩
    · rw [List.length_cons, drop_append_cons hne]
      exact hwindow
    · rw [List.length_cons]
      omega

end Sys2Proof.Machine
end

section
/-! SUPPORT. The decoder and the encoder: the fields of a header word, what the decoder accepts, and that each gives back what the other took (R66, R81, R84 to R88, R92, R95). -/

namespace Sys2Proof

/-! ## Header words and their fields -/

theorem toNat_opcOf (w : Word) : (opcOf w).toNat = w.toNat / 2 ^ 24 := by
  rw [opcOf, BitVec.extractLsb'_toNat, Nat.shiftRight_eq_div_pow]
  omega

theorem toNat_rsvOf (w : Word) : (rsvOf w).toNat = w.toNat / 2 ^ 8 % 2 ^ 16 := by
  rw [rsvOf, BitVec.extractLsb'_toNat, Nat.shiftRight_eq_div_pow]

theorem rsvOf_eq_zero {w : Word} : rsvOf w = 0 ↔ w.toNat / 2 ^ 8 % 2 ^ 16 = 0 := by
  rw [← toNat_rsvOf]
  exact BitVec.toNat_inj.symm

theorem toNat_subOf (w : Word) : (subOf w).toNat = w.toNat % 2 ^ 8 := by
  rw [subOf, BitVec.extractLsb'_toNat, Nat.shiftRight_zero]

theorem toNat_header (opc sub : BitVec 8) : (header opc sub).toNat = opc.toNat * 2 ^ 24 + sub.toNat := by
  rw [header, BitVec.toNat_append, BitVec.toNat_append, ← Nat.shiftLeft_add_eq_or_of_lt sub.isLt,
    ← Nat.shiftLeft_add_eq_or_of_lt (0 : BitVec 16).isLt, show (0 : BitVec 16).toNat = 0 from rfl]
  simp only [Nat.shiftLeft_eq]
  omega

@[simp] theorem opcOf_header (opc sub : BitVec 8) : opcOf (header opc sub) = opc := by
  have hsub : sub.toNat < 2 ^ 8 := sub.isLt
  apply BitVec.eq_of_toNat_eq
  rw [toNat_opcOf, toNat_header]
  omega

@[simp] theorem rsvOf_header (opc sub : BitVec 8) : rsvOf (header opc sub) = 0 := by
  have hsub : sub.toNat < 2 ^ 8 := sub.isLt
  rw [rsvOf_eq_zero, toNat_header]
  omega

@[simp] theorem subOf_header (opc sub : BitVec 8) : subOf (header opc sub) = sub := by
  have hsub : sub.toNat < 2 ^ 8 := sub.isLt
  apply BitVec.eq_of_toNat_eq
  rw [toNat_subOf, toNat_header]
  omega

theorem header_of_rsvOf {w : Word} (h : rsvOf w = 0) : header (opcOf w) (subOf w) = w := by
  have hrsv := rsvOf_eq_zero.1 h
  apply BitVec.eq_of_toNat_eq
  rw [toNat_header, toNat_opcOf, toNat_subOf]
  omega

theorem opcDefined_iff {opc : BitVec 8} : opcDefined opc = true ↔
    opc = 1 ∨ opc = 2 ∨ opc = 3 ∨ opc = 4 ∨ opc = 5 ∨ opc = 6 ∨ opc = 7 ∨ opc = 8 ∨ opc = 9 := by
  revert opc
  decide

/-! ## The subfield of `CFG` -/

theorem toNat_cfgSub (mode ch : BitVec 2) (firEn : Bool) :
    (cfgSub mode ch firEn).toNat = mode.toNat + 4 * ch.toNat + 16 * firEn.toNat := by
  revert mode ch firEn
  decide

theorem decodeCfg_cfgSub {mode : BitVec 2} (h : modeDefined mode = true) (ch : BitVec 2) (firEn : Bool) (a b : F32) :
    decodeCfg (cfgSub mode ch firEn) a b = .ok (.cfg mode ch firEn a b) := by
  have hfields : ∀ (m c : BitVec 2) (e : Bool), (cfgSub m c e).extractLsb' 5 3 = 0 ∧ (cfgSub m c e).extractLsb' 0 2 = m ∧
      (cfgSub m c e).extractLsb' 2 2 = c ∧ (cfgSub m c e).getLsbD 4 = e := by decide
  obtain ⟨hzero, hmode, hch, hfir⟩ := hfields mode ch firEn
  rw [decodeCfg, hzero, hmode, hch, hfir, if_pos rfl, if_pos h]

theorem cfgSub_of_fields {sub : BitVec 8} (h : sub.extractLsb' 5 3 = 0) :
    cfgSub (sub.extractLsb' 0 2) (sub.extractLsb' 2 2) (sub.getLsbD 4) = sub := by
  revert sub
  decide

/-! ## What the decoder accepts -/

/-- R92, R95: the header word of the encoder has a defined `OPC` and a zero `RSV`, so the subfield rule decides. -/
theorem decode_header {opc : BitVec 8} (h : opcDefined opc = true) (sub : BitVec 8) (a b : F32) :
    decode ⟨header opc sub, a, b⟩ = decodeSub opc sub a b := by
  rw [decode, opcOf_header, rsvOf_header, subOf_header, if_pos h, if_pos rfl]

theorem decode_encode {i : Instr} (h : i.WellFormed = true) : decode (encode i) = .ok i := by
  cases i with
  | cfg mode ch firEn a b => exact (decode_header rfl _ a b).trans (decodeCfg_cfgSub h ch firEn a b)
  | stop reason => exact (decode_header rfl reason 0 0).trans (if_pos h)
  | rdreg reg => exact (decode_header rfl reg 0 0).trans (if_pos h)
  -- the other six have no subfield
  | _ => exact decode_header rfl 0 _ _

/-- What the decoder has checked of a header word that decodes (R95). -/
theorem decode_ok {c : Command} {i : Instr} (h : decode c = .ok i) :
    opcDefined (opcOf c.w0) = true ∧ rsvOf c.w0 = 0 ∧ decodeSub (opcOf c.w0) (subOf c.w0) c.arg0 c.arg1 = .ok i := by
  unfold decode at h
  split_ifs at h with hopc hrsv
  exact ⟨hopc, hrsv, h⟩

/-- A subfield rule with a single check accepts no other command (R86, R87, R89). -/
theorem ite_ok {p : Prop} [Decidable p] {i j : Instr} {e : Illegal} (h : (if p then .ok i else .error e) = Except.ok j) :
    p ∧ i = j := by
  split_ifs at h with hp
  exact ⟨hp, Except.ok.inj h⟩

theorem decodeCfg_ok {sub : BitVec 8} {a b : F32} {i : Instr} (h : decodeCfg sub a b = .ok i) :
    i.WellFormed = true ∧ (encode i).w0 = header 1 sub := by
  unfold decodeCfg at h
  split_ifs at h with hzero hmode
  cases h
  exact ⟨hmode, congrArg (header 1) (cfgSub_of_fields hzero)⟩

theorem decodeSub_ok {opc sub : BitVec 8} {a b : F32} {i : Instr} (hopc : opcDefined opc = true)
    (h : decodeSub opc sub a b = .ok i) : i.WellFormed = true ∧ (encode i).w0 = header opc sub := by
  obtain rfl | rfl | rfl | rfl | rfl | rfl | rfl | rfl | rfl := opcDefined_iff.1 hopc
  · exact decodeCfg_ok h
  iterate 6
    · obtain ⟨rfl, rfl⟩ := ite_ok h
      exact ⟨rfl, rfl⟩
  iterate 2
    · obtain ⟨hsub, rfl⟩ := ite_ok h
      exact ⟨hsub, rfl⟩

/-- Settles O2: a zero `RSV` leaves nothing of the header word but `OPC` and `SUB`, which the encoder puts back. -/
theorem encodeDecode : Obligations.EncodeDecode := by
  intro c i h
  obtain ⟨hopc, hrsv, hsub⟩ := decode_ok h
  obtain ⟨hwf, hw0⟩ := decodeSub_ok hopc hsub
  exact ⟨hwf, hw0.trans (header_of_rsvOf hrsv)⟩

/-! ## Serialised commands -/

theorem wordOfBytes_bytesOfWord (w : Word) :
    wordOfBytes (w.extractLsb' 0 8) (w.extractLsb' 8 8) (w.extractLsb' 16 8) (w.extractLsb' 24 8) = w := by
  rw [wordOfBytes, BitVec.extractLsb'_append_extractLsb'_eq_extractLsb' (show 24 = 16 + 8 from rfl),
    BitVec.extractLsb'_append_extractLsb'_eq_extractLsb' (show 16 = 8 + 8 from rfl),
    BitVec.extractLsb'_append_extractLsb'_eq_extractLsb' (show 8 = 0 + 8 from rfl)]
  exact BitVec.extractLsb'_eq_self

theorem commandOfBytes_bytesOfCommand (c : Command) (rest : List Byte) :
    commandOfBytes (bytesOfCommand c ++ rest) = some (c, rest) := by
  simp [bytesOfCommand, bytesOfWord, commandOfBytes, wordOfBytes_bytesOfWord]

theorem decodeBytes_bytesOfCommand {c : Command} {i : Instr} (h : decode c = .ok i) (rest : List Byte) :
    decodeBytes (bytesOfCommand c ++ rest) = .ok (i, rest) := by
  rw [decodeBytes, commandOfBytes_bytesOfCommand]
  simp only [h]

/-- Settles O1: each constructor's header decodes to it, and a word is put together from its bytes again. -/
theorem decodeEncode : Obligations.DecodeEncode := fun _ h =>
  ⟨decode_encode h, decodeBytes_bytesOfCommand (decode_encode h)⟩

/-! ## Operand words -/

/-- The command with other operand words, where it reads them (R88). -/
def Instr.withOperands (a b : F32) : Instr → Instr
  | .cfg mode ch firEn _ _ => .cfg mode ch firEn a b
  | .pwr _ => .pwr a
  | .onext => .onext
  | .fpush _ => .fpush a
  | .step _ _ => .step a b
  | .audw _ _ => .audw a b
  | .block => .block
  | .stop reason => .stop reason
  | .rdreg reg => .rdreg reg

theorem decodeSub_operands (opc sub : BitVec 8) (a b a' b' : F32) :
    decodeSub opc sub a' b' = (decodeSub opc sub a b).map (Instr.withOperands a' b') := by
  unfold decodeSub
  split
  · unfold decodeCfg
    split_ifs <;> rfl
  iterate 6
    · unfold noSub
      split_ifs <;> rfl
  · split_ifs <;> rfl
  · split_ifs <;> rfl
  · rfl

/-- R88: the operand words have no part in whether a word is legal, nor in which command it is. -/
theorem decode_operands (w0 a b a' b' : Word) :
    decode ⟨w0, a', b'⟩ = (decode ⟨w0, a, b⟩).map (Instr.withOperands a' b') := by
  unfold decode
  split_ifs
  · exact decodeSub_operands ..
  · rfl
  · rfl

theorem withOperands_of_decode {c : Command} {i : Instr} (h : decode c = .ok i) : i.withOperands c.arg0 c.arg1 = i := by
  have hmap := decode_operands c.w0 c.arg0 c.arg1 c.arg0 c.arg1
  rw [h] at hmap
  exact (Except.ok.inj hmap).symm

/-- R88, R92, R95: the words that decode to a command are its own header word and the operand words it reads, with any others. -/
theorem decode_eq_ok_iff {c : Command} {i : Instr} : decode c = .ok i ↔
    i.WellFormed = true ∧ (encode i).w0 = c.w0 ∧ i.withOperands c.arg0 c.arg1 = i := by
  constructor
  · intro h
    obtain ⟨hwf, hw0⟩ := encodeDecode c i h
    exact ⟨hwf, hw0, withOperands_of_decode h⟩
  · rintro ⟨hwf, hw0, hargs⟩
    have hmap := decode_operands (encode i).w0 (encode i).arg0 (encode i).arg1 c.arg0 c.arg1
    rw [decode_encode hwf, hw0] at hmap
    exact hmap.trans (congrArg Except.ok hargs)

/-- Settles O5: each word is the header word of the command's encoding. -/
theorem sampleWords : Obligations.SampleWords := by
  intro a b
  refine ⟨?_, ?_, ?_, ?_, ?_, ?_, ?_, ?_, ?_⟩ <;> exact decode_eq_ok_iff.2 ⟨rfl, rfl, rfl⟩

end Sys2Proof
end

section
/-! SUPPORT. The header words the decoder refuses are those of R89, and each is fault entry with `E_ILLEGAL` (R89, R206). -/

namespace Sys2Proof

/-! ## What the decoder refuses -/

theorem reasonDefined_iff {r : BitVec 8} : reasonDefined r = true ↔ r.toNat ≤ 6 := by
  simp [reasonDefined, BitVec.le_def]

theorem regDefined_iff {n : BitVec 8} : regDefined n = true ↔ n.toNat ≤ 0x0C := by
  simp [regDefined, BitVec.le_def]

theorem modeDefined_iff {m : BitVec 2} : modeDefined m = true ↔ m.toNat ≠ 3 := by
  revert m
  decide

theorem opcDefined_iff_toNat {opc : BitVec 8} : opcDefined opc = true ↔ 1 ≤ opc.toNat ∧ opc.toNat ≤ 9 := by
  simp [opcDefined, BitVec.le_def]

/-- A check of the decoder refuses a word, or what comes after it does. -/
theorem exists_error_ite {p : Prop} [Decidable p] {x : Except Illegal Instr} {e' : Illegal} :
    (∃ e, (if p then x else .error e') = .error e) ↔ ¬p ∨ ∃ e, x = .error e := by
  split_ifs with hp <;> simp [hp]

theorem exists_error_ok {i : Instr} : (∃ e : Illegal, (.ok i : Except Illegal Instr) = .error e) ↔ False := by simp

theorem noSub_error {sub : BitVec 8} {i : Instr} : (∃ e, noSub sub i = .error e) ↔ sub.toNat ≠ 0 := by
  rw [noSub, exists_error_ite, exists_error_ok, or_false, ← BitVec.toNat_inj]
  rfl

theorem decodeCfg_error {sub : BitVec 8} {a b : F32} :
    (∃ e, decodeCfg sub a b = .error e) ↔ sub.toNat / 2 ^ 5 % 2 ^ 3 ≠ 0 ∨ sub.toNat % 2 ^ 2 = 3 := by
  rw [decodeCfg, exists_error_ite, exists_error_ite, exists_error_ok, or_false, ← BitVec.toNat_inj, modeDefined_iff,
    not_not, BitVec.extractLsb'_toNat, BitVec.extractLsb'_toNat, Nat.shiftRight_eq_div_pow, Nat.shiftRight_zero]
  rfl

/-- The subfields R89 refuses, command by command. -/
def SubIllegal (opc sub : Nat) : Prop :=
  (2 ≤ opc ∧ opc ≤ 7 ∧ sub ≠ 0) ∨ (opc = 1 ∧ (sub / 2 ^ 5 % 2 ^ 3 ≠ 0 ∨ sub % 2 ^ 2 = 3)) ∨
    (opc = 8 ∧ 0x06 < sub) ∨ (opc = 9 ∧ 0x0C < sub)

theorem decodeSub_error {opc sub : BitVec 8} {a b : F32} (h : opcDefined opc = true) :
    (∃ e, decodeSub opc sub a b = .error e) ↔ SubIllegal opc.toNat sub.toNat := by
  obtain rfl | rfl | rfl | rfl | rfl | rfl | rfl | rfl | rfl := opcDefined_iff.1 h
  · exact decodeCfg_error.trans (by simp [SubIllegal])
  iterate 6
    · exact noSub_error.trans (by simp [SubIllegal])
  · exact exists_error_ite.trans (by simp [SubIllegal, reasonDefined_iff])
  · exact exists_error_ite.trans (by simp [SubIllegal, regDefined_iff])

end Sys2Proof

namespace Sys2Proof.Machine

/-! ## Illegal words -/

/-- R89: the fields of the word, read from its number, decide. -/
theorem decode_error {c : Command} : (∃ e, decode c = .error e) ↔ IllegalWord c.w0.toNat := by
  have hopc : opcDefined (opcOf c.w0) = true ↔ 1 ≤ c.w0.toNat / 2 ^ 24 ∧ c.w0.toNat / 2 ^ 24 ≤ 9 := by
    rw [opcDefined_iff_toNat, toNat_opcOf]
  rw [decode, exists_error_ite, exists_error_ite, rsvOf_eq_zero, hopc, IllegalWord]
  by_cases h : opcDefined (opcOf c.w0) = true
  · rw [decodeSub_error h, toNat_opcOf, toNat_subOf, SubIllegal]
    omega
  · have hrange := mt hopc.2 h
    exact iff_of_true (.inl hrange) (.inl hrange)

/-- R89, R206: in a core without a fault every illegal word is fault entry with `E_ILLEGAL`. -/
theorem illegalWord_live {s : State} (h : s.fault = false) (opc : BitVec 8) :
    illegalWord opc s = .next (FaultEntered 0x10 s) := by
  have hraise : raiseFault .illegal s = .next (FaultEntered 0x10 s) := by
    rw [raiseFault, enterFault, h]
    rfl
  rw [illegalWord, unlessFaulted_live h, ite_self, hraise]

/-- Settles O3: the decoder's three checks are the conditions of R89. -/
theorem illegalWords : Obligations.IllegalWords := by
  refine ⟨fun c => decode_error, fun c s hillegal hlive => ?_, .inl (by decide), .inl (by decide)⟩
  obtain ⟨e, he⟩ := decode_error.2 hillegal
  rw [runCommand_of_illegal he, illegalWord_live hlive]

end Sys2Proof.Machine
end

section
/-! SUPPORT. The opcode of a decoded command (R84), and the operand words it ignores (R88). -/

namespace Sys2Proof

variable {c : Command} {i : Instr}

/-! ## Commands by their opcode -/

/-- The opcode of a command (R84). -/
def Instr.opcode : Instr → Nat
  | .cfg .. => 1
  | .pwr _ => 2
  | .onext => 3
  | .fpush _ => 4
  | .step .. => 5
  | .audw .. => 6
  | .block => 7
  | .stop _ => 8
  | .rdreg _ => 9

theorem toNat_opcOf_encode (i : Instr) : (opcOf (encode i).w0).toNat = i.opcode := by
  cases i <;> exact congrArg BitVec.toNat (opcOf_header _ _)

theorem opcode_of_decode (h : decode c = .ok i) : c.w0.toNat / 2 ^ 24 = i.opcode := by
  rw [← toNat_opcOf, ← (encodeDecode c i h).2, toNat_opcOf_encode]

theorem decode_cfg (hopc : c.w0.toNat / 2 ^ 24 = 1) (h : decode c = .ok i) :
    ∃ mode ch firEn, i = .cfg mode ch firEn c.arg0 c.arg1 ∧ mode.toNat = c.w0.toNat % 4 := by
  have hargs := withOperands_of_decode h
  rw [opcode_of_decode h] at hopc
  cases i with
  | cfg mode ch firEn x y =>
    refine ⟨mode, ch, firEn, hargs.symm, ?_⟩
    have hmode : mode.toNat < 2 ^ 2 := mode.isLt
    rw [← (encodeDecode c _ h).2, encode, toNat_header, toNat_cfgSub]
    omega
  | _ => cases hopc

theorem decode_step (hopc : c.w0.toNat / 2 ^ 24 = 5) (h : decode c = .ok i) : i = .step c.arg0 c.arg1 := by
  have hargs := withOperands_of_decode h
  rw [opcode_of_decode h] at hopc
  cases i with
  | step x y => exact hargs.symm
  | _ => cases hopc

theorem Instr.withOperands_of_reads_none (h : i.opcode ∈ [0x03, 0x07, 0x08, 0x09]) (a b : F32) : i.withOperands a b = i := by
  cases i with
  | onext | block | stop | rdreg => rfl
  | _ => simp [opcode] at h

theorem Instr.withOperands_of_reads_first (h : i.opcode ∈ [0x02, 0x04]) (a b b' : F32) :
    i.withOperands a b = i.withOperands a b' := by
  cases i with
  | pwr | fpush => rfl
  | _ => simp [opcode] at h

end Sys2Proof

namespace Sys2Proof.Machine

variable {I : Impl} {s : State}

/-! ## Operands without effect -/

/-- R101, R107, R109: in CARRIER mode the source rate has no part in a `CFG` without filter, and one with the filter is refused. -/
theorem cfgOn_carrier (I : Impl) (ch : BitVec 2) (firEn : Bool) (f r r' : F32) (s : State) :
    cfgOn I 0 ch firEn f r s = cfgOn I 0 ch firEn f r' s := by
  cases firEn with
  | false => rfl
  | true =>
    have hcombo : legalCombo .carrier ch true = false := Bool.and_false _
    simp only [cfgOn, modeOf, if_pos, hcombo, Bool.not_false]

theorem sample_carrier (h : s.mode = .carrier) (c0 c1 c0' c1' : F32) : sample I c0 c1 s = sample I c0' c1' s := by
  simp only [sample, modulate, h]

theorem sample_am_single (h : s.mode = .am) (hch : s.ch = 1) (c0 c1 c1' : F32) : sample I c0 c1 s = sample I c0 c1' s := by
  simp only [sample, modulate, h, amSample, mono, hch, if_pos]

theorem stepOn_congr {c0 c1 c0' c1' : F32} (h : sample I c0 c1 s = sample I c0' c1' s) :
    stepOn I c0 c1 s = stepOn I c0' c1' s := by
  rw [stepOn, h, stepOn]

/-- Where the meaning of the command does not look at the operand words, neither does the run of its three words. -/
theorem runCommand_operands {w0 a b a' b' : Word}
    (h : ∀ i, decode ⟨w0, a, b⟩ = .ok i → exec i s = exec (i.withOperands a' b') s) :
    runCommand ⟨w0, a, b⟩ s = runCommand ⟨w0, a', b'⟩ s := by
  have hmap := decode_operands w0 a b a' b'
  cases hd : decode ⟨w0, a, b⟩ with
  | ok i =>
    rw [hd] at hmap
    rw [runCommand_of_decode hd, runCommand_of_decode hmap, h i hd]
  | error e =>
    rw [hd] at hmap
    rw [runCommand_of_illegal hd, runCommand_of_illegal hmap]

/-- Settles O4: the operand words never decide what is decoded, and each listed command's meaning leaves its ignored words aside. -/
theorem ignoredWords : Obligations.IgnoredWords := by
  intro w0 a b a' b' s
  refine ⟨by rw [decode_error, decode_error], ?_, ?_, ?_, ?_, ?_⟩
  · refine fun hopc => runCommand_operands fun i hi => ?_
    rw [Instr.withOperands_of_reads_none (opcode_of_decode hi ▸ hopc)]
  · refine fun hopc => runCommand_operands fun i hi => ?_
    rw [Instr.withOperands_of_reads_first (opcode_of_decode hi ▸ hopc) a b' b, withOperands_of_decode hi]
  · refine fun hopc hmode => runCommand_operands fun i hi => ?_
    obtain ⟨mode, ch, firEn, rfl, hm⟩ := decode_cfg hopc hi
    obtain rfl : mode = 0 := BitVec.eq_of_toNat_eq (hm.trans hmode)
    exact cfgOn_carrier impl ch firEn a b b' s
  · refine fun hopc hmode => runCommand_operands fun i hi => ?_
    rw [decode_step hopc hi]
    exact stepOn_congr (sample_carrier hmode a b a' b')
  · refine fun hopc hmode hch => runCommand_operands fun i hi => ?_
    rw [decode_step hopc hi]
    exact stepOn_congr (sample_am_single hmode hch a b b')

end Sys2Proof.Machine
end

section
/-! SUPPORT. Which commands send samples (R83, R206). -/

namespace Sys2Proof.Machine

variable {I : Impl} {s t : State} {i : Instr}

theorem Samples.appended (h : Samples I s t) : (∃ l, t.out = s.out ++ l) ∧ t.rsp = s.rsp := by
  obtain ⟨l, hout, -⟩ := h.warned
  obtain ⟨_, _, _, _, _, _, rfl⟩ := h.frame.exists_eq
  exact ⟨⟨l, hout⟩, rfl⟩

/-- A `STEP` and either kind of `BLOCK` may send samples, and every other end of a command sends none. -/
theorem Effect.sends (h : Effect I s i t) : t.out = s.out ∨
    ((∃ x y, i = .step x y) ∨ i = .block) ∧ (∃ l, t.out = s.out ++ l) ∧ ∃ d0, t.rsp = s.rsp ++ [⟨0x00, d0, 0⟩] := by
  cases h with
  | step _ _ _ hsample =>
    obtain ⟨hout, hrsp⟩ := (Samples.of_sample hsample).appended
    exact .inr ⟨.inl ⟨_, _, rfl⟩, hout, _, by rw [respondOk_eq, respond_rsp, hrsp]⟩
  | carrierBlock _ _ _ _ hblock =>
    obtain ⟨hout, hrsp⟩ := (carrierBlock_samples hblock).appended
    exact .inr ⟨.inr rfl, hout, _, by rw [respondOk_eq, respond_rsp, hrsp]⟩
  | audioBlock _ _ _ _ hblock =>
    obtain ⟨hout, hrsp⟩ := (audioBlock_samples hblock).appended
    exact .inr ⟨.inr rfl, hout, _, by rw [respondOk_eq, respond_rsp, dropFrames_rsp, hrsp]⟩
  | fpush _ _ _ hpush =>
    obtain ⟨-, -, rfl⟩ := firPush_ok.1 hpush
    exact .inl rfl
  | cfg => exact .inl (by simp)
  | _ => exact .inl rfl

/-- Settles O39: a command that decodes to neither, or to nothing, leaves the stream as it was. -/
theorem onlyStepAndBlockEmit : Obligations.OnlyStepAndBlockEmit := by
  intro s t c h
  obtain ⟨i, hd, heff⟩ | rfl | ⟨-, rfl⟩ := runCommand_next h
  · obtain hout | ⟨hi, ⟨l, hout⟩, hrsp⟩ := heff.sends
    · exact ⟨[], hout.trans (List.append_nil _).symm, absurd rfl⟩
    · exact ⟨l, hout, fun _ => ⟨by simpa [hd] using hi, hrsp⟩⟩
  · exact ⟨[], (List.append_nil _).symm, absurd rfl⟩
  · exact ⟨[], (List.append_nil _).symm, absurd rfl⟩

end Sys2Proof.Machine
end

section
/-! SUPPORT. Operands accepted as real numbers (R102, R109, R110), and the commands PWR and ONEXT (R110 to R112). -/

namespace Sys2Proof.Machine

variable {I : Impl} {s : State} {n p x y : F32}

/-! ## Operand ranges -/

/-- A pattern that a comparison with 0 and one with any other pattern accept is a finite number's. -/
theorem finite32_of_between (h0 : flt32 0 x = true) (h : flt32 x y = true) : finite32 x = true := by
  have hx : f32.isNan x.toNat = false := by
    by_contra hn
    simp [flt32, Fmt.lt, hn] at h0
  have hy : f32.isNan y.toNat = false := by
    by_contra hn
    simp [flt32, Fmt.lt, hn] at h
  have hkx := (f32.lt_iff_key (by decide) hx).1 h0
  have hky := (f32.lt_iff_key hx hy).1 h
  have hmag := f32.natAbs_key x.toNat
  have hinf := (Fmt.key_mem hy).2
  rw [show f32.key ((0 : F32).toNat) = 0 by decide] at hkx
  exact decide_eq_true (by omega)

theorem flt32_zero_iff (hx : finite32 x = true) : flt32 0 x = true ↔ 0 < real32 x := by
  rw [← real32_zero]
  exact Fmt.lt_iff_real (by decide) hx

/-- Every finite number is below the infinity. -/
theorem flt32_inf32 (hx : finite32 x = true) : flt32 x inf32 = true := by
  have hmag : f32.mag x.toNat < f32.infMag := of_decide_eq_true hx
  have hkey := f32.natAbs_key x.toNat
  refine (f32.lt_iff_key (Fmt.isNan_eq_false_of_finite hx) (by decide)).2 ?_
  rw [show f32.key inf32.toNat = f32.infMag by decide]
  omega

/-- R109. -/
theorem rateOk_iff : rateOk x = true ↔ finite32 x = true ∧ 0 < real32 x := by
  rw [rateOk, Bool.and_eq_true]
  constructor
  · rintro ⟨h0, hinf⟩
    have hx := finite32_of_between h0 hinf
    exact ⟨hx, (flt32_zero_iff hx).1 h0⟩
  · rintro ⟨hx, h0⟩
    exact ⟨(flt32_zero_iff hx).2 h0, flt32_inf32 hx⟩

/-- R110. -/
theorem powerOk_iff : powerOk x = true ↔ finite32 x = true ∧ 0 ≤ real32 x ∧ real32 x ≤ 100 := by
  refine ⟨powerOk_bounds, fun ⟨hx, h0, h100⟩ => ?_⟩
  rw [← real32_zero] at h0
  rw [← real32_hundred32] at h100
  rw [powerOk, Bool.and_eq_true]
  exact ⟨(Fmt.le_iff_real (by decide) hx).2 h0, (Fmt.le_iff_real hx (by decide)).2 h100⟩

theorem real32_half32 : real32 half32 = 1 / 2 := by
  rw [real32, f32.real_of_unpack (show f32.unpack half32.toNat = .fin false (2 ^ 23) (-24) by decide)]
  norm_num [FVal.real]

/-- The half of a whole number up to 2^24 is a number of binary32. -/
theorem exists_real32_eq_half {k : Nat} (h : k ≤ 2 ^ 24) : ∃ y : F32, finite32 y = true ∧ real32 y = k / 2 := by
  rcases h.lt_or_eq with hlt | rfl
  · have hk : (k : ℝ) * (2 : ℝ) ^ (-1 : Int) < (2 : ℝ) ^ (24 : Int) := by
      have hk : (k : ℝ) < (2 : ℝ) ^ (24 : Int) := by exact_mod_cast hlt
      exact (mul_le_of_le_one_right k.cast_nonneg (by norm_num)).trans_lt hk
    have hfin : f32.roundMag k (-1) < f32.infMag := f32.roundMag_lt_infMag hk (by decide) (by decide)
    refine ⟨BitVec.ofNat 32 (f32.roundMag k (-1)), ?_, ?_⟩
    · rw [finite32, toNat_roundMag32]
      exact Fmt.finite_roundMag hfin
    · rw [real32, toNat_roundMag32, f32.real_roundMag hfin, f32.roundMag_exact hlt (by decide) hfin, zpow_neg_one, div_eq_mul_inv]
  · obtain ⟨hy, hreal⟩ := u2f32_exact (show 2 ^ 23 ≤ 2 ^ 24 by decide)
    exact ⟨_, hy, by rw [hreal]; norm_num⟩

theorem fs_real_bounds (hL : I.Legal) : (2 : ℝ) ≤ I.fs ∧ (I.fs : ℝ) ≤ 2 ^ 24 := by
  obtain ⟨⟨h2, h24⟩, -⟩ := hL
  exact ⟨by exact_mod_cast h2, by exact_mod_cast h24⟩

/-- The bound of R102 is `FS/2` exactly. -/
theorem halfRate_exact (hL : I.Legal) (n : F32) :
    finite32 (fmul32 n (fs32 I) half32) = true ∧ real32 (fmul32 n (fs32 I) half32) = (I.fs : ℝ) / 2 := by
  obtain ⟨h2, h24⟩ := fs_real_bounds hL
  obtain ⟨hfs, hfsr⟩ := u2f32_exact hL.1.2
  obtain ⟨y, hy, hyr⟩ := exists_real32_eq_half hL.1.2
  have hprod : f32.real (fs32 I).toNat * f32.real half32.toNat = (I.fs : ℝ) / 2 := by
    rw [← real32, ← real32, real32_half32, fs32, hfsr]
    ring
  have hround := mulRounds f32 (by decide) n.toNat (fs32 I).toNat half32.toNat hfs (by decide) (by rw [hprod]; positivity)
  rw [hprod, ← toNat_fmul32] at hround
  have hx : |(I.fs : ℝ) / 2| < f32.overflowAt := by
    have hmax : (2 : ℝ) ^ 24 < f32.overflowAt := by
      rw [Fmt.overflowAt, show f32.emin + ((2 ^ f32.eb : Nat) : Int) - 4 = 103 by decide]
      norm_num [f32]
    rw [abs_of_nonneg (by positivity)]
    linarith
  exact ⟨hround.finite hx, le_antisymm ((hround.real_le hx hy hyr.ge).trans_eq hyr) (hyr.ge.trans (hround.le_real hx hy hyr.le))⟩

/-- R102. -/
theorem freqOk_iff (hL : I.Legal) {d : Nat} :
    freqOk I d x = true ↔ finite32 x = true ∧ 0 < real32 x ∧ real32 x < (I.fs : ℝ) / 2 := by
  obtain ⟨hh, hhr⟩ := halfRate_exact hL (I.nan32 d)
  rw [freqOk, Bool.and_eq_true, ← hhr]
  constructor
  · rintro ⟨h0, h⟩
    have hx := finite32_of_between h0 h
    exact ⟨hx, (flt32_zero_iff hx).1 h0, (Fmt.lt_iff_real hx hh).1 h⟩
  · rintro ⟨hx, h0, h⟩
    exact ⟨(flt32_zero_iff hx).2 h0, (Fmt.lt_iff_real hx hh).2 h⟩

/-- Settles O16, by the order of finite patterns and the exact half of `FS`. -/
theorem operandRanges : Obligations.OperandRanges := fun _ _ => ⟨freqOk_iff impl_legal, rateOk_iff, powerOk_iff⟩

/-! ## PWR -/

/-- A finite number divided by one other than zero is no NaN, so the NaN on offer does not matter. -/
theorem Fmt.div_nan_irrelevant {F : Fmt} {a b : Nat} (ha : F.finite a = true) (hb : F.finite b = true) (hb0 : F.real b ≠ 0)
    (nan nan' : Nat) : F.div nan a b = F.div nan' a b := by
  obtain ⟨m, e, hu⟩ := F.unpack_finite ha
  obtain ⟨k, g, hv, hk⟩ := F.unpack_finite_ne hb hb0
  simp only [Fmt.div, hu, hv, if_neg hk]

theorem fdiv32_hundred32_nan_irrelevant (hp : finite32 p = true) (n n' : F32) :
    fdiv32 n p hundred32 = fdiv32 n' p hundred32 :=
  congrArg (BitVec.ofNat 32) (Fmt.div_nan_irrelevant hp (by decide)
    (by rw [← real32, real32_hundred32]; norm_num) n.toNat n'.toNat)

/-- Settles O19: an accepted power is finite, so its quotient by 100 is no NaN. -/
theorem pwrAccepted : Obligations.PwrAccepted := by
  intro s p n hlive h0 h100
  have hp : powerOk p = true := by rw [powerOk, h0, h100, Bool.and_self]
  show pwrOn impl p s = _
  rw [pwrOn, unlessFaulted_live hlive, if_pos hp, fdiv32_hundred32_nan_irrelevant (powerOk_bounds hp).1 _ n]
  rfl

/-- Settles O20. -/
theorem pwrRejected : Obligations.PwrRejected := by
  intro s p hlive h
  have hp : ¬powerOk p = true := by rwa [powerOk, Bool.and_eq_true]
  show pwrOn impl p s = _
  rw [pwrOn, unlessFaulted_live hlive, if_neg hp]
  rfl

/-! ## ONEXT -/

/-- R112. -/
theorem nextPhase_eq_ofNat {phase tlen : Word} (h : phase.toNat < tlen.toNat) :
    nextPhase phase tlen = BitVec.ofNat 32 ((phase.toNat + 1) % tlen.toNat) := by
  rw [← nextPhase_eq_mod h, BitVec.ofNat_toNat, BitVec.setWidth_eq]

/-- Settles O21: both reads find their entries, and the phase advances. -/
theorem onextCompletes : Obligations.OnextCompletes := by
  intro s i q hlive hcfg ⟨htlen, hphase⟩ hi hq
  have hti : readTi impl s = .ok i := readEntry_ok.2 ⟨hphase.trans_le htlen, hi⟩
  have hrq : readQ impl s = .ok (if s.mode = .iq then q else 0) := by
    unfold readQ
    split_ifs with hiq
    · exact readEntry_ok.2 ⟨hphase.trans_le htlen, hq hiq⟩
    · rfl
  show onextOn impl s = _
  rw [onextOn, unlessFaulted_live hlive, hcfg, if_neg (by decide), hti, hrq, ← nextPhase_eq_ofNat hphase]
  rfl

end Sys2Proof.Machine
end

section
/-! SUPPORT. The checks of CFG in their order (R100, R205), and the table up to the third hit (R104 to R106). -/

namespace Sys2Proof.Machine

variable {I : Impl} {s : State} {mode : Mode} {m ch : BitVec 2} {firEn : Bool} {f r : F32} {d k K room : Nat}

/-! ## Modes and combinations -/

theorem mem_legalCombos_iff : (modeCode mode, ch, firEn) ∈ legalCombos ↔ legalCombo mode ch firEn = true := by
  revert ch firEn
  cases mode <;> decide

theorem exists_modeCode (h : m ≠ 3) : ∃ mode, modeCode mode = m := by
  have hm : m = 0 ∨ m = 1 ∨ m = 2 := by
    revert m
    decide
  rcases hm with rfl | rfl | rfl
  exacts [⟨.carrier, rfl⟩, ⟨.am, rfl⟩, ⟨.iq, rfl⟩]

theorem ne_three_of_mem_legalCombos (h : (m, ch, firEn) ∈ legalCombos) : m ≠ 3 := by
  revert m ch firEn
  decide

theorem modeCode_eq_zero : modeCode mode = 0 ↔ mode = .carrier := by
  cases mode <;> decide

/-! ## The checks -/

theorem raiseFault_live (hlive : s.fault = false) (e : ErrCode) :
    raiseFault e s = .next (FaultEntered (errBits e) s) := by
  rw [raiseFault, enterFault, hlive]
  rfl

theorem cfgOn_state (hlive : s.fault = false) (hcfg : s.cfgv = true) :
    cfgOn I (modeCode mode) ch firEn f r s = .next (FaultEntered 0x11 s) := by
  simp [cfgOn, modeOf_modeCode, hlive, hcfg, raiseFault_live, errBits]

theorem cfgOn_chan (hlive : s.fault = false) (hnew : s.cfgv = false) (hcombo : legalCombo mode ch firEn = false) :
    cfgOn I (modeCode mode) ch firEn f r s = .next (FaultEntered 0x13 s) := by
  simp [cfgOn, modeOf_modeCode, hlive, hnew, hcombo, raiseFault_live, errBits]

theorem cfgOn_freq (hlive : s.fault = false) (hnew : s.cfgv = false) (hcombo : legalCombo mode ch firEn = true)
    (hfreq : freqOk I s.draws f = false) :
    cfgOn I (modeCode mode) ch firEn f r s = .next (FaultEntered 0x14 s) := by
  simp [cfgOn, modeOf_modeCode, hlive, hnew, hcombo, hfreq, raiseFault_live, errBits]

theorem cfgOn_rate (hlive : s.fault = false) (hnew : s.cfgv = false) (hcombo : legalCombo mode ch firEn = true)
    (hfreq : freqOk I s.draws f = true) (hmode : mode ≠ .carrier) (hrate : rateOk r = false) :
    cfgOn I (modeCode mode) ch firEn f r s = .next (FaultEntered 0x15 s) := by
  simp [cfgOn, modeOf_modeCode, hlive, hnew, hcombo, hfreq, hmode, hrate, raiseFault_live, errBits]

/-- The checks of `CFG` before the table is built (R100). -/
structure CfgPasses (I : Impl) (s : State) (mode : Mode) (ch : BitVec 2) (firEn : Bool) (f r : F32) : Prop where
  live  : s.fault = false
  new   : s.cfgv = false
  combo : legalCombo mode ch firEn = true
  freq  : freqOk I s.draws f = true
  rate  : mode ≠ .carrier → rateOk r = true

theorem CfgPasses.rate_check (h : CfgPasses I s mode ch firEn f r) : (mode != .carrier && !rateOk r) = false := by
  simpa using h.rate

theorem CfgPasses.cfgOn_overflow (h : CfgPasses I s mode ch firEn f r) (htab : buildTable I s.draws mode f = none) :
    cfgOn I (modeCode mode) ch firEn f r s = .next (FaultEntered 0x16 s) := by
  simp [cfgOn, modeOf_modeCode, h.live, h.new, h.combo, h.freq, h.rate_check, htab, raiseFault_live, errBits]

theorem CfgPasses.cfgOn_commit (h : CfgPasses I s mode ch firEn f r) {tab : List (F32 × F32)}
    (htab : buildTable I s.draws mode f = some tab) : cfgOn I (modeCode mode) ch firEn f r s =
      .next (respond 0x00 (BitVec.ofNat 32 tab.length) 0 (commit I mode ch firEn f r tab s)) := by
  simp [cfgOn, modeOf_modeCode, h.live, h.new, h.combo, h.freq, h.rate_check, htab]

theorem faultEntered_ne_of_code {c c' : BitVec 8} (h : c ≠ c') :
    (.next (FaultEntered c s) : Result) ≠ .next (FaultEntered c' s) :=
  fun heq => h (congrArg State.errcode (Host.Outcome.next.inj heq))

/-- A `CFG` with a legal combination ends in another way than `E_CHAN`. -/
theorem cfgOn_ne_chan (hlive : s.fault = false) (hnew : s.cfgv = false) (hcombo : legalCombo mode ch firEn = true) :
    cfgOn I (modeCode mode) ch firEn f r s ≠ .next (FaultEntered 0x13 s) := by
  cases hfreq : freqOk I s.draws f with
  | false =>
    rw [cfgOn_freq hlive hnew hcombo hfreq]
    exact faultEntered_ne_of_code (by decide)
  | true =>
    by_cases hrate : mode ≠ .carrier → rateOk r = true
    · have hpass : CfgPasses I s mode ch firEn f r := ⟨hlive, hnew, hcombo, hfreq, hrate⟩
      cases htab : buildTable I s.draws mode f with
      | none =>
        rw [hpass.cfgOn_overflow htab]
        exact faultEntered_ne_of_code (by decide)
      | some tab =>
        rw [hpass.cfgOn_commit htab]
        intro heq
        have hfault : s.fault = (FaultEntered 0x13 s).fault := by
          simpa using congrArg State.fault (Host.Outcome.next.inj heq)
        exact Bool.false_ne_true (hlive.symm.trans hfault)
    · obtain ⟨hmode, hrate⟩ := Classical.not_imp.1 hrate
      rw [cfgOn_rate hlive hnew hcombo hfreq hmode (Bool.eq_false_iff.2 hrate)]
      exact faultEntered_ne_of_code (by decide)

/-- Settles O13: only the check of R101 raises `E_CHAN`. -/
theorem legalCombinations : Obligations.LegalCombinations := by
  intro s m ch firEn f r hlive hnew hm
  obtain ⟨mode, rfl⟩ := exists_modeCode hm
  refine ⟨fun h => ?_, fun h hmem => cfgOn_ne_chan hlive hnew (mem_legalCombos_iff.1 hmem) h⟩
  exact cfgOn_chan hlive hnew (Bool.eq_false_iff.2 (mem_legalCombos_iff.not.1 h))

/-- Settles O14, with the operand ranges as real numbers. -/
theorem cfgFaults : Obligations.CfgFaults := by
  intro s m ch firEn f r hlive hm
  obtain ⟨mode, rfl⟩ := exists_modeCode hm
  refine ⟨fun hcfg => cfgOn_state hlive hcfg, fun hnew hmem hf => ?_, fun hnew hmem hf h0 hfs hmode hr => ?_⟩
  · exact cfgOn_freq hlive hnew (mem_legalCombos_iff.1 hmem) (Bool.eq_false_iff.2 ((freqOk_iff impl_legal).not.2 hf))
  · exact cfgOn_rate hlive hnew (mem_legalCombos_iff.1 hmem) ((freqOk_iff impl_legal).2 ⟨hf, h0, hfs⟩)
      (modeCode_eq_zero.not.1 hmode) (Bool.eq_false_iff.2 (rateOk_iff.not.2 hr))

/-! ## Hits -/

/-- The number of hits at the indices below `k` (R104). -/
def hits (I : Impl) (d : Nat) (f : F32) (k : Nat) : Nat := Nat.count (fun j => hitAt I d f j = true) k

theorem hits_zero : hits I d f 0 = 0 := Nat.count_zero _

theorem hits_succ : hits I d f (k + 1) = if hitAt I d f k then hits I d f k + 1 else hits I d f k := by
  rw [hits, Nat.count_succ]
  split_ifs <;> rfl

theorem thirdHit_iff : ThirdHit I d f K ↔ hitAt I d f K = true ∧ hits I d f K = 2 := by
  have hlen : hits I d f K = ((List.range K).filter (hitAt I d f)).length := by
    simp [hits, Nat.count, List.countP_eq_length_filter]
  rw [hlen]
  exact ⟨fun ⟨h, h2⟩ => ⟨h, h2⟩, fun ⟨h, h2⟩ => ⟨h, h2⟩⟩

theorem ThirdHit.eq {j : Nat} (hj : ThirdHit I d f j) (hK : ThirdHit I d f K) : j = K := by
  obtain ⟨hj, hj2⟩ := thirdHit_iff.1 hj
  obtain ⟨hK, hK2⟩ := thirdHit_iff.1 hK
  exact Nat.count_injective hj hK (hj2.trans hK2.symm)

theorem ThirdHit.hits_le (hK : ThirdHit I d f K) (hk : k ≤ K) : hits I d f k ≤ 2 :=
  (Nat.count_monotone _ hk).trans_eq (thirdHit_iff.1 hK).2

theorem hits_succ_eq_three_iff (h : hits I d f k ≤ 2) : hits I d f (k + 1) = 3 ↔ ThirdHit I d f k := by
  rw [thirdHit_iff, hits_succ]
  split_ifs with hhit
  · simp [hhit]
  · simp only [hhit, Bool.false_eq_true, false_and, iff_false]
    omega

theorem hits_succ_le (h : hits I d f k ≤ 2) (hk : ¬ThirdHit I d f k) : hits I d f (k + 1) ≤ 2 := by
  have hne := (hits_succ_eq_three_iff h).not.2 hk
  rw [hits_succ] at hne ⊢
  split_ifs at hne ⊢ <;> omega

/-! ## The loop of R104 -/

/-- The loop's own count of hits after index `k`. -/
theorem loop_hits : (if isHit (I.sin64 (theta I d f k)) then hits I d f k + 1 else hits I d f k) = hits I d f (k + 1) :=
  hits_succ.symm

theorem tableFrom_at_thirdHit (hk : ThirdHit I d f k) : tableFrom I d mode f room k (hits I d f k) = some [] := by
  have h3 := (hits_succ_eq_three_iff (hk.hits_le le_rfl)).2 hk
  cases room <;> simp only [tableFrom, loop_hits, if_pos h3]

theorem tableFrom_full (h : hits I d f k ≤ 2) (hk : ¬ThirdHit I d f k) :
    tableFrom I d mode f 0 k (hits I d f k) = none := by
  simp only [tableFrom, loop_hits, if_neg ((hits_succ_eq_three_iff h).not.2 hk)]

theorem tableFrom_store (h : hits I d f k ≤ 2) (hk : ¬ThirdHit I d f k) :
    tableFrom I d mode f (room + 1) k (hits I d f k) =
      (tableFrom I d mode f room (k + 1) (hits I d f (k + 1))).map (tableEntry I d mode f k :: ·) := by
  simp only [tableFrom, loop_hits, if_neg ((hits_succ_eq_three_iff h).not.2 hk)]

theorem tableFrom_of_thirdHit (hK : ThirdHit I d f K) {n : Nat} (hk : k + n = K) (hn : n ≤ room) :
    tableFrom I d mode f room k (hits I d f k) = some ((List.range' k n).map (tableEntry I d mode f)) := by
  induction n generalizing k room with
  | zero =>
    subst hk
    exact tableFrom_at_thirdHit hK
  | succ n ih =>
    obtain ⟨room, rfl⟩ : ∃ j, room = j + 1 := ⟨room - 1, by omega⟩
    have hk' : ¬ThirdHit I d f k := fun h => by
      have := h.eq hK
      omega
    rw [tableFrom_store (hK.hits_le (by omega)) hk', ih (by omega) (by omega), List.range'_succ]
    rfl

theorem tableFrom_of_no_thirdHit (h : hits I d f k ≤ 2) (hno : ∀ K ≤ k + room, ¬ThirdHit I d f K) :
    tableFrom I d mode f room k (hits I d f k) = none := by
  have hk := hno k (by omega)
  induction room generalizing k with
  | zero => exact tableFrom_full h hk
  | succ room ih =>
    rw [tableFrom_store h hk, ih (hits_succ_le h hk) (fun K hK => hno K (by omega)) (hno (k + 1) (by omega))]
    rfl

/-- The table has an entry for each index before the third hit. -/
theorem buildTable_of_thirdHit (hK : ThirdHit I d f K) (hmax : K ≤ I.tblMax) :
    buildTable I d mode f = some ((List.range K).map (tableEntry I d mode f)) := by
  rw [List.range_eq_range', buildTable]
  exact tableFrom_of_thirdHit hK (Nat.zero_add K) hmax

theorem buildTable_of_no_thirdHit (hno : ∀ K ≤ I.tblMax, ¬ThirdHit I d f K) : buildTable I d mode f = none :=
  tableFrom_of_no_thirdHit (by rw [hits_zero]; decide) (by rwa [Nat.zero_add])

/-- R106, on every implementation. -/
theorem CfgPasses.cfgOn_no_thirdHit (h : CfgPasses I s mode ch firEn f r) (hno : ∀ K ≤ I.tblMax, ¬ThirdHit I s.draws f K) :
    cfgOn I (modeCode mode) ch firEn f r s = .next (FaultEntered 0x16 s) :=
  h.cfgOn_overflow (buildTable_of_no_thirdHit hno)

/-- The checks of `CFG` as the statements name them, on the `MODE` field. -/
theorem exists_cfgPasses (hlive : s.fault = false) (hnew : s.cfgv = false) (hmem : (m, ch, firEn) ∈ legalCombos)
    (hfreq : freqOk I s.draws f = true) (hrate : m ≠ 0 → rateOk r = true) :
    ∃ mode, modeCode mode = m ∧ CfgPasses I s mode ch firEn f r := by
  obtain ⟨mode, rfl⟩ := exists_modeCode (ne_three_of_mem_legalCombos hmem)
  exact ⟨mode, rfl, hlive, hnew, mem_legalCombos_iff.1 hmem, hfreq, fun h => hrate (modeCode_eq_zero.not.2 h)⟩

/-- Settles O15: without a third hit the loop of R104 runs out of room. -/
theorem tableOverflow : Obligations.TableOverflow := by
  refine ⟨fun I s m ch firEn f r hlive hnew hmem hfreq hrate hno => ?_, fun _ _ _ _ _ _ => rfl⟩
  obtain ⟨mode, rfl, hpass⟩ := exists_cfgPasses hlive hnew hmem hfreq hrate
  exact hpass.cfgOn_no_thirdHit hno

end Sys2Proof.Machine
end

section
/-! SUPPORT. What an accepted CFG commits (R107): the start of the table (R104, R105), the table, the rate (R109) and the filter (R131 to R133). -/

namespace Sys2Proof.Machine

variable {I : Impl} {s : State} {mode : Mode} {ch : BitVec 2} {firEn : Bool} {f r : F32} {n : F64} {d k K : Nat}

/-! ## The angle at index 0 -/

theorem real64_twoPi64 : finite64 twoPi64 = true ∧ real64 twoPi64 = 7074237752028440 * (2 : ℝ) ^ (-50 : Int) := by
  refine ⟨by decide, ?_⟩
  rw [real64, f64.real_of_unpack (show f64.unpack twoPi64.toNat = .fin false 7074237752028440 (-50) by decide)]
  norm_num [FVal.real]

theorem pow_lt_overflowAt64 : (2 : ℝ) ^ (100 : Int) < f64.overflowAt := by
  rw [Fmt.overflowAt, show f64.emin + ((2 ^ f64.eb : Nat) : Int) - 4 = 970 by decide]
  calc (2 : ℝ) ^ (100 : Int) < (2 : ℝ) ^ (970 : Int) := zpow_lt_zpow_right₀ one_lt_two (by decide)
    _ ≤ ((2 : ℝ) ^ (f64.fb + 2) - 1) * (2 : ℝ) ^ (970 : Int) := le_mul_of_one_le_left (by positivity) (by norm_num [f64])

/-- An accepted frequency lies below 2^23 Hz (R6, R102). -/
theorem freqOk_bounds (hL : I.Legal) (hf : freqOk I d f = true) : finite32 f = true ∧ 0 < real32 f ∧ real32 f < 2 ^ 23 := by
  obtain ⟨hfin, h0, hfs⟩ := (freqOk_iff hL).1 hf
  have hmax := (fs_real_bounds hL).2
  exact ⟨hfin, h0, by linarith⟩

/-- `2*pi*f` of an accepted frequency is rounded to a positive finite number. -/
theorem twoPi_mul_freq (hL : I.Legal) (hf : freqOk I d f = true) (n : F64) :
    f64.Rounds (real64 twoPi64 * real32 f) (fmul64 n twoPi64 (cvt32to64 n f)).toNat ∧
      0 < real64 twoPi64 * real32 f ∧ |real64 twoPi64 * real32 f| < f64.overflowAt := by
  obtain ⟨hfin, h0, hlt⟩ := freqOk_bounds hL hf
  obtain ⟨hcfin, hc⟩ := cvt32to64_exact n hfin
  obtain ⟨hpfin, hp⟩ := real64_twoPi64
  have hp0 : 0 < real64 twoPi64 ∧ real64 twoPi64 < 7 := by
    rw [hp]
    norm_num
  have hpos := mul_pos hp0.1 h0
  refine ⟨?_, hpos, ?_⟩
  · rw [toNat_fmul64, ← hc]
    exact mulRounds f64 (by decide) _ _ _ hpfin hcfin (by rw [← real64, ← real64, hc]; exact hpos.ne')
  · rw [abs_of_pos hpos]
    refine lt_trans ?_ pow_lt_overflowAt64
    calc real64 twoPi64 * real32 f < 7 * 2 ^ 23 := mul_lt_mul'' hp0.2 hlt hp0.1.le h0.le
      _ < (2 : ℝ) ^ (100 : Int) := by norm_num

theorem real64_u2f64_fs (hL : I.Legal) : finite64 (u2f64 I.fs) = true ∧ real64 (u2f64 I.fs) = I.fs :=
  u2f64_exact (hL.1.2.trans_lt (by decide))

/-- R103 at index 0: a product with `+0` and its quotient by `FS64` are `+0`. -/
theorem angle_zero (hL : I.Legal) (hf : freqOk I d f = true) (n : F64) : angle I n f 0 = 0 := by
  obtain ⟨hround, hpos, hlt⟩ := twoPi_mul_freq hL hf n
  have hsign : f64.sign (fmul64 n twoPi64 (cvt32to64 n f)).toNat = false := by
    rw [hround.sign, decide_eq_false hpos.not_gt]
  have hmul : fmul64 n (fmul64 n twoPi64 (cvt32to64 n f)) (u2f64 0) = 0 := by
    have h := (Fmt.zero_mul_finite (F := f64) (by decide) n.toNat false (hround.finite hlt)).2
    rw [hsign] at h
    exact congrArg (BitVec.ofNat 64) h
  obtain ⟨hfin, hfs⟩ := real64_u2f64_fs hL
  have hfs0 : f64.real (u2f64 I.fs).toNat ≠ 0 := by
    have := (fs_real_bounds hL).1
    rw [← real64, hfs]
    positivity
  have hdiv := (Fmt.specials_with_nonzero (F := f64) (by decide) n.toNat false hfin hfs0).2.2.1
  rw [toNat_u2f64, f64.sign_roundMag, ← toNat_u2f64] at hdiv
  show fdiv64 n (fmul64 n (fmul64 n twoPi64 (cvt32to64 n f)) (u2f64 0)) (u2f64 I.fs) = 0
  rw [hmul]
  exact congrArg (BitVec.ofNat 64) hdiv

/-- R104, R105: index 0 is a hit. -/
theorem hitAt_zero (hL : I.Legal) (hN : NumericsOk I) (hf : freqOk I d f = true) : hitAt I d f 0 = true := by
  rw [hitAt, angle_zero hL hf, hN.sin_zero]
  decide

/-! ## Table entries -/

theorem cvt64to32_zero (m : F32) : cvt64to32 m 0 = 0 :=
  congrArg (BitVec.ofNat 32) (Fmt.convert_specials (F := f64) (by decide) f32 m.toNat false).2

theorem cvt64to32_one (m : F32) : cvt64to32 m 0x3FF0000000000000 = one32 := by
  rw [cvt64to32, Fmt.convert, show f64.unpack (BitVec.toNat (0x3FF0000000000000 : F64)) = .fin false (2 ^ 52) (-52) by decide]
  show BitVec.ofNat 32 (f32.pack false (f32.roundMag (2 ^ 52) (-52))) = one32
  decide

theorem tableEntry_fst : (tableEntry I d mode f k).1 = cvt64to32 (I.nan32 d)
    (if mode = .iq then I.cos64 (angle I (I.nan64 d) f k) else I.sin64 (angle I (I.nan64 d) f k)) := by
  cases mode <;> rfl

theorem tableEntry_iq_snd : (tableEntry I d .iq f k).2 = cvt64to32 (I.nan32 d) (I.sin64 (angle I (I.nan64 d) f k)) := rfl

/-- The first entry (R104): 1.0 and +0.0 in IQ mode, otherwise +0.0. -/
theorem tableEntry_zero (hL : I.Legal) (hN : NumericsOk I) (hf : freqOk I d f = true) :
    (tableEntry I d mode f 0).1 = (if mode = .iq then one32 else 0) ∧ (tableEntry I d .iq f 0).2 = 0 := by
  rw [tableEntry_fst, tableEntry_iq_snd, angle_zero hL hf, hN.sin_zero, hN.cos_zero, cvt64to32_zero]
  refine ⟨?_, rfl⟩
  split_ifs
  exacts [cvt64to32_one _, cvt64to32_zero _]

/-! ## What the commit leaves -/

/-- Entries `g 0 .. g (n-1)` written from index 0 on. -/
theorem Mem.read_writeFrom_range {α : Type} (m : Mem α) (g : Nat → α) (n i : Nat) :
    (m.writeFrom 0 ((List.range n).map g)).read i = if i < n then some (g i) else m.read i := by
  rw [Mem.read_writeFrom]
  by_cases h : i < n <;> simp [h]

/-- What `commit` can change (R107). -/
theorem commit_frame (I : Impl) (mode : Mode) (ch : BitVec 2) (firEn : Bool) (f r : F32) (tab : List (F32 × F32)) (s : State) :
    ∃ tlen srate ratio fcut ti tq h hist, commit I mode ch firEn f r tab s = { s with
      cfgv := true, mode := mode, ch := ch, firen := firEn, freq := f, phase := 0, afill := 0, wr := 0
      tlen := tlen, srate := srate, ratio := ratio, fcut := fcut, ti := ti, tq := tq, h := h, hist := hist } := by
  unfold commit commitFilter commitRate
  split_ifs <;> exact ⟨_, _, _, _, _, _, _, _, rfl⟩

theorem coefficient_zero (d : Nat) (fcut : F32) : coefficient I d fcut 0 =
    cvt64to32 (I.nan32 d) (fdiv64 (I.nan64 d) (cvt32to64 (I.nan64 d) fcut) (u2f64 I.fs)) := if_pos rfl

/-- R132 above the centre tap, with the constants of R10. -/
theorem coefficient_pos (d : Nat) (fcut : F32) {i : Nat} (hi : 1 ≤ i) : coefficient I d fcut i =
    cvt64to32 (I.nan32 d) (fmul64 (I.nan64 d)
      (fdiv64 (I.nan64 d) (I.sin64 (angle I (I.nan64 d) fcut i)) (fmul64 (I.nan64 d) 0x400921FB54442D18 (u2f64 i)))
      (fadd64 (I.nan64 d) 0x3FE147AE147AE148 (fmul64 (I.nan64 d) 0x3FDD70A3D70A3D71
        (I.cos64 (fdiv64 (I.nan64 d) (fmul64 (I.nan64 d) 0x400921FB54442D18 (u2f64 i)) (u2f64 (I.nh - 1))))))) :=
  if_neg (by omega)

/-- The state after a `CFG` whose table has `K` entries. -/
def committed (I : Impl) (mode : Mode) (ch : BitVec 2) (firEn : Bool) (f r : F32) (K : Nat) (s : State) : State :=
  respond 0x00 (BitVec.ofNat 32 K) 0 (commit I mode ch firEn f r ((List.range K).map (tableEntry I s.draws mode f)) s)

theorem CfgPasses.cfgOn_thirdHit (h : CfgPasses I s mode ch firEn f r) (hK : ThirdHit I s.draws f K) (hmax : K ≤ I.tblMax) :
    cfgOn I (modeCode mode) ch firEn f r s = .next (committed I mode ch firEn f r K s) := by
  rw [h.cfgOn_commit (buildTable_of_thirdHit hK hmax), List.length_map, List.length_range]
  rfl

theorem committed_frame : committed I mode ch firEn f r K s =
    { Answered 0x00 (BitVec.ofNat 32 K) 0 s with
      cfgv := true, mode := mode, ch := ch, firen := firEn, freq := f
      tlen := (committed I mode ch firEn f r K s).tlen, phase := 0, afill := 0, wr := 0
      fcut := (committed I mode ch firEn f r K s).fcut
      srate := (committed I mode ch firEn f r K s).srate, ratio := (committed I mode ch firEn f r K s).ratio
      ti := (committed I mode ch firEn f r K s).ti, tq := (committed I mode ch firEn f r K s).tq
      h := (committed I mode ch firEn f r K s).h, hist := (committed I mode ch firEn f r K s).hist } := by
  unfold committed
  obtain ⟨_, _, _, _, _, _, _, _, heq⟩ :=
    commit_frame I mode ch firEn f r ((List.range K).map (tableEntry I s.draws mode f)) s
  rw [heq]
  rfl

theorem committed_tlen (hK : K < 2 ^ 32) : (committed I mode ch firEn f r K s).tlen.toNat = K := by
  simpa [committed] using hK

theorem committed_ti (k : Nat) : (committed I mode ch firEn f r K s).ti.read k =
    if k < K then some (tableEntry I s.draws mode f k).1 else s.ti.read k := by
  simp only [committed, respond_ti, commit_ti, List.map_map, Mem.read_writeFrom_range]
  rfl

theorem committed_tq_iq (k : Nat) : (committed I .iq ch firEn f r K s).tq.read k =
    if k < K then some (tableEntry I s.draws .iq f k).2 else s.tq.read k := by
  simp only [committed, respond_tq, commit_tq, if_true, List.map_map, Mem.read_writeFrom_range]
  rfl

theorem committed_h (i : Nat) : (committed I mode ch true f r K s).h.read i =
    if i < I.nh then some (coefficient I s.draws (cutoff I s.draws r) i) else s.h.read i := by
  simp only [committed, respond_h, commit_h, if_true, coefficients, Mem.read_writeFrom_range]

theorem committed_hist (i : Nat) : (committed I mode ch true f r K s).hist.read i =
    if i < I.len then some 0 else s.hist.read i := by
  have hzero : List.replicate I.len (0 : F32) = (List.range I.len).map fun _ => 0 := by simp
  simp only [committed, respond_hist, commit_hist, if_true, hzero, Mem.read_writeFrom_range]

/-- Settles O12, field by field of the committed state. -/
theorem cfgCompletes : Obligations.CfgCompletes := by
  rintro s mode ch firEn f r K _ _ rfl rfl hlive hnew hmem h0 hfs hrate hK hmax
  have hpass : CfgPasses impl s mode ch firEn f r := by
    refine ⟨hlive, hnew, mem_legalCombos_iff.1 hmem, ?_, fun hmode => ?_⟩
    · rw [freqOk, h0, hfs, Bool.and_self]
    · rw [rateOk, (hrate hmode).1, (hrate hmode).2, Bool.and_self]
  have hK32 : K < 2 ^ 32 := by
    obtain ⟨-, ⟨-, hlt⟩, -⟩ := impl_legal
    omega
  refine ⟨_, hpass.cfgOn_thirdHit hK hmax, committed_frame, committed_tlen hK32, fun k hk => ?_, fun k hk => ?_, ?_, ?_,
    ?_, ?_, ?_, ?_⟩
  · rw [committed_ti, if_pos hk, tableEntry_fst]
  · rw [committed_ti, if_neg hk.not_gt]
  · rintro rfl
    refine ⟨fun k hk => ?_, fun k hk => ?_⟩
    · rw [committed_tq_iq, if_pos hk, tableEntry_iq_snd]
    · rw [committed_tq_iq, if_neg hk.not_gt]
  · intro hmode
    simp [committed, hmode]
  · intro hmode
    simp [committed, hmode]
  · intro hmode
    simp [committed, hmode]
  · rintro rfl
    simp [committed]
  · rintro rfl
    have hfcut : (committed impl mode ch true f r K s).fcut = cutoff impl s.draws r := by simp [committed]
    rw [hfcut]
    refine ⟨rfl, ?_, fun i h1 hi => ?_, fun i hi => ?_, fun i hi => ?_, fun i hi => ?_⟩
    · have hnh : 0 < impl.nh := by
        obtain ⟨-, -, ⟨h2, -⟩, -⟩ := impl_legal
        omega
      rw [committed_h, if_pos hnh, coefficient_zero]
    · rw [committed_h, if_pos hi, coefficient_pos _ _ h1]
    · rw [committed_h, if_neg hi.not_gt]
    · rw [committed_hist, if_pos hi]
    · rw [committed_hist, if_neg hi.not_gt]

/-- A table that was built starts with the entry of index 0, and has two entries at least. -/
theorem buildTable_some {tab : List (F32 × F32)} (h : buildTable I d mode f = some tab) :
    (∃ rest, tab = tableEntry I d mode f 0 :: rest) ∧ 2 ≤ tab.length ∧ tab.length ≤ I.tblMax := by
  obtain ⟨hlo, hhi⟩ := tableFrom_length h
  rw [Nat.zero_add] at hlo
  obtain ⟨_, -, ⟨-, rfl⟩ | ⟨_, rest, -, -, rfl⟩⟩ := tableFrom_some h
  · cases hlo
  · exact ⟨⟨rest, rfl⟩, hlo, hhi⟩

/-- Settles O17: the angle at index 0 is `+0`, where `SIN64` and `COS64` are exact. -/
theorem tableStart : Obligations.TableStart := by
  intro s t m ch firEn f r hlive hnew hexec hok
  cases exec_effect hexec with
  | refused hfault => exact absurd (hlive.symm.trans hfault) Bool.false_ne_true
  | faulted e => exact absurd hok (by simp)
  | @cfg _ _ _ _ _ mode tab _ _ _ _ hfreq _ htab =>
    obtain ⟨⟨rest, rfl⟩, hlo, hhi⟩ := buildTable_some htab
    have hlen : (BitVec.ofNat 32 (tableEntry impl s.draws mode f 0 :: rest).length).toNat =
        (tableEntry impl s.draws mode f 0 :: rest).length := by
      obtain ⟨-, ⟨-, hlt⟩, -⟩ := impl_legal
      exact (BitVec.toNat_ofNat ..).trans (Nat.mod_eq_of_lt (by omega))
    have hfst := (tableEntry_zero (mode := mode) impl_legal impl_numerics hfreq).1
    have hsnd := (tableEntry_zero (mode := .iq) impl_legal impl_numerics hfreq).2
    refine ⟨hitAt_zero impl_legal impl_numerics hfreq, ?_, ?_, by simp, fun hmode => ?_, fun hmode => ?_⟩
    · rwa [respondOk_eq, respond_tlen, commit_tlen, hlen]
    · rwa [respondOk_eq, respond_tlen, commit_tlen, hlen]
    · have hmode : mode ≠ .iq := by simpa using hmode
      simp [Mem.read_writeFrom, hfst, hmode]
    · obtain rfl : mode = .iq := by simpa using hmode
      simp [Mem.read_writeFrom, hfst, hsnd]

end Sys2Proof.Machine
end

section
/-! SUPPORT. R108: for `f/FS = p/q` the rounded angle stays so near `2*pi*k*p/q` that index `k` is a hit exactly when `2*k*p/q` is a whole number. -/

namespace Sys2Proof.Machine

open Real

variable {I : Impl} {s : State} {f : F32} {n a b : F64} {d k p q K : Nat} {x v ε : ℝ}

/-! ## Relative errors -/

/-- `a` is finite and denotes the positive `x` with a relative error of at most `ε`. -/
structure Within (ε x : ℝ) (a : F64) : Prop where
  finite : finite64 a = true
  near   : |real64 a - x| ≤ ε * x

/-- Every number of moderate size has a binary64 number near it. -/
theorem exists_near64 (hlo : (2 : ℝ) ^ (-100 : Int) ≤ v) (hhi : v ≤ (2 : ℝ) ^ (99 : Int)) :
    ∃ y, f64.finite y = true ∧ |f64.real y - v| ≤ (2 : ℝ) ^ (-52 : Int) * v := by
  have hv : 0 ≤ v * 2 ^ 200 := by
    have : (0 : ℝ) < (2 : ℝ) ^ (-100 : Int) := by positivity
    have := this.le.trans hlo
    positivity
  obtain ⟨m, hm⟩ : ∃ m, ⌊v * 2 ^ 200⌋₊ = m := ⟨_, rfl⟩
  have hscale : (m : ℝ) * (2 : ℝ) ^ (-200 : Int) ≤ v ∧ v < (m : ℝ) * (2 : ℝ) ^ (-200 : Int) + (2 : ℝ) ^ (-200 : Int) := by
    have h1 := Nat.floor_le hv
    have h2 := Nat.lt_floor_add_one (v * 2 ^ 200)
    rw [hm] at h1 h2
    have hz : (2 : ℝ) ^ (-200 : Int) = (2 ^ 200)⁻¹ := by rw [zpow_neg, zpow_ofNat]
    rw [hz, ← add_one_mul, ← div_eq_mul_inv, ← div_eq_mul_inv, div_le_iff₀ (by positivity), lt_div_iff₀ (by positivity)]
    exact ⟨h1, h2⟩
  obtain ⟨h1, h2⟩ := hscale
  have hfin : f64.roundMag m (-200) < f64.infMag :=
    f64.roundMag_lt_infMag (s := 100) ((h1.trans hhi).trans_lt (by norm_num)) (by decide) (by decide)
  refine ⟨f64.roundMag m (-200), Fmt.finite_roundMag hfin, ?_⟩
  have hnear := f64.roundMag_near m (-200) hfin
  rw [show -(f64.fb : Int) - 1 = -53 by decide, show f64.emin - 1 = -1075 by decide] at hnear
  rw [f64.real_roundMag hfin]
  have htiny : (2 : ℝ) ^ (-1075 : Int) ≤ (2 : ℝ) ^ (-200 : Int) := zpow_le_zpow_right₀ one_le_two (by decide)
  have hstep : (2 : ℝ) ^ (-200 : Int) + (2 : ℝ) ^ (-200 : Int) ≤ (2 : ℝ) ^ (-53 : Int) * v :=
    le_trans (by norm_num) (mul_le_mul_of_nonneg_left hlo (by positivity))
  have hbound : (m : ℝ) * (2 : ℝ) ^ (-200 : Int) * (2 : ℝ) ^ (-53 : Int) ≤ v * (2 : ℝ) ^ (-53 : Int) := by gcongr
  have h52 : (2 : ℝ) ^ (-52 : Int) = (2 : ℝ) ^ (-53 : Int) + (2 : ℝ) ^ (-53 : Int) := by norm_num
  rw [abs_le] at hnear ⊢
  rw [h52]
  constructor <;> linarith [hnear.1, hnear.2]

/-- A rounding adds 2^-51 to the relative error. -/
theorem Within.of_rounds (h : f64.Rounds v a.toNat) (hv : |v - x| ≤ ε * x) (hε : ε ≤ 1 / 2)
    (hlo : (2 : ℝ) ^ (-90 : Int) ≤ x) (hhi : x ≤ (2 : ℝ) ^ (90 : Int)) : Within (ε + (2 : ℝ) ^ (-51 : Int)) x a := by
  have hx : 0 < x := lt_of_lt_of_le (by positivity) hlo
  have hεx : ε * x ≤ 1 / 2 * x := by gcongr
  obtain ⟨hv1, hv2⟩ := abs_le.1 (hv.trans hεx)
  have hvlo : (2 : ℝ) ^ (-100 : Int) ≤ v := by
    calc (2 : ℝ) ^ (-100 : Int) ≤ 1 / 2 * (2 : ℝ) ^ (-90 : Int) := by norm_num
      _ ≤ 1 / 2 * x := by gcongr
      _ ≤ v := by linarith
  have hvhi : v ≤ (2 : ℝ) ^ (99 : Int) := by
    calc v ≤ 3 / 2 * x := by linarith
      _ ≤ 3 / 2 * (2 : ℝ) ^ (90 : Int) := by gcongr
      _ ≤ (2 : ℝ) ^ (99 : Int) := by norm_num
  have hlt : |v| < f64.overflowAt := by
    rw [abs_of_pos (lt_of_lt_of_le (by positivity) hvlo)]
    exact (hvhi.trans (by norm_num)).trans_lt pow_lt_overflowAt64
  obtain ⟨y, hy, hyv⟩ := exists_near64 hvlo hvhi
  refine ⟨h.finite hlt, ?_⟩
  calc |real64 a - x| ≤ |real64 a - v| + |v - x| := abs_sub_le _ _ _
    _ ≤ (2 : ℝ) ^ (-52 : Int) * v + ε * x := add_le_add ((h.nearest hlt y hy).trans hyv) hv
    _ ≤ (2 : ℝ) ^ (-52 : Int) * (2 * x) + ε * x := by gcongr; linarith
    _ = (ε + (2 : ℝ) ^ (-51 : Int)) * x := by
      rw [show (2 : ℝ) ^ (-51 : Int) = (2 : ℝ) ^ (-52 : Int) * 2 by norm_num]
      ring

theorem Within.pos (h : Within ε x a) (hε : ε ≤ 1 / 2) (hx : 0 < x) : 0 < real64 a := by
  have h1 := (abs_le.1 h.near).1
  have h2 : ε * x ≤ 1 / 2 * x := by gcongr
  linarith

theorem Within.mul (h : Within ε x a) {y : ℝ} (hb : finite64 b = true) (hy : real64 b = y) (hy0 : 0 < y) (hε : ε ≤ 1 / 2)
    (hlo : (2 : ℝ) ^ (-90 : Int) ≤ x * y) (hhi : x * y ≤ (2 : ℝ) ^ (90 : Int)) (n : F64) :
    Within (ε + (2 : ℝ) ^ (-51 : Int)) (x * y) (fmul64 n a b) := by
  have hx : 0 < x := pos_of_mul_pos_left (lt_of_lt_of_le (by positivity) hlo) hy0.le
  have ha0 := h.pos hε hx
  have hround := mulRounds f64 (by decide) n.toNat a.toNat b.toNat h.finite hb
    (by rw [← real64, ← real64, hy]; exact (mul_pos ha0 hy0).ne')
  rw [← toNat_fmul64, ← real64, ← real64, hy] at hround
  refine .of_rounds hround ?_ hε hlo hhi
  rw [← sub_mul, abs_mul, abs_of_pos hy0, ← mul_assoc]
  exact mul_le_mul_of_nonneg_right h.near hy0.le

theorem Within.div (h : Within ε x a) {y : ℝ} (hb : finite64 b = true) (hy : real64 b = y) (hy0 : 0 < y) (hε : ε ≤ 1 / 2)
    (hlo : (2 : ℝ) ^ (-90 : Int) ≤ x / y) (hhi : x / y ≤ (2 : ℝ) ^ (90 : Int)) (n : F64) :
    Within (ε + (2 : ℝ) ^ (-51 : Int)) (x / y) (fdiv64 n a b) := by
  have hx : 0 < x := by
    have : 0 < x / y := lt_of_lt_of_le (by positivity) hlo
    exact (div_pos_iff_of_pos_right hy0).1 this
  have ha0 := h.pos hε hx
  have hround := divRounds f64 (by decide) n.toNat a.toNat b.toNat h.finite hb
    (by rw [← real64]; exact ha0.ne') (by rw [← real64, hy]; exact hy0.ne')
  rw [← toNat_fdiv64, ← real64, ← real64, hy] at hround
  refine .of_rounds hround ?_ hε hlo hhi
  rw [← sub_div, abs_div, abs_of_pos hy0, ← mul_div_assoc]
  exact div_le_div_of_nonneg_right h.near hy0.le

/-! ## The angle -/

theorem within_twoPi64 : Within ((2 : ℝ) ^ (-51 : Int)) (2 * π) twoPi64 := by
  obtain ⟨hfin, hreal⟩ := real64_twoPi64
  refine ⟨hfin, ?_⟩
  rw [hreal]
  have hlo := pi_gt_d20
  have hhi := pi_lt_d20
  norm_num at hlo hhi ⊢
  rw [abs_le]
  constructor <;> linarith

/-- R103: three roundings and the error of `2*pi` make a relative error of at most 2^-49. -/
theorem within_angle (hL : I.Legal) (hf : finite32 f = true) (hlo : (2 : ℝ) ^ (-20 : Int) ≤ real32 f)
    (hhi : real32 f ≤ (2 : ℝ) ^ (23 : Int)) (hk : 1 ≤ k) (hk' : k ≤ 2 ^ 21) (n : F64) :
    Within ((2 : ℝ) ^ (-49 : Int)) (2 * π * real32 f * k / I.fs) (angle I n f k) := by
  obtain ⟨hfs2, hfs24⟩ := fs_real_bounds hL
  obtain ⟨hcfin, hc⟩ := cvt32to64_exact n hf
  obtain ⟨hkfin, hkr⟩ := u2f64_exact (hk'.trans_lt (by decide))
  obtain ⟨hfsfin, hfsr⟩ := real64_u2f64_fs hL
  have hk1 : (1 : ℝ) ≤ k := by exact_mod_cast hk
  have hk21 : (k : ℝ) ≤ (2 : ℝ) ^ (21 : Int) := by exact_mod_cast hk'
  have hf0 : 0 < real32 f := lt_of_lt_of_le (by positivity) hlo
  have hπ : 1 ≤ 2 * π ∧ 2 * π ≤ 8 := ⟨by linarith [pi_gt_three], by linarith [pi_le_four]⟩
  have hA : (2 : ℝ) ^ (-20 : Int) ≤ 2 * π * real32 f ∧ 2 * π * real32 f ≤ (2 : ℝ) ^ (26 : Int) := by
    refine ⟨hlo.trans (le_mul_of_one_le_left hf0.le hπ.1), ?_⟩
    calc 2 * π * real32 f ≤ 8 * (2 : ℝ) ^ (23 : Int) := by gcongr; exact hπ.2
      _ = (2 : ℝ) ^ (26 : Int) := by norm_num
  have hB : (2 : ℝ) ^ (-20 : Int) ≤ 2 * π * real32 f * k ∧ 2 * π * real32 f * k ≤ (2 : ℝ) ^ (47 : Int) := by
    refine ⟨hA.1.trans (le_mul_of_one_le_right (by positivity) hk1), ?_⟩
    calc 2 * π * real32 f * k ≤ (2 : ℝ) ^ (26 : Int) * (2 : ℝ) ^ (21 : Int) := by gcongr; exact hA.2
      _ = (2 : ℝ) ^ (47 : Int) := by norm_num
  have hC : (2 : ℝ) ^ (-90 : Int) ≤ 2 * π * real32 f * k / I.fs ∧ 2 * π * real32 f * k / I.fs ≤ (2 : ℝ) ^ (90 : Int) := by
    rw [le_div_iff₀ (by linarith), div_le_iff₀ (by linarith)]
    constructor
    · calc (2 : ℝ) ^ (-90 : Int) * I.fs ≤ (2 : ℝ) ^ (-90 : Int) * 2 ^ 24 := by gcongr
        _ ≤ (2 : ℝ) ^ (-20 : Int) := by norm_num
        _ ≤ _ := hB.1
    · calc 2 * π * real32 f * k ≤ (2 : ℝ) ^ (90 : Int) * 2 := hB.2.trans (by norm_num)
        _ ≤ (2 : ℝ) ^ (90 : Int) * I.fs := by gcongr
  have h1 := within_twoPi64.mul hcfin hc hf0 (by norm_num) (le_trans (by norm_num) hA.1) (hA.2.trans (by norm_num)) n
  have h2 := h1.mul hkfin hkr (by linarith) (by norm_num) (le_trans (by norm_num) hB.1) (hB.2.trans (by norm_num)) n
  have h3 := h2.div hfsfin hfsr (by linarith) (by norm_num) hC.1 hC.2 n
  rw [show (2 : ℝ) ^ (-49 : Int) =
    (2 : ℝ) ^ (-51 : Int) + (2 : ℝ) ^ (-51 : Int) + (2 : ℝ) ^ (-51 : Int) + (2 : ℝ) ^ (-51 : Int) by norm_num]
  exact h3

/-! ## The sine at whole and broken multiples of pi -/

theorem sin_pi_mul_of_dvd (hq : 0 < q) (h : q ∣ k) : sin (π * ((k : ℝ) / q)) = 0 := by
  obtain ⟨c, rfl⟩ := h
  have hq' : (q : ℝ) ≠ 0 := by exact_mod_cast hq.ne'
  rw [Nat.cast_mul, mul_div_cancel_left₀ _ hq', mul_comm, sin_nat_mul_pi]

/-- Off the whole multiples of pi a sine of `pi*k/q` is at least `2/q` in magnitude. -/
theorem two_div_le_abs_sin (hq : 0 < q) (h : ¬q ∣ k) : 2 / (q : ℝ) ≤ |sin (π * ((k : ℝ) / q))| := by
  have hq' : (0 : ℝ) < q := by exact_mod_cast hq
  obtain ⟨j, hj⟩ : ∃ j, round ((k : ℝ) / q) = j := ⟨_, rfl⟩
  -- the distance to the nearest whole multiple
  have hhalf : |(k : ℝ) / q - j| ≤ 1 / 2 := hj ▸ abs_sub_round _
  have hdist : 1 / (q : ℝ) ≤ |(k : ℝ) / q - j| := by
    have hne : (k : Int) - j * q ≠ 0 := fun h0 =>
      h (Int.natCast_dvd_natCast.1 ⟨j, by rw [mul_comm]; omega⟩)
    have hone : (1 : ℝ) ≤ |(k : ℝ) - j * q| := by exact_mod_cast Int.one_le_abs hne
    rw [show (k : ℝ) / q - j = ((k : ℝ) - j * q) / q by field_simp, abs_div, abs_of_pos hq']
    gcongr
  have hsin : |sin (π * ((k : ℝ) / q))| = |sin (π * ((k : ℝ) / q - j))| := by
    rw [mul_sub, mul_comm π (j : ℝ), sin_sub_int_mul_pi, abs_mul, abs_zpow, abs_neg, abs_one, one_zpow, one_mul]
  have hx : |π * ((k : ℝ) / q - j)| = π * |(k : ℝ) / q - j| := by rw [abs_mul, abs_of_pos pi_pos]
  have hjordan := mul_abs_le_abs_sin (x := π * ((k : ℝ) / q - j)) (by rw [hx]; nlinarith [pi_pos])
  rw [hx, ← mul_assoc, div_mul_cancel₀ _ pi_ne_zero] at hjordan
  rw [hsin]
  calc 2 / (q : ℝ) = 2 * (1 / q) := by ring
    _ ≤ 2 * |(k : ℝ) / q - j| := by gcongr
    _ ≤ _ := hjordan

/-! ## Hits -/

/-- What R108 supposes: an accepted frequency with `f/FS = p/q` in lowest terms and `q` up to 2^20. -/
structure RationalFreq (I : Impl) (d : Nat) (f : F32) (p q : Nat) : Prop where
  legal    : I.Legal
  numerics : NumericsOk I
  freq     : freqOk I d f = true
  coprime  : p.Coprime q
  pos      : 0 < q
  le       : q ≤ 2 ^ 20
  ratio    : real32 f * q = p * (I.fs : ℝ)

theorem RationalFreq.freq_lo (h : RationalFreq I d f p q) : (2 : ℝ) ^ (-20 : Int) ≤ real32 f := by
  obtain ⟨-, h0, -⟩ := freqOk_bounds h.legal h.freq
  have hq : (0 : ℝ) < q := by exact_mod_cast h.pos
  have hq20 : (q : ℝ) ≤ 2 ^ 20 := by exact_mod_cast h.le
  have hfs := (fs_real_bounds h.legal).1
  have hp : (1 : ℝ) ≤ p := by
    have hp0 : (0 : ℝ) < p := pos_of_mul_pos_left (h.ratio ▸ mul_pos h0 hq) (by linarith)
    exact_mod_cast hp0
  refine le_of_mul_le_mul_right ?_ hq
  calc (2 : ℝ) ^ (-20 : Int) * q ≤ (2 : ℝ) ^ (-20 : Int) * 2 ^ 20 := by gcongr
    _ ≤ 1 * 2 := by norm_num
    _ ≤ p * I.fs := by gcongr
    _ = real32 f * q := h.ratio.symm

/-- The exact angle at index `k`, as a multiple of pi, and its bound. -/
theorem RationalFreq.exact_angle (h : RationalFreq I d f p q) (hk : k ≤ 2 ^ 21) :
    2 * π * real32 f * k / I.fs = π * (((2 * k * p : Nat) : ℝ) / q) ∧
      2 * π * real32 f * k / I.fs ≤ (2 : ℝ) ^ (23 : Int) := by
  obtain ⟨-, h0, hlt⟩ := (freqOk_iff h.legal).1 h.freq
  have hq : (0 : ℝ) < q := by exact_mod_cast h.pos
  have hfs : (0 : ℝ) < I.fs := by linarith [(fs_real_bounds h.legal).1]
  have hk21 : (k : ℝ) ≤ 2 ^ 21 := by exact_mod_cast hk
  constructor
  · rw [← mul_div_assoc, div_eq_div_iff hfs.ne' hq.ne']
    push_cast
    linear_combination 2 * π * k * h.ratio
  · rw [div_le_iff₀ hfs]
    calc 2 * π * real32 f * k ≤ 2 * 4 * (I.fs / 2) * 2 ^ 21 := by gcongr; exact pi_le_four
      _ = (2 : ℝ) ^ (23 : Int) * I.fs := by norm_num; ring

/-- `SIN64` of the rounded angle is near the sine of the exact one. -/
theorem RationalFreq.near_sin (h : RationalFreq I d f p q) (hk : 1 ≤ k) (hk' : k ≤ 2 ^ 21) (n : F64) :
    finite64 (I.sin64 (angle I n f k)) = true ∧
      |real64 (I.sin64 (angle I n f k)) - sin (π * (((2 * k * p : Nat) : ℝ) / q))| ≤ (2 : ℝ) ^ (-25 : Int) := by
  obtain ⟨hfin, -, hhi⟩ := freqOk_bounds h.legal h.freq
  obtain ⟨hθfin, hθ⟩ := within_angle h.legal hfin h.freq_lo (by exact_mod_cast hhi.le) hk hk' n
  obtain ⟨hX, hX23⟩ := h.exact_angle hk'
  rw [hX] at hθ hX23
  obtain ⟨hsfin, hs⟩ := h.numerics.sin_bound _ hθfin
  refine ⟨hsfin, (abs_sub_le _ (sin (real64 (angle I n f k))) _).trans ?_⟩
  have hlip : |sin (real64 (angle I n f k)) - sin (π * (((2 * k * p : Nat) : ℝ) / q))| ≤ (2 : ℝ) ^ (-26 : Int) :=
    calc _ ≤ |real64 (angle I n f k) - π * (((2 * k * p : Nat) : ℝ) / q)| := abs_sin_sub_sin_le _ _
      _ ≤ (2 : ℝ) ^ (-49 : Int) * (2 : ℝ) ^ (23 : Int) := hθ.trans (by gcongr)
      _ = (2 : ℝ) ^ (-26 : Int) := by norm_num
  exact (add_le_add hs hlip).trans (by norm_num)

theorem finite64_fabs64 (h : finite64 a = true) : finite64 (fabs64 a) = true := by
  rw [finite64, toNat_fabs64, Fmt.finite, Fmt.mag_mag]
  exact h

theorem real64_eps64 : finite64 eps64 = true ∧ (2 : ℝ) ^ (-24 : Int) ≤ real64 eps64 ∧ real64 eps64 ≤ (2 : ℝ) ^ (-23 : Int) := by
  refine ⟨by decide, ?_⟩
  rw [real64, f64.real_of_unpack (show f64.unpack eps64.toNat = .fin false 7555786372591432 (-76) by decide)]
  norm_num [FVal.real]

/-- R105 on real numbers. -/
theorem isHit_iff (h : finite64 a = true) : isHit a = true ↔ |real64 a| < real64 eps64 := by
  rw [← (comparisons_finite64 h h).2]
  exact (comparisons_finite64 (finite64_fabs64 h) real64_eps64.1).1

/-- The hits are the indices at which the exact sine is zero. -/
theorem RationalFreq.hitAt_iff (h : RationalFreq I d f p q) (hk : k ≤ 2 ^ 21) : hitAt I d f k = true ↔ q ∣ 2 * k := by
  rcases Nat.eq_zero_or_pos k with rfl | hk0
  · exact iff_of_true (hitAt_zero h.legal h.numerics h.freq) (dvd_zero q)
  · obtain ⟨hfin, hnear⟩ := h.near_sin hk0 hk (I.nan64 d)
    obtain ⟨-, hlo, hhi⟩ := real64_eps64
    refine (isHit_iff hfin).trans ⟨fun hhit => ?_, fun hdvd => ?_⟩
    · by_contra hdvd
      have hbroken : ¬q ∣ 2 * k * p := fun hd => hdvd (h.coprime.symm.dvd_of_dvd_mul_right hd)
      have hsin := two_div_le_abs_sin h.pos hbroken
      have hq20 : (2 : ℝ) ^ (-19 : Int) ≤ 2 / q := by
        have hq : (0 : ℝ) < q := by exact_mod_cast h.pos
        have hq20 : (q : ℝ) ≤ 2 ^ 20 := by exact_mod_cast h.le
        rw [le_div_iff₀ hq]
        calc (2 : ℝ) ^ (-19 : Int) * q ≤ (2 : ℝ) ^ (-19 : Int) * 2 ^ 20 := by gcongr
          _ = 2 := by norm_num
      have hlt : (2 : ℝ) ^ (-19 : Int) < (2 : ℝ) ^ (-19 : Int) :=
        calc (2 : ℝ) ^ (-19 : Int) ≤ |sin (π * (((2 * k * p : Nat) : ℝ) / q))| := hq20.trans hsin
          _ ≤ |real64 (I.sin64 (angle I (I.nan64 d) f k))| + |real64 (I.sin64 (angle I (I.nan64 d) f k)) -
              sin (π * (((2 * k * p : Nat) : ℝ) / q))| := by
            rw [abs_sub_comm, ← sub_le_iff_le_add']
            exact abs_sub_abs_le_abs_sub _ _
          _ ≤ (2 : ℝ) ^ (-23 : Int) + (2 : ℝ) ^ (-25 : Int) := add_le_add (hhit.le.trans hhi) hnear
          _ < (2 : ℝ) ^ (-19 : Int) := by norm_num
      exact lt_irrefl _ hlt
    · rw [sin_pi_mul_of_dvd h.pos (hdvd.mul_right p), sub_zero] at hnear
      exact hnear.trans_lt (lt_of_lt_of_le (by norm_num) hlo)

/-! ## The third hit -/

/-- The table entries from one hit to the next: the least number of them that spans a whole number of half cycles, for `f/FS` of denominator `q`. -/
def hitSpacing (q : Nat) : Nat := if q % 2 = 0 then q / 2 else q

theorem two_mul_hitSpacing (q : Nat) : 2 * hitSpacing q = if q % 2 = 0 then q else 2 * q := by
  unfold hitSpacing
  split_ifs with h
  · omega
  · rfl

theorem hitSpacing_pos (hq : 0 < q) : 0 < hitSpacing q := by
  unfold hitSpacing
  split_ifs <;> omega

theorem hitSpacing_le (q : Nat) : hitSpacing q ≤ q := by
  unfold hitSpacing
  split_ifs <;> omega

theorem dvd_two_mul_iff : q ∣ 2 * k ↔ hitSpacing q ∣ k := by
  unfold hitSpacing
  split_ifs with h
  · obtain ⟨j, rfl⟩ := Nat.dvd_of_mod_eq_zero h
    rw [Nat.mul_dvd_mul_iff_left two_pos, Nat.mul_div_cancel_left j two_pos]
  · have hodd : q.Coprime 2 := Nat.coprime_two_right.2 (Nat.odd_iff.2 (by omega))
    exact hodd.dvd_mul_left

theorem count_dvd_self (hk : 0 < k) : Nat.count (k ∣ ·) k = 1 := by
  obtain ⟨m, rfl⟩ : ∃ m, k = m + 1 := ⟨k - 1, by omega⟩
  rw [Nat.count_succ', if_pos (dvd_zero _), Nat.count_of_forall_not fun j hj hdvd => ?_]
  have := Nat.le_of_dvd j.succ_pos hdvd
  omega

theorem count_dvd_two_mul (hk : 0 < k) : Nat.count (k ∣ ·) (2 * k) = 2 := by
  rw [two_mul, Nat.count_add]
  simp only [Nat.dvd_add_self_left, count_dvd_self hk]

/-- R108: the third hit closes the second interval between hits. -/
theorem RationalFreq.thirdHit (h : RationalFreq I d f p q) : ThirdHit I d f (2 * hitSpacing q) := by
  have hle : 2 * hitSpacing q ≤ 2 ^ 21 := by
    have := hitSpacing_le q
    have := h.le
    omega
  have hiff : ∀ k ≤ 2 * hitSpacing q, hitAt I d f k = true ↔ hitSpacing q ∣ k := fun k hk =>
    (h.hitAt_iff (hk.trans hle)).trans dvd_two_mul_iff
  refine thirdHit_iff.2 ⟨(hiff _ le_rfl).2 (Nat.dvd_mul_left _ _), ?_⟩
  refine Eq.trans ?_ (count_dvd_two_mul (hitSpacing_pos h.pos))
  exact le_antisymm (Nat.count_mono_left fun k hk => (hiff k hk.le).1) (Nat.count_mono_left fun k hk => (hiff k hk.le).2)

/-- Settles O18: the hits below the third stand where the exact sine is zero. -/
theorem tableSpansWholeCycles : Obligations.TableSpansWholeCycles := by
  intro I d f p q K hL hN hf hpq hq hq20 hratio hK
  rw [← two_mul_hitSpacing] at hK
  have hthird : ThirdHit I d f K := hK ▸ (RationalFreq.mk hL hN hf hpq hq hq20 hratio).thirdHit
  refine ⟨fun j => ⟨fun hj => hj.eq hthird, fun hj => hj ▸ hthird⟩, ?_⟩
  rintro s m ch firEn r rfl hlive hnew hmem hrate
  obtain ⟨mode, rfl, hpass⟩ := exists_cfgPasses hlive hnew hmem hf hrate
  refine ⟨fun hmax => ⟨_, hpass.cfgOn_thirdHit hthird hmax, ?_, ?_, ?_⟩, fun hmax => ?_⟩
  · simp [committed, hlive]
  · obtain ⟨-, ⟨-, hlt⟩, -⟩ := hL
    exact committed_tlen (by omega)
  · simp [committed]
  · refine hpass.cfgOn_no_thirdHit fun j hj hj3 => ?_
    have := hj3.eq hthird
    omega

end Sys2Proof.Machine
end

section
/-! SUPPORT. FPUSH where the filter can run (R134, R136), and its answer to a constant input (R135): the window then holds one value, whose double is exact. -/

namespace Sys2Proof.Machine

variable {F : Fmt} {I : Impl} {s t : State} {n : Nat → F32} {hs ws : List F32} {v w : F32}

/-! ## Doubling a finite number -/

/-- The sum of finite numbers is no NaN, even where it overflows, so the NaN on offer does not matter. -/
theorem Fmt.add_nan_irrelevant {a b : Nat} (ha : F.finite a = true) (hb : F.finite b = true) (nan nan' : Nat) :
    F.add nan a b = F.add nan' a b := by
  obtain ⟨m, e, hu⟩ := F.unpack_finite ha
  obtain ⟨k, g, hv⟩ := F.unpack_finite hb
  simp only [Fmt.add, hu, hv]

/-- A double below the overflow threshold is a number of the format: the same significand, the exponent one higher. -/
theorem Fmt.exists_real_eq_double (hF : F.Wide) {x : Nat} (hx : F.finite x = true) (h0 : F.real x ≠ 0)
    (hlt : |2 * F.real x| < F.overflowAt) : ∃ y, F.finite y = true ∧ F.real y = 2 * F.real x := by
  obtain ⟨m, e, hu, hm, he, -⟩ := F.unpack_finite_bounds hx
  have hm0 : m ≠ 0 := fun h => h0 ((F.real_of_unpack hu).trans (FVal.real_fin_eq_zero.2 h))
  have hdouble : (FVal.fin (F.sign x) m (e + 1)).real = 2 * F.real x := by
    rw [F.real_of_unpack hu, FVal.real_fin, FVal.real_fin, zpow_add_one₀ two_ne_zero]
    ring
  have hfin : F.finite (F.pack (F.sign x) (F.roundMag m (e + 1))) = true :=
    (F.rounds_fin hF _ (e + 1) hm0).finite (by rwa [hdouble])
  have hmag : F.roundMag m (e + 1) < F.infMag := by
    rw [← F.mag_pack (F.sign x) (F.roundMag_lt m (e + 1))]
    exact of_decide_eq_true hfin
  refine ⟨_, hfin, ?_⟩
  rw [F.real_pack _ hmag, F.roundMag_exact hm (by omega) hmag, ← FVal.real_fin, hdouble]

/-- Rounding does not change a number of the format. -/
theorem Fmt.Rounds.real_eq {x : ℝ} {r y : Nat} (h : F.Rounds x r) (hx : |x| < F.overflowAt) (hy : F.finite y = true)
    (hyx : F.real y = x) : F.real r = x :=
  hyx ▸ le_antisymm (h.real_le hx hy hyx.ge) (h.le_real hx hy hyx.le)

/-- R135: the sum of a finite number with itself is exact where it does not overflow, and a zero where the number is one. -/
theorem fadd32_self_exact (nan : F32) (hv : finite32 v = true) (hlt : |2 * real32 v| < f32.overflowAt) :
    finite32 (fadd32 nan v v) = true ∧ real32 (fadd32 nan v v) = 2 * real32 v := by
  rw [finite32, real32, toNat_fadd32]
  rw [real32] at hlt ⊢
  by_cases h0 : f32.real v.toNat = 0
  · obtain ⟨m, e, hu⟩ := f32.unpack_finite hv
    obtain rfl : m = 0 := FVal.real_fin_eq_zero.1 ((f32.real_of_unpack hu).symm.trans h0)
    have hzero : f32.add nan.toNat v.toNat v.toNat = f32.pack (f32.sign v.toNat) 0 := by simp [Fmt.add, hu]
    rw [hzero, h0, mul_zero, f32.real_pack _ (by decide), f32.magReal_zero, mul_zero]
    exact ⟨by cases f32.sign v.toNat <;> decide, rfl⟩
  · have hround := addRounds f32 (by decide) nan.toNat _ _ hv hv (by rw [← two_mul]; exact mul_ne_zero two_ne_zero h0)
    rw [← two_mul] at hround
    obtain ⟨y, hy, hyr⟩ := f32.exists_real_eq_double (f32.wide_of_mem (by decide)) hv h0 hlt
    exact ⟨hround.finite hlt, hround.real_eq hlt hy hyr⟩

/-! ## The sum over a constant window -/

/-- The NaN choices of R134 without those of the pairs, which for a constant finite input are no NaN: of each three, the last two. -/
def withoutPairs (n : Nat → F32) (j : Nat) : F32 := n (3 * (j / 2) + (j % 2 + 1))

theorem withoutPairs_product (n : Nat → F32) (i : Nat) : withoutPairs n (2 * i) = n (3 * i + 1) := by
  rw [withoutPairs, Nat.mul_div_cancel_left i two_pos, Nat.mul_mod_right]

theorem withoutPairs_sum (n : Nat → F32) (i : Nat) : withoutPairs n (2 * i + 1) = n (3 * i + 2) := by
  rw [withoutPairs, show (2 * i + 1) / 2 = i by omega, show (2 * i + 1) % 2 = 1 by omega]

/-- R135: over a window of one value the sum of R134 is the sum of the coefficients times its double. -/
theorem firRef_replicate (hw : ∀ j, fadd32 (n j) v v = w) {k : Nat} :
    ∀ i, hs.length - 1 + i ≤ k → firRef n hs (List.replicate k v) i = dcRef (withoutPairs n) hs w i := by
  intro i
  induction i with
  | zero => exact fun _ => rfl
  | succ i ih =>
    intro hi
    rw [firRef, dcRef, ih (by omega), List.getD_replicate _ (by omega), List.getD_replicate _ (by omega), hw,
      withoutPairs_product, withoutPairs_sum]

/-- After `k` pushes of one value and one more, `L ≤ k + 1`, nothing older is in the window. -/
theorem window_replicate {α : Type} {l : List α} {k : Nat} (hpos : 0 < l.length) (hk : l.length ≤ k + 1) (a : α) :
    ((l ++ List.replicate k a).drop k).drop 1 ++ [a] = List.replicate l.length a := by
  rw [List.drop_drop, List.drop_append, List.drop_eq_nil_of_le hk, List.nil_append, List.drop_replicate,
    ← List.replicate_succ']
  congr 1
  omega

/-! ## The pushes -/

theorem nanChoice_impl (d : Nat) : NanChoice fun j => impl.nan32 (d + j) := fun j => nanResults.1 (d + j)

/-- Settles O22, by the sum over the window on lists. -/
theorem fpushCompletes : Obligations.FpushCompletes := fun s x _ _ hlive hcfg hfir h =>
  ⟨_, _, nanChoice_impl s.draws, h.fpushOn_eq impl_legal hlive hcfg hfir x, h.pushed impl_legal x⟩

/-- Pushes leave the core able to push. -/
theorem FilterHolds.running_of_execAll_fpush (xs : List F32) (h : FilterHolds impl s hs ws) (hlive : s.fault = false)
    (hcfg : s.cfgv = true) (hfir : s.firen = true) (ht : execAll (xs.map .fpush) s = .next t) :
    t.fault = false ∧ t.cfgv = true ∧ t.firen = true := by
  induction xs generalizing s ws with
  | nil =>
    cases ht
    exact ⟨hlive, hcfg, hfir⟩
  | cons x xs ih =>
    obtain ⟨u, hexec, hu, hlive', hcfg', hfir', -, -⟩ := h.exec_fpush hlive hcfg hfir x
    rw [List.map_cons, execAll_cons hexec] at ht
    exact ih hu hlive' hcfg' hfir' ht

/-- Settles O24: the window holds `v` alone, so each pair is the double of `v`. -/
theorem dcSteadyState : Obligations.DcSteadyState := by
  intro k s v hs ws hlive hcfg hfir h hv hlt hk
  obtain ⟨t, ht, hwindow, -, -⟩ := historyHoldsRecent (List.replicate k v) s hs ws hlive hcfg hfir h
  obtain ⟨hlive', hcfg', hfir'⟩ := h.running_of_execAll_fpush _ hlive hcfg hfir ht
  have hpush := hwindow.fpushOn_eq impl_legal hlive' hcfg' hfir' v
  have hlen : ws.length = impl.len := h.window.length
  have hdouble : ∀ j, fadd32 (impl.nan32 (t.draws + j)) v v = fadd32 0 v v := fun j =>
    congrArg (BitVec.ofNat 32) (Fmt.add_nan_irrelevant hv hv _ _)
  have hlast : hs.length - 1 + impl.nh ≤ impl.len := by rw [h.taps, Impl.len]; omega
  rw [List.length_replicate, window_replicate (hlen ▸ Nat.zero_lt_of_lt h.wr_lt) (hlen.trans_le hk), hlen,
    firRef_replicate hdouble _ hlast] at hpush
  rw [List.map_replicate] at ht
  obtain ⟨hfin, hreal⟩ := fadd32_self_exact 0 hv hlt
  exact ⟨t, _, _, _, ht, hpush, fun j => nanChoice_impl t.draws _, hfin, hreal, rfl⟩

end Sys2Proof.Machine
end

section
/-! SUPPORT. One STEP of a core that can produce samples (R150, R151), in each mode (R152 to R155). -/

namespace Sys2Proof.Machine

variable {s u : State} {c0 c1 i o : F32} {hs ws : List F32}

theorem Ready.stepOn_eq {I : Impl} {t : State} (hr : Ready s) (h : sample I c0 c1 s = .ok (o, t)) :
    stepOn I c0 c1 s = .next (respondOk o 0 t) := by
  rw [stepOn, unlessFaulted_live hr.fault, hr.cfgv, hr.pwrv, h]
  rfl

/-- What STEP answers and leaves, from what the modulation answers and leaves. -/
theorem Ready.exec_step (hr : Ready s) (hp : PhaseInside impl s) (hi : s.ti.read s.phase.toNat = some i)
    (hmod : modulate impl i c0 c1 s = .ok (o, u)) :
    exec (.step c0 c1) s = .next
      { Answered 0x00 o 0 (Emitted o { s with hist := u.hist, wr := u.wr }) with draws := u.draws } := by
  have hsample := sample_ok.2 ⟨i, u, hp.phase_lt.trans_le hp.tlen_le, hi, hmod, rfl⟩
  refine (hr.stepOn_eq hsample).trans ?_
  rw [modulate_frame hmod, nextPhase_eq_ofNat hp.phase_lt]
  rfl

/-- Settles O25: the modulation is one product, and takes no part of the frame. -/
theorem stepCarrier : Obligations.StepCarrier := by
  intro s c0 c1 i hr hp hmode hi
  have hmod : modulate impl i c0 c1 s = .ok (carrier impl s.draws i s.txp, skip 1 s) := by
    simp only [modulate, hmode]
  have hstep := hr.exec_step hp hi hmod
  exact ⟨_, _, nanChoice_impl s.draws, hstep⟩

/-- Settles O28: the modulation reads the quadrature entry and makes its four rounded steps. -/
theorem stepIq : Obligations.StepIq := by
  intro s c0 c1 i q hr hp hmode hi hq
  have htq : readTq impl s = .ok q := readEntry_ok.2 ⟨hp.phase_lt.trans_le hp.tlen_le, hq⟩
  have hmod : modulate impl i c0 c1 s = .ok (quadrature impl s.draws i q c0 c1 s.txp, skip 4 s) := by
    simp only [modulate, hmode]
    exact bind_ok.2 ⟨q, htq, rfl⟩
  have hstep := hr.exec_step hp hi hmod
  exact ⟨_, _, _, nanChoice_impl s.draws, rfl, hstep⟩

/-! ## AM mode -/

/-- In AM mode the sample is the envelope of the downmix as the filter stage answers it (R153). -/
theorem modulate_am {I : Impl} {b : F32} (hmode : s.mode = .am)
    (hfilt : filtered I (mono I s.draws s.ch c0 c1) (skip 2 s) = .ok (b, u)) :
    modulate I i c0 c1 s = .ok (envelope I u.draws i b u.txp, skip 4 u) := by
  simp only [modulate, hmode]
  exact bind_ok.2 ⟨_, hfilt, rfl⟩

/-- Settles O26: without the filter the stage hands the downmix on. -/
theorem stepAm : Obligations.StepAm := by
  intro s c0 c1 i hr hp hmode _ hfir hi
  have hfilt : filtered impl (mono impl s.draws s.ch c0 c1) (skip 2 s) = .ok (mono impl s.draws s.ch c0 c1, skip 2 s) :=
    if_neg (by simp [hfir])
  have hstep := hr.exec_step hp hi (modulate_am hmode hfilt)
  exact ⟨_, _, _, _, nanChoice_impl s.draws, rfl, rfl, hstep⟩

/-- The NaN choices of a filtered AM sample without those of the push: the `k` choices after the two of the downmix are the filter's. -/
def aroundPush (d k j : Nat) : F32 := if j < 2 then impl.nan32 (d + j) else impl.nan32 (d + 2 + k + (j - 2))

theorem nanChoice_aroundPush (d k : Nat) : NanChoice (aroundPush d k) := by
  intro j
  unfold aroundPush
  split_ifs
  · exact nanResults.1 _
  · exact nanResults.1 _

theorem FilterHolds.skip (h : FilterHolds impl s hs ws) (n : Nat) : FilterHolds impl (skip n s) hs ws :=
  { h with window := { h.window with } }

/-- Settles O27: the filter stage is a push of the downmix. -/
theorem stepAmFiltered : Obligations.StepAmFiltered := by
  intro s c0 c1 i hs ws hr hp hmode _ hfir hi h
  have hfilt : filtered impl (mono impl s.draws s.ch c0 c1) (skip 2 s) = firPush impl _ _ := if_pos hfir
  rw [(h.skip 2).firPush_eq impl_legal] at hfilt
  have hstep := hr.exec_step hp hi (modulate_am hmode hfilt)
  exact ⟨_, _, _, _, _, nanChoice_aroundPush s.draws (3 * impl.nh), nanChoice_impl (s.draws + 2), rfl, rfl, hstep⟩

end Sys2Proof.Machine
end

section
/-! SUPPORT. Operations whose exact result is a number of the format give that number, and the exact identities of R158 that follow. -/

namespace Sys2Proof.Machine

variable {F : Fmt} {I : Impl} {d : Nat} {a b x y t i q txp : F32}

/-! ## Exact results -/

/-- Rounding answers a magnitude that the format has. -/
theorem Fmt.roundMag_eq_of_magReal {m n : Nat} {e : Int} (hn : n ≤ F.infMag) (h : (m : ℝ) * (2 : ℝ) ^ e = F.magReal n) :
    F.roundMag m e = n := by
  rcases Nat.eq_zero_or_pos m with rfl | hm
  · rw [Nat.cast_zero, zero_mul, ← F.magReal_zero] at h
    rw [Fmt.roundMag_zero, F.magReal_strictMono.injective h]
  · have hkeeps := F.keeps_lastExp e hm.ne'
    have hnear := hkeeps.nearest (F.onGrid_scaled (F.magVal_lt n) (F.emin_le_magVal n) _)
    rw [← Fmt.magReal, h, sub_self, abs_zero, ← hkeeps.magReal_assemble] at hnear
    have hexact := F.magReal_strictMono.injective (sub_eq_zero.1 (abs_nonpos_iff.1 hnear))
    rw [F.roundMag_eq e hm.ne']
    exact (congrArg (min · F.infMag) hexact).trans (min_eq_left hn)

/-- A product that the format has is not changed by rounding. -/
theorem Fmt.mul_exact {a b n : Nat} (ha : F.finite a = true) (hb : F.finite b = true) (hn : n ≤ F.infMag)
    (h : F.magReal (F.mag a) * F.magReal (F.mag b) = F.magReal n) (nan : Nat) :
    F.mul nan a b = F.pack (F.sign a != F.sign b) n := by
  obtain ⟨m, e, hu, -, -, hm⟩ := F.unpack_finite_bounds ha
  obtain ⟨k, g, hv, -, -, hk⟩ := F.unpack_finite_bounds hb
  have hprod : ((m * k : Nat) : ℝ) * (2 : ℝ) ^ (e + g) = F.magReal n := by
    rw [← h, ← hm, ← hk, zpow_add₀ two_ne_zero]
    push_cast
    ring
  simp only [Fmt.mul, hu, hv, Fmt.roundMag_eq_of_magReal hn hprod]

theorem Fmt.roundInt_signed (zeroNeg neg : Bool) {w : Nat} (hw : w ≠ 0) (e : Int) :
    F.roundInt zeroNeg (if neg then -(w : Int) else w) e = F.pack neg (F.roundMag w e) := by
  cases neg
  · simp [Fmt.roundInt, hw, (Int.natCast_nonneg w).not_gt]
  · simp [Fmt.roundInt, hw, Nat.pos_of_ne_zero hw]

/-- A zero of either sign added to a finite number other than zero leaves it. -/
theorem Fmt.add_zero_exact (hF : 0 < F.infMag) {a : Nat} (ha : F.finite a = true) (h0 : F.mag a ≠ 0) (s : Bool) (nan : Nat) :
    F.add nan a (F.pack s 0) = F.pack (F.sign a) (F.mag a) := by
  obtain ⟨m, e, hu, -, -, hm⟩ := F.unpack_finite_bounds ha
  obtain ⟨lo, hlo⟩ : ∃ lo, min e F.emin = lo := ⟨_, rfl⟩
  have hle : lo ≤ e := hlo ▸ min_le_left _ _
  have hscaled : ((m * 2 ^ (e - lo).toNat : Nat) : ℝ) * (2 : ℝ) ^ lo = F.magReal (F.mag a) := by
    rw [← hm]
    push_cast
    rw [mul_assoc, ← zpow_natCast, ← zpow_add₀ two_ne_zero]
    congr 2
    omega
  have hround := Fmt.roundMag_eq_of_magReal (of_decide_eq_true ha : F.mag a < F.infMag).le hscaled
  have hpos : m * 2 ^ (e - lo).toNat ≠ 0 := fun hz => h0 (by rw [← hround, hz, Fmt.roundMag_zero])
  simp only [Fmt.add, hu, F.unpack_zero hF, alignTo_zero, add_zero, hlo]
  rw [alignTo, F.roundInt_signed _ _ hpos, hround]

/-- One exponent more is twice the number, above the subnormals. -/
theorem Fmt.magReal_add_pow {n : Nat} (hn : 2 ^ F.fb ≤ n) : F.magReal (n + 2 ^ F.fb) = 2 * F.magReal n := by
  have hpos := Nat.two_pow_pos F.fb
  have hdiv : n / 2 ^ F.fb ≠ 0 := (Nat.div_pos hn hpos).ne'
  have hexp : F.emin + ((n / 2 ^ F.fb + 1 : Nat) - 1 : Int) = F.emin + ((n / 2 ^ F.fb : Nat) - 1 : Int) + 1 := by
    push_cast
    ring
  rw [Fmt.magReal, Fmt.magReal, Fmt.magVal, Fmt.magVal, Nat.add_div_right _ hpos, Nat.add_mod_right,
    if_neg (Nat.succ_ne_zero _), if_neg hdiv, hexp, zpow_add_one₀ two_ne_zero]
  ring

/-! ## On binary32 patterns -/

/-- The zero of binary32 with sign `s`. -/
def zero32 (s : Bool) : F32 := BitVec.ofNat 32 (f32.pack s 0)

theorem toNat_zero32 (s : Bool) : (zero32 s).toNat = f32.pack s 0 := by
  cases s <;> rfl

theorem finite32_zero32 (s : Bool) : finite32 (zero32 s) = true := by
  cases s <;> decide

theorem real32_zero32 (s : Bool) : real32 (zero32 s) = 0 := by
  rw [real32, toNat_zero32, f32.real_pack s (by decide), f32.magReal_zero, mul_zero]

theorem fabs32_zero32 (s : Bool) : fabs32 (zero32 s) = 0 := by
  cases s <;> rfl

theorem ofNat_pack_sign_mag (x : F32) : BitVec.ofNat 32 (f32.pack (f32.sign x.toNat) (f32.mag x.toNat)) = x := by
  have hx := x.isLt
  apply BitVec.eq_of_toNat_eq
  rw [sign32_eq_msb, BitVec.msb_eq_decide, BitVec.toNat_ofNat]
  show ((if decide (2 ^ 31 ≤ x.toNat) = true then 2 ^ 31 else 0) + x.toNat % 2 ^ 31) % 2 ^ 32 = x.toNat
  simp only [decide_eq_true_eq]
  split_ifs <;> omega

theorem abs_real32 (h : finite32 x = true) : |real32 x| = f32.magReal (f32.mag x.toNat) := by
  rw [real32, f32.real_eq (of_decide_eq_true h), abs_mul, abs_of_nonneg (f32.magReal_nonneg _)]
  split_ifs <;> simp

theorem mag_ne_zero_of_fabs32 (h : fabs32 x ≠ 0) : f32.mag x.toNat ≠ 0 := fun h0 =>
  h (BitVec.eq_of_toNat_eq ((toNat_fabs32 x).trans h0))

theorem eq_zero32_of_fabs32 (h : fabs32 x = 0) : x = zero32 (f32.sign x.toNat) := by
  have hmag : f32.mag x.toNat = 0 := by rw [← toNat_fabs32, h]; rfl
  rw [zero32, ← hmag, ofNat_pack_sign_mag]

/-- A pattern that comparisons with 0 and with a finite number accept is a finite number's. -/
theorem finite32_of_fle (h0 : fle32 0 x = true) (h : fle32 x y = true) (hy : finite32 y = true) : finite32 x = true := by
  have hx : f32.isNan x.toNat = false := by
    by_contra hn
    simp [fle32, Fmt.le, hn] at h0
  have hkx := (f32.le_iff_key (by decide) hx).1 h0
  have hky := (f32.le_iff_key hx (Fmt.isNan_eq_false_of_finite hy)).1 h
  have hymag : f32.mag y.toNat < f32.infMag := of_decide_eq_true hy
  have hxkey := f32.natAbs_key x.toNat
  have hykey := f32.natAbs_key y.toNat
  rw [show f32.key ((0 : F32).toNat) = 0 by decide] at hkx
  exact decide_eq_true (by omega)

/-- The product of finite numbers is no NaN, even where it overflows, so the NaN on offer does not matter. -/
theorem fmul32_nan_irrelevant (ha : finite32 a = true) (hb : finite32 b = true) (n n' : F32) :
    fmul32 n a b = fmul32 n' a b := by
  obtain ⟨m, e, hu⟩ := Fmt.unpack_finite ha
  obtain ⟨k, g, hv⟩ := Fmt.unpack_finite hb
  simp only [fmul32, Fmt.mul, hu, hv]

theorem fadd32_comm (ha : finite32 a = true) (hb : finite32 b = true) (n : F32) : fadd32 n a b = fadd32 n b a := by
  obtain ⟨m, e, hu⟩ := Fmt.unpack_finite ha
  obtain ⟨k, g, hv⟩ := Fmt.unpack_finite hb
  simp only [fadd32, Fmt.add, hu, hv, min_comm g e, Bool.and_comm, Int.add_comm]

/-- A product of magnitudes that is the magnitude of a number of binary32 is that number, with the sign of the product. -/
theorem fmul32_exact (ha : finite32 a = true) (hb : finite32 b = true) (hx : finite32 x = true)
    (hs : f32.sign x.toNat = (f32.sign a.toNat != f32.sign b.toNat))
    (h : f32.magReal (f32.mag a.toNat) * f32.magReal (f32.mag b.toNat) = f32.magReal (f32.mag x.toNat)) (n : F32) :
    fmul32 n a b = x := by
  have hmag : f32.mag x.toNat < f32.infMag := of_decide_eq_true hx
  rw [fmul32, Fmt.mul_exact ha hb hmag.le h, ← hs, ofNat_pack_sign_mag]

theorem magReal_one32 : f32.magReal (f32.mag one32.toNat) = 1 := by
  rw [Fmt.magReal, show f32.magVal (f32.mag one32.toNat) = (2 ^ 23, -23) by decide]
  norm_num

theorem magReal_half32 : f32.magReal (f32.mag half32.toNat) = 1 / 2 := by
  rw [Fmt.magReal, show f32.magVal (f32.mag half32.toNat) = (2 ^ 23, -24) by decide]
  norm_num

/-- The number 2 in binary32, the envelope factor of full modulation (R158 c). -/
def two32 : F32 := 0x40000000#32

theorem magReal_two32 : f32.magReal (f32.mag two32.toNat) = 2 := by
  rw [Fmt.magReal, show f32.magVal (f32.mag two32.toNat) = (2 ^ 23, -22) by decide]
  norm_num

theorem fmul32_one (ha : finite32 a = true) (n : F32) : fmul32 n a one32 = a :=
  fmul32_exact ha (by decide) ha (by simp [show f32.sign one32.toNat = false by decide]) (by rw [magReal_one32, mul_one]) n

theorem fmul32_zero (ha : finite32 a = true) (n : F32) : fmul32 n a 0 = zero32 (f32.sign a.toNat) := by
  have h := (Fmt.zero_mul_finite (by decide) n.toNat false ha).2
  rw [Bool.xor_false] at h
  exact congrArg (BitVec.ofNat 32) h

theorem zero32_fmul32 (ha : finite32 a = true) (s : Bool) (n : F32) :
    fmul32 n (zero32 s) a = zero32 (s ^^ f32.sign a.toNat) := by
  rw [fmul32, toNat_zero32, (Fmt.zero_mul_finite (by decide) n.toNat s ha).1, zero32]

theorem zero32_fadd32 (s s' : Bool) (n : F32) : fadd32 n (zero32 s) (zero32 s') = zero32 (s && s') := by
  rw [fadd32, toNat_zero32, toNat_zero32, (Fmt.specials_together (by decide) n.toNat s s').2.1, zero32]

theorem fadd32_zero32 (ha : finite32 a = true) (h0 : fabs32 a ≠ 0) (s : Bool) (n : F32) : fadd32 n a (zero32 s) = a := by
  rw [fadd32, toNat_zero32, Fmt.add_zero_exact (by decide) ha (mag_ne_zero_of_fabs32 h0), ofNat_pack_sign_mag]

theorem fadd32_one_one (n : F32) : fadd32 n one32 one32 = two32 := rfl

theorem fadd32_zero_one (n : F32) : fadd32 n 0 one32 = one32 := rfl

theorem fadd32_negOne_one (n : F32) : fadd32 n 0xBF800000 one32 = 0 := fadd32_xor_signMask (x := 0xBF800000) (by decide)

/-! ## Halving a table entry -/

/-- A magnitude of binary32 that is zero or at least `2^-125` has a half in binary32. -/
theorem exists_magReal_half {n : Nat} (h : f32.magReal n = 0 ∨ (2 : ℝ) ^ (-125 : ℤ) ≤ f32.magReal n) :
    ∃ k ≤ n, f32.magReal n = 2 * f32.magReal k := by
  rcases h with h0 | hlo
  · exact ⟨0, Nat.zero_le n, by rw [h0, f32.magReal_zero, mul_zero]⟩
  · have hbound : f32.magReal (2 ^ f32.fb + 2 ^ f32.fb) = (2 : ℝ) ^ (-125 : ℤ) := by
      rw [Fmt.magReal, show f32.magVal (2 ^ f32.fb + 2 ^ f32.fb) = (2 ^ 23, -148) by decide]
      norm_num
    have hn : 2 ^ f32.fb + 2 ^ f32.fb ≤ n := f32.magReal_strictMono.le_iff_le.1 (hbound.trans_le hlo)
    have hdouble := Fmt.magReal_add_pow (F := f32) (n := n - 2 ^ f32.fb) (by omega)
    rw [Nat.sub_add_cancel (by omega)] at hdouble
    exact ⟨_, Nat.sub_le _ _, hdouble⟩

/-- `t` is the exact half of `i`: halving gives `t` and doubling gives `i` back. -/
structure HalfOf (t i : F32) : Prop where
  finite : finite32 t = true
  sign   : f32.sign t.toNat = f32.sign i.toNat
  halve  : ∀ n, fmul32 n i half32 = t
  double : ∀ n, fmul32 n t two32 = i

theorem exists_halfOf (hi : finite32 i = true) (h : real32 i = 0 ∨ (2 : ℝ) ^ (-125 : ℤ) ≤ |real32 i|) :
    ∃ t, HalfOf t i := by
  have hinf : f32.mag i.toNat < f32.infMag := of_decide_eq_true hi
  rw [← abs_eq_zero, abs_real32 hi] at h
  obtain ⟨k, hk, hdouble⟩ := exists_magReal_half h
  have hlt : k < 2 ^ (f32.eb + f32.fb) := (hk.trans_lt hinf).trans f32.infMag_lt
  have hto : (BitVec.ofNat 32 (f32.pack (f32.sign i.toNat) k)).toNat = f32.pack (f32.sign i.toNat) k :=
    (BitVec.toNat_ofNat _ _).trans (Nat.mod_eq_of_lt (f32.pack_lt _ hlt))
  generalize BitVec.ofNat 32 (f32.pack (f32.sign i.toNat) k) = t at hto
  have hsign : f32.sign t.toNat = f32.sign i.toNat := by rw [hto, f32.sign_pack _ hlt]
  have htmag : f32.mag t.toNat = k := by rw [hto, f32.mag_pack _ hlt]
  have ht : finite32 t = true := decide_eq_true (htmag ▸ hk.trans_lt hinf)
  refine ⟨t, ht, hsign, fmul32_exact hi (by decide) ht ?_ ?_, fmul32_exact ht (by decide) hi ?_ ?_⟩
  · rw [hsign, show f32.sign half32.toNat = false by decide, Bool.bne_false]
  · rw [htmag, hdouble, magReal_half32]
    ring
  · rw [hsign, show f32.sign two32.toNat = false by decide, Bool.bne_false]
  · rw [htmag, hdouble, magReal_two32, mul_comm]

/-! ## The identities of R158 -/

theorem carrier_one (hi : finite32 i = true) : carrier I d i one32 = i := fmul32_one hi _

theorem HalfOf.envelope_zero (h : HalfOf t i) (htxp : finite32 txp = true) (n : F32) :
    envelope I d i 0 txp = fmul32 n (fmul32 n i half32) txp := by
  rw [envelope, h.halve, h.halve, fadd32_zero_one, fmul32_one h.finite]
  exact fmul32_nan_irrelevant h.finite htxp _ n

theorem HalfOf.envelope_one (h : HalfOf t i) (hi : finite32 i = true) (htxp : finite32 txp = true) (n : F32) :
    envelope I d i one32 txp = fmul32 n i txp := by
  rw [envelope, h.halve, fadd32_one_one, h.double]
  exact fmul32_nan_irrelevant hi htxp _ n

theorem HalfOf.halve_mul_zero (h : HalfOf t i) (n : F32) : fmul32 n (fmul32 n i half32) 0 = i &&& 0x80000000#32 := by
  rw [h.halve, fmul32_zero h.finite, h.sign, and_signMask32, zero32]

theorem HalfOf.envelope_negOne (h : HalfOf t i) (htxp : finite32 txp = true) :
    fabs32 (envelope I d i 0xBF800000 txp) = 0 := by
  rw [envelope, h.halve, fadd32_negOne_one, fmul32_zero h.finite, zero32_fmul32 htxp, fabs32_zero32]

/-- A zero added before the power is applied changes nothing but the sign of a zero. -/
theorem fmul32_fadd32_zero32 (hi : finite32 i = true) (htxp : finite32 txp = true) (s : Bool) (n n' m : F32) :
    (fabs32 i ≠ 0 → fmul32 n (fadd32 n' i (zero32 s)) txp = fmul32 m i txp) ∧
      real32 (fmul32 n (fadd32 n' i (zero32 s)) txp) = real32 (fmul32 m i txp) := by
  have hne : fabs32 i ≠ 0 → fmul32 n (fadd32 n' i (zero32 s)) txp = fmul32 m i txp := fun h0 => by
    rw [fadd32_zero32 hi h0, fmul32_nan_irrelevant hi htxp n m]
  refine ⟨hne, ?_⟩
  by_cases h0 : fabs32 i = 0
  · rw [eq_zero32_of_fabs32 h0, zero32_fadd32, zero32_fmul32 htxp, zero32_fmul32 htxp, real32_zero32, real32_zero32]
  · rw [hne h0]

theorem quadrature_one_zero (hi : finite32 i = true) (hq : finite32 q = true) (htxp : finite32 txp = true) (m : F32) :
    (fabs32 i ≠ 0 → quadrature I d i q one32 0 txp = fmul32 m i txp) ∧
      real32 (quadrature I d i q one32 0 txp) = real32 (fmul32 m i txp) := by
  rw [quadrature, fmul32_one hi, fmul32_zero hq]
  exact fmul32_fadd32_zero32 hi htxp _ _ _ m

theorem quadrature_zero_one (hi : finite32 i = true) (hq : finite32 q = true) (htxp : finite32 txp = true) (m : F32) :
    (fabs32 i ≠ 0 → quadrature I d q i 0 one32 txp = fmul32 m i txp) ∧
      real32 (quadrature I d q i 0 one32 txp) = real32 (fmul32 m i txp) := by
  rw [quadrature, fmul32_one hi, fmul32_zero hq, fadd32_comm (finite32_zero32 _) hi]
  exact fmul32_fadd32_zero32 hi htxp _ _ _ m

/-- Settles O29: every step but the last is exact, and the last is the same rounding on both sides. -/
theorem exactIdentities : Obligations.ExactIdentities := by
  intro I d i txp hi hlo h0 h1
  have htxp := finite32_of_fle h0 h1 (by decide)
  obtain ⟨t, ht⟩ := exists_halfOf hi hlo
  exact ⟨fun h => h ▸ carrier_one hi, ht.envelope_zero htxp, ht.envelope_one hi htxp,
    fun n => ⟨fadd32_negOne_one n, ht.halve_mul_zero n, ht.envelope_negOne htxp⟩,
    fun n q hq => quadrature_one_zero hi hq htxp n, fun n q hq => quadrature_zero_one hi hq htxp n⟩

end Sys2Proof.Machine
end

section
/-! SUPPORT. AUDW (R170), and a CARRIER block as one sample after another: the table from `phase` on and round again (R112, R171, R172). -/

namespace Sys2Proof.Machine

variable {I : Impl} {s t : State} {tab : List F32}

/-! ## AUDW -/

/-- Settles O30: below `ABUF_MAX` no check fails and the write has its entry. -/
theorem audwCompletes : Obligations.AudwCompletes := by
  intro s c0 c1 hlive hcfg hmode hroom
  have hwrite : writeEntry impl .abuf s.abuf s.afill.toNat ⟨c0, c1⟩ = .ok _ := writeEntry_ok.2 ⟨hroom, rfl⟩
  have hcount : BitVec.ofNat 32 (s.afill.toNat + 1) = s.afill + 1 := by
    rw [BitVec.ofNat_add, BitVec.ofNat_toNat, BitVec.setWidth_eq]
    rfl
  refine ⟨?_, Mem.read_write_same .., fun j hj => Mem.read_write_other _ _ hj⟩
  show audwOn impl c0 c1 s = _
  rw [audwOn, unlessFaulted_live hlive, if_neg (by simp [hcfg]), if_neg hmode, if_neg hroom.ne, hwrite, hcount]
  rfl

/-! ## Samples in CARRIER mode -/

/-- `s` can produce carrier samples from the table `tab` (R44 b, R61). -/
structure CarrierTable (I : Impl) (tab : List F32) (s : State) : Prop where
  inside : PhaseInside I s
  mode   : s.mode = .carrier
  length : tab.length = s.tlen.toNat
  holds  : Holds s.ti tab

/-- The carrier sample `j` samples further on (R112, R152). -/
def carrierAt (I : Impl) (tab : List F32) (s : State) (j : Nat) : F32 :=
  carrier I (s.draws + j) (tab.getD ((s.phase.toNat + j) % s.tlen.toNat) 0) s.txp

/-- The next `n` carrier samples. -/
def carriers (I : Impl) (tab : List F32) (n : Nat) (s : State) : List F32 := (List.range n).map (carrierAt I tab s)

/-- What the next `n` carrier samples leave. -/
def afterCarriers (I : Impl) (tab : List F32) (n : Nat) (s : State) : State :=
  { s with
    phase := BitVec.ofNat 32 ((s.phase.toNat + n) % s.tlen.toNat)
    ovr := s.ovr || (carriers I tab n s).any overRange
    out := s.out ++ carriers I tab n s
    draws := s.draws + n }

theorem PhaseInside.toNat_mod_tlen (h : PhaseInside I s) (k : Nat) :
    (BitVec.ofNat 32 (k % s.tlen.toNat)).toNat = k % s.tlen.toNat ∧ k % s.tlen.toNat < s.tlen.toNat := by
  have hlt : k % s.tlen.toNat < s.tlen.toNat := Nat.mod_lt k (Nat.zero_lt_of_lt h.phase_lt)
  exact ⟨(BitVec.toNat_ofNat ..).trans (Nat.mod_eq_of_lt (hlt.trans s.tlen.isLt)), hlt⟩

theorem afterCarriers_zero (h : PhaseInside I s) : afterCarriers I tab 0 s = s := by
  simp [afterCarriers, carriers, Nat.mod_eq_of_lt h.phase_lt]

theorem CarrierTable.later (h : CarrierTable I tab s) (n : Nat) : CarrierTable I tab (afterCarriers I tab n s) :=
  have hphase := h.inside.toNat_mod_tlen (s.phase.toNat + n)
  { h with inside := ⟨h.inside.tlen_le, hphase.1.trans_lt hphase.2⟩ }

/-- `j` samples after the next `n` are `n + j` samples further on. -/
theorem carrierAt_afterCarriers (h : PhaseInside I s) (n j : Nat) :
    carrierAt I tab (afterCarriers I tab n s) j = carrierAt I tab s (n + j) := by
  simp only [carrierAt, afterCarriers, (h.toNat_mod_tlen _).1, Nat.mod_add_mod, Nat.add_assoc]

theorem carriers_add (h : PhaseInside I s) (m n : Nat) :
    carriers I tab (m + n) s = carriers I tab m s ++ carriers I tab n (afterCarriers I tab m s) := by
  rw [carriers, List.range_add, List.map_append, List.map_map]
  exact congrArg _ (List.map_congr_left fun j _ => (carrierAt_afterCarriers h m j).symm)

theorem afterCarriers_add (h : PhaseInside I s) (m n : Nat) :
    afterCarriers I tab n (afterCarriers I tab m s) = afterCarriers I tab (m + n) s := by
  have hphase := (h.toNat_mod_tlen (s.phase.toNat + m)).1
  rw [afterCarriers.eq_def I tab (m + n), carriers_add h, afterCarriers.eq_def I tab n]
  simp only [afterCarriers, hphase, Nat.mod_add_mod, List.any_append, Bool.or_assoc, List.append_assoc, Nat.add_assoc]

/-- R151, R152: one sample is the table entry at `phase` times the power. -/
theorem CarrierTable.sample_eq (h : CarrierTable I tab s) (c0 c1 : F32) :
    sample I c0 c1 s = .ok (carrierAt I tab s 0, afterCarriers I tab 1 s) := by
  have hlt : s.phase.toNat < tab.length := h.length ▸ h.inside.phase_lt
  have hread : s.ti.read s.phase.toNat = some tab[s.phase.toNat] := by rw [h.holds _ hlt, List.getElem?_eq_getElem hlt]
  have hentry : carrierAt I tab s 0 = carrier I s.draws tab[s.phase.toNat] s.txp := by
    simp [carrierAt, Nat.mod_eq_of_lt h.inside.phase_lt, hlt]
  have hmod : modulate I tab[s.phase.toNat] c0 c1 s = .ok (carrierAt I tab s 0, skip 1 s) := by
    rw [modulate, h.mode, hentry]
  refine sample_ok.2 ⟨_, _, h.inside.phase_lt.trans_le h.inside.tlen_le, hread, hmod, ?_⟩
  simp [afterCarriers, carriers, skip, nextPhase_eq_ofNat h.inside.phase_lt]

theorem CarrierTable.carrierBlock_eq (h : CarrierTable I tab s) (n : Nat) :
    carrierBlock I n s = .ok (afterCarriers I tab n s) := by
  induction n generalizing s with
  | zero => rw [afterCarriers_zero h.inside, carrierBlock]
  | succ n ih =>
    rw [carrierBlock, h.sample_eq, Nat.add_comm n 1, ← afterCarriers_add h.inside 1 n]
    exact ih (h.later 1)

/-! ## BLOCK in CARRIER mode -/

theorem Ready.blockOn_carrier (hr : Ready s) (hmode : s.mode = .carrier) (h : carrierBlock I I.blockSize s = .ok t) :
    blockOn I s = .next (respondOk (BitVec.ofNat 32 I.blockSize) 0 t) := by
  rw [blockOn, unlessFaulted_live hr.fault, hr.cfgv, hr.pwrv, if_pos hmode, h]
  rfl

/-- Settles O31, by induction on the samples of the block. -/
theorem blockCarrier : Obligations.BlockCarrier := by
  intro s tab hr hp hmode hlen htab
  have hblock := hr.blockOn_carrier hmode ((CarrierTable.mk hp hmode hlen htab).carrierBlock_eq impl.blockSize)
  exact ⟨_, _, _, nanChoice_impl s.draws, rfl, hblock⟩

end Sys2Proof.Machine
end

section
/-! SUPPORT. An AM or IQ block as STEP on each buffered frame (R173, R175, R234): no sample depends on the responses sent before it. -/

namespace Sys2Proof.Machine

variable {I : Impl} {s t : State} {x y i c0 c1 o : F32}

/-! ## Samples after any responses -/

/-- `s` with `rs` for the responses sent. -/
def setRsp (rs : List Response) (s : State) : State := { s with rsp := rs }

theorem firPush_setRsp (h : firPush I x s = .ok (y, t)) (rs : List Response) :
    firPush I x (setRsp rs s) = .ok (y, setRsp rs t) := by
  obtain ⟨hwr, hsum, rfl⟩ := firPush_ok.1 h
  exact firPush_ok.2 ⟨hwr, hsum, rfl⟩

theorem filtered_setRsp (h : filtered I x s = .ok (y, t)) (rs : List Response) :
    filtered I x (setRsp rs s) = .ok (y, setRsp rs t) := by
  by_cases hfir : s.firen = true
  · rw [filtered, if_pos hfir] at h
    exact (if_pos hfir).trans (firPush_setRsp h rs)
  · rw [filtered, if_neg hfir] at h
    cases h
    exact if_neg hfir

theorem modulate_setRsp (h : modulate I i c0 c1 s = .ok (o, t)) (rs : List Response) :
    modulate I i c0 c1 (setRsp rs s) = .ok (o, setRsp rs t) := by
  cases hmode : s.mode with
  | carrier =>
    simp only [modulate, hmode] at h
    cases h
    simp only [modulate, show (setRsp rs s).mode = .carrier from hmode]
    rfl
  | am =>
    simp only [modulate, hmode] at h
    obtain ⟨⟨b, u⟩, hu, h⟩ := bind_ok.1 h
    cases h
    exact modulate_am (s := setRsp rs s) hmode (filtered_setRsp hu rs)
  | iq =>
    simp only [modulate, hmode] at h
    obtain ⟨q, hq, h⟩ := bind_ok.1 h
    cases h
    simp only [modulate, show (setRsp rs s).mode = .iq from hmode]
    exact bind_ok.2 ⟨q, hq, rfl⟩

theorem sample_setRsp (h : sample I c0 c1 s = .ok (o, t)) (rs : List Response) :
    sample I c0 c1 (setRsp rs s) = .ok (o, setRsp rs t) := by
  obtain ⟨i, u, hlt, hi, hu, rfl⟩ := sample_ok.1 h
  exact sample_ok.2 ⟨i, _, hlt, hi, modulate_setRsp hu rs, rfl⟩

/-! ## Steps on the frames of a block -/

theorem SampleFrame.abuf_eq (h : SampleFrame s t) : t.abuf = s.abuf := (congrArg State.abuf h).trans rfl

theorem SampleFrame.rsp_eq (h : SampleFrame s t) : t.rsp = s.rsp := (congrArg State.rsp h).trans rfl

theorem Ready.of_sampleFrame (hr : Ready s) (h : SampleFrame s t) : Ready t := by
  obtain ⟨_, _, _, _, _, _, rfl⟩ := h.exists_eq
  exact { hr with }

/-- After any responses STEP is its sample and one response more. -/
theorem Ready.exec_step_setRsp (hr : Ready s) (h : sample impl c0 c1 s = .ok (o, t)) (rs : List Response) :
    exec (.step c0 c1) (setRsp rs s) = .next (setRsp (rs ++ [⟨0x00, o, 0⟩]) t) :=
  have hr' : Ready (setRsp rs s) := { hr with }
  hr'.stepOn_eq (sample_setRsp h rs)

/-- STEP on each frame that `ABUF` holds from index `j` on ends where the samples of those frames do, but for the responses. -/
theorem Ready.execAll_steps {frames : List Frame} {j : Nat} (hr : Ready s)
    (hframes : ∀ k < frames.length, s.abuf.read (j + k) = frames[k]?)
    (hblock : audioBlock impl frames.length j s = .ok t) (rs : List Response) :
    ∃ l, t.out = s.out ++ l ∧ l.length = frames.length ∧
      execAll (frames.map fun fr => .step fr.c0 fr.c1) (setRsp rs s) =
        .next (setRsp (rs ++ l.map fun o => ⟨0x00, o, 0⟩) t) := by
  induction frames generalizing j s rs with
  | nil =>
    cases hblock
    exact ⟨[], by simp, rfl, by simp [execAll]⟩
  | cons fr frames ih =>
    obtain ⟨fr', hfr, hblock⟩ := bind_ok.1 hblock
    obtain rfl : fr = fr' := Option.some.inj ((hframes 0 (Nat.succ_pos _)).symm.trans (readEntry_ok.1 hfr).2)
    obtain ⟨⟨o, u⟩, hu, hblock⟩ := bind_ok.1 hblock
    obtain ⟨hframe, hout, -, -⟩ := sample_frame hu
    have hrest : ∀ k < frames.length, u.abuf.read (j + 1 + k) = frames[k]? := fun k hk => by
      rw [hframe.abuf_eq, Nat.add_assoc, Nat.add_comm 1]
      exact hframes (k + 1) (Nat.succ_lt_succ hk)
    obtain ⟨l, hl, hlen, hsteps⟩ := ih (hr.of_sampleFrame hframe) hrest hblock (rs ++ [⟨0x00, o, 0⟩])
    refine ⟨o :: l, by rw [hl, hout, List.append_assoc]; rfl, congrArg (· + 1) hlen, ?_⟩
    rw [List.map_cons, execAll_cons (hr.exec_step_setRsp hu rs), hsteps, List.append_assoc]
    rfl

theorem Ready.blockOn_audio (hr : Ready s) (hmode : s.mode ≠ .carrier) (h : audioBlock I s.afill.toNat 0 s = .ok t) :
    blockOn I s = .next (respondOk s.afill 0 (dropFrames t)) := by
  rw [blockOn, unlessFaulted_live hr.fault, hr.cfgv, hr.pwrv, if_neg hmode, h]
  rfl

/-- Settles O32: under the invariants the block ends, and the steps on its frames end with it. -/
theorem blockIsSteps : Obligations.BlockIsSteps := by
  intro s frames hI hr hmode hlen hholds
  obtain ⟨t, ht⟩ := audioBlock_total impl_legal hI hr.cfgv s.afill.toNat 0 (Nat.zero_add _).le
  have hframes : ∀ k < frames.length, s.abuf.read (0 + k) = frames[k]? := fun k hk => by
    rw [Nat.zero_add, hholds k hk]
  have hblock := hr.blockOn_audio hmode ht
  rw [respondOk, respond, dropFrames, (audioBlock_frame ht).1.rsp_eq] at hblock
  rw [← hlen] at ht
  obtain ⟨l, hout, hl, hsteps⟩ := hr.execAll_steps hframes ht s.rsp
  exact ⟨_, l, hsteps, hout, hl.trans hlen, rfl, hblock⟩

end Sys2Proof.Machine
end

section
/-! SUPPORT. STOP (R185): the tear-down is the reset of `rst` but for `exitc`, and no fault state stands in its way (R208). -/

namespace Sys2Proof.Machine

variable {reason : BitVec 8}

/-- R185 beside R231: the tear-down differs from `rst` in `exitc` alone. -/
theorem tearDown_eq_hardReset (reason : BitVec 8) (s : State) :
    tearDown reason s = { hardReset s with exitc := reason } := rfl

theorem execStop_of_reasonDefined (h : reasonDefined reason = true) (s : State) :
    execStop reason s = .next (respondOk 0 0 (tearDown reason s)) := if_pos h

/-- Settles O33: no check stands before the tear-down, which is a reset that keeps the streams and notes the reason. -/
theorem stopCompletes : Obligations.StopCompletes := by
  intro s reason hreason
  have hdefined : reasonDefined reason = true := decide_eq_true hreason
  calc exec (.stop reason) s
    _ = execStop reason s := rfl
    _ = .next (respondOk 0 0 (tearDown reason s)) := execStop_of_reasonDefined hdefined s
    _ = .next (respondOk 0 0 { hardReset s with exitc := reason }) := by rw [tearDown_eq_hardReset]

end Sys2Proof.Machine
end

section
/-! SUPPORT. Faults raised and refused (R201, R205 to R207), and the one response of every command (R203, R82). -/

namespace Sys2Proof.Machine

variable {I : Impl} {s t u : State} {i : Instr} {c : Command}

/-! ## The checks in their order -/

section
variable {p q r : Prop} [Decidable p] [Decidable q] [Decidable r] {e : ErrCode} {x y z : Result}

/-- R205, R206: without a fault the first check decides whether its code is raised. -/
theorem unlessFaulted_first (hlive : s.fault = false) (e : ErrCode) (hp : p) :
    unlessFaulted s (if p then raiseFault e s else x) = .next (FaultEntered (errBits e) s) := by
  rw [unlessFaulted_live hlive, if_pos hp, raiseFault_live hlive]

theorem unlessFaulted_second (hlive : s.fault = false) (e : ErrCode) (hp : ¬p) (hq : q) :
    unlessFaulted s (if p then x else if q then raiseFault e s else y) = .next (FaultEntered (errBits e) s) := by
  rw [if_neg hp, unlessFaulted_first hlive e hq]

theorem unlessFaulted_third (hlive : s.fault = false) (e : ErrCode) (hp : ¬p) (hq : ¬q) (hr : r) :
    unlessFaulted s (if p then x else if q then y else if r then raiseFault e s else z) =
      .next (FaultEntered (errBits e) s) := by
  rw [if_neg hp, unlessFaulted_second hlive e hq hr]

end

/-- The five commands that ask for a configured core, and for no fault before that. -/
theorem exec_unconfigured (hlive : s.fault = false) (hcfg : s.cfgv = false) (x y : F32)
    (hi : i ∈ [Instr.onext, .fpush x, .step x y, .audw x y, .block]) : exec i s = .next (FaultEntered 0x11 s) := by
  have hcheck : (!s.cfgv) = true := congrArg not hcfg
  simp only [List.mem_cons, List.not_mem_nil, or_false] at hi
  obtain rfl | rfl | rfl | rfl | rfl := hi
  all_goals exact unlessFaulted_first hlive .state hcheck

/-- Settles O35: each clause names the first check of R205 that does not pass, and the checks before it do. -/
theorem commandFaults : Obligations.CommandFaults := by
  intro s x y hlive
  have passes {b : Bool} (h : b = true) : ¬(!b) = true := by simp [h]
  refine ⟨fun hcfg i => exec_unconfigured hlive hcfg x y, fun hcfg hfir => ?_, fun hcfg hpwr => ?_, fun hcfg hmode => ?_,
    fun hcfg hmode hfull => ?_⟩
  · exact unlessFaulted_second hlive .mode (passes hcfg) (congrArg not hfir)
  · exact ⟨unlessFaulted_second hlive .nopwr (passes hcfg) (congrArg not hpwr),
      unlessFaulted_second hlive .nopwr (passes hcfg) (congrArg not hpwr)⟩
  · exact unlessFaulted_second hlive .mode (passes hcfg) hmode
  · exact unlessFaulted_third hlive .aovf (passes hcfg) hmode hfull

/-! ## The fault state -/

/-- R205, R207: `STOP` and `RDREG` aside, every command asks first whether there is a fault. -/
theorem exec_faulted (hfault : s.fault = true) (hstop : i.opcode ≠ 8) (hrdreg : i.opcode ≠ 9) :
    exec i s = .next (refuseFaulted s) := by
  cases i with
  | stop => exact absurd rfl hstop
  | rdreg => exact absurd rfl hrdreg
  | _ => exact unlessFaulted_faulted hfault _

/-- R24, R206: a fault in the fault state adds its response and keeps the first code. -/
theorem enterFault_faulted (hfault : s.fault = true) (e : ErrCode) : enterFault e s = Answered (errBits e) 0 0 s := by
  rw [enterFault, if_pos hfault, ← hfault]
  rfl

theorem illegalWord_undecoded (hfault : s.fault = true) {opc : BitVec 8} (hstop : opc ≠ 0x08) (hrdreg : opc ≠ 0x09) :
    illegalWord opc s = .next (refuseFaulted s) := by
  rw [illegalWord, if_neg (not_or.2 ⟨hstop, hrdreg⟩), unlessFaulted_faulted hfault]

theorem illegalWord_decoded {opc : BitVec 8} (h : opc = 0x08 ∨ opc = 0x09) :
    illegalWord opc s = raiseFault .illegal s := if_pos h

theorem opcOf_eq_iff {w : Word} {opc : BitVec 8} : opcOf w = opc ↔ w.toNat / 2 ^ 24 = opc.toNat := by
  rw [← toNat_opcOf, BitVec.toNat_inj]

/-- Settles O36: legal or not, a word of the other opcodes meets the check for a fault; a malformed `STOP` or `RDREG` does not. -/
theorem faultState : Obligations.FaultState := by
  intro s c hfault
  constructor
  · intro hstop hrdreg
    show runCommand c s = .next (refuseFaulted s)
    cases hd : decode c with
    | ok i =>
      rw [opcode_of_decode hd] at hstop hrdreg
      rw [runCommand_of_decode hd, exec_faulted hfault hstop hrdreg]
    | error e =>
      rw [runCommand_of_illegal hd, illegalWord_undecoded hfault (mt opcOf_eq_iff.1 hstop) (mt opcOf_eq_iff.1 hrdreg)]
  · intro hopc hillegal
    obtain ⟨e, hd⟩ := decode_error.2 hillegal
    rw [runCommand_of_illegal hd, illegalWord_decoded (hopc.imp opcOf_eq_iff.2 opcOf_eq_iff.2), raiseFault,
      enterFault_faulted hfault]
    rfl

/-! ## Responses -/

/-- `t` has answered `OK` after `s`, and has recorded no fault. -/
structure AnsweredOk (s t : State) : Prop where
  rsp     : ∃ d0 d1, t.rsp = s.rsp ++ [⟨0x00, d0, d1⟩]
  errcode : t.errcode = s.errcode ∨ t.errcode = 0

theorem AnsweredOk.respondOk (hrsp : u.rsp = s.rsp) (herr : u.errcode = s.errcode) (d0 d1 : Word) :
    AnsweredOk s (respondOk d0 d1 u) :=
  ⟨⟨d0, d1, congrArg (· ++ _) hrsp⟩, .inl herr⟩

theorem SampleFrame.errcode_eq (h : SampleFrame s u) : u.errcode = s.errcode := (congrArg State.errcode h).trans rfl

theorem SampleFrame.answeredOk (h : SampleFrame s u) (d0 d1 : Word) : AnsweredOk s (Machine.respondOk d0 d1 u) :=
  .respondOk h.rsp_eq h.errcode_eq d0 d1

/-- How a command answers: `OK`, `REJ` to a `PWR` (R204), fault entry (R206) or `E_FAULTED` (R207). -/
theorem Effect.answer (h : Effect I s i t) : AnsweredOk s t ∨ (t = respondRej s ∧ ∃ p, i = .pwr p) ∨
    (∃ e, t = enterFault e s) ∨ t = refuseFaulted s := by
  cases h with
  | refused => exact .inr (.inr (.inr rfl))
  | faulted e => exact .inr (.inr (.inl ⟨e, rfl⟩))
  | rejected => exact .inr (.inl ⟨rfl, _, rfl⟩)
  | cfg => exact .inl (.respondOk (commit_rsp ..) (commit_errcode ..) _ _)
  | fpush _ _ _ hpush => exact .inl ((firPush_frame hpush).1.answeredOk _ _)
  | step _ _ _ hsample => exact .inl ((sample_frame hsample).1.answeredOk _ _)
  | carrierBlock _ _ _ _ hblock => exact .inl ((carrierBlock_frame hblock).1.answeredOk _ _)
  | audioBlock _ _ _ _ hblock =>
    have hframe := (audioBlock_frame hblock).1
    exact .inl (.respondOk (u := dropFrames _) hframe.rsp_eq hframe.errcode_eq _ _)
  | stop => exact .inl ⟨⟨0, 0, rfl⟩, .inr rfl⟩
  | pwr | onext | audw | rdreg => exact .inl ⟨⟨_, _, rfl⟩, .inl rfl⟩

theorem runCommand_answer (h : runCommand c s = .next t) : AnsweredOk s t ∨
    (t = respondRej s ∧ ∃ p, decode c = .ok (.pwr p)) ∨ (∃ e, t = enterFault e s) ∨ t = refuseFaulted s := by
  obtain ⟨i, hd, heff⟩ | rfl | ⟨-, rfl⟩ := runCommand_next h
  · simpa only [hd, Except.ok.injEq] using heff.answer
  · exact .inr (.inr (.inl ⟨.illegal, rfl⟩))
  · exact .inr (.inr (.inr rfl))

/-- The codes of R201 that a fault records. -/
theorem errBits_mem (e : ErrCode) : errBits e ∈ [0x10, 0x11, 0x12, 0x13, 0x14, 0x15, 0x16, 0x17, 0x18] := by
  cases e <;> decide

theorem enterFault_errcode_cases (e : ErrCode) (s : State) :
    (enterFault e s).errcode = s.errcode ∨ (enterFault e s).errcode = errBits e := by
  rw [enterFault_errcode]
  exact ite_eq_or_eq ..

/-- Settles O38: each of the four answers sends one response, and only fault entry and `STOP` write `errcode`. -/
theorem responseCodes : Obligations.ResponseCodes := by
  intro s t c h
  obtain ⟨⟨d0, d1, hrsp⟩, herr⟩ | ⟨rfl, hpwr⟩ | ⟨e, rfl⟩ | rfl := runCommand_answer h
  · exact ⟨_, hrsp, by simp, fun hok => absurd rfl hok, fun hrej => absurd hrej (show (0x00 : BitVec 8) ≠ 0x01 by decide),
      herr.imp_right .inl⟩
  · exact ⟨_, rfl, by simp, fun _ => ⟨rfl, rfl⟩, fun _ => hpwr, .inl rfl⟩
  · have hcode := errBits_mem e
    have hrej : errBits e ≠ 0x01 := fun h => absurd (h ▸ hcode) (by decide)
    have hstored : errBits e ≠ 0x1F := fun h => absurd (h ▸ hcode) (by decide)
    refine ⟨⟨errBits e, 0, 0⟩, rfl, ?_, fun _ => ⟨rfl, rfl⟩, fun h => absurd h hrej, ?_⟩
    · simp only [List.mem_cons] at hcode ⊢
      tauto
    · exact (enterFault_errcode_cases e s).imp_right fun h => .inr ⟨h, hstored⟩
  · exact ⟨_, rfl, by decide, fun _ => ⟨rfl, rfl⟩, fun hrej => absurd hrej (by decide), .inl rfl⟩

end Sys2Proof.Machine
end

section
/-! SUPPORT. `rst` between two commands and within one (R231, R208, U15): the reset state, and what of the streams it leaves. -/

namespace Sys2Proof.Machine

variable {I : Impl} {s t : State} {i : Instr} {c : Command}

/-! ## What the host does later -/

theorem SampleFrame.inputs_eq (h : SampleFrame s t) : t.inputs = s.inputs := (congrArg State.inputs h).trans rfl

theorem Effect.inputs_eq (h : Effect I s i t) : t.inputs = s.inputs := by
  cases h with
  | cfg => exact commit_inputs ..
  | fpush _ _ _ hpush => exact (firPush_frame hpush).1.inputs_eq
  | step _ _ _ hsample => exact (sample_frame hsample).1.inputs_eq
  | carrierBlock _ _ _ _ hblock => exact (carrierBlock_frame hblock).1.inputs_eq
  | audioBlock _ _ _ _ hblock => exact (audioBlock_frame hblock).1.inputs_eq
  | _ => rfl

theorem runCommand_inputs (h : runCommand c s = .next t) : t.inputs = s.inputs := by
  obtain ⟨i, -, heff⟩ | rfl | ⟨-, rfl⟩ := runCommand_next h
  · exact heff.inputs_eq
  · rfl
  · rfl

/-! ## A command cut short -/

/-- R231: of a command that has sent the samples `l`, `rst` leaves the first `cutAt` of them and no response. -/
theorem cutOff_of_appended {l : List F32} (hout : t.out = s.out ++ l) (hinputs : t.inputs = s.inputs) :
    cutOff I s t = { State.reset with
      rsp := s.rsp, out := t.out.take (s.out.length + cutAt I t.draws l.length), inputs := s.inputs, draws := t.draws + 1 } := by
  have hfresh : t.out.drop s.out.length = l := by rw [hout, List.drop_left]
  have hsent : t.out.take (s.out.length + cutAt I t.draws l.length) = s.out ++ l.take (cutAt I t.draws l.length) := by
    rw [hout, List.take_length_add_append]
  rw [cutOff, hfresh, hsent, hardReset, skip, hinputs]

/-- Settles O8: `rst` alone is the reset that keeps the streams; a command it cuts short has only appended samples, and of those the first stay. -/
theorem hardwareReset : Obligations.HardwareReset := by
  refine ⟨fun s rest hin => ?_, fun s t u c rest hin hstep hu => ?_⟩
  · exact step_accept hin
  · have hcut : Host.Outcome.next t = .next (cutOff impl { s with inputs := rest } u) :=
      calc Host.Outcome.next t
        _ = step s := hstep.symm
        _ = runCutShort c { s with inputs := rest } := step_accept hin
        _ = .next (cutOff impl { s with inputs := rest } u) := runCutShort_of_next hu
    cases hcut
    obtain ⟨l, hout, -⟩ := onlyStepAndBlockEmit _ _ _ hu
    exact ⟨_, _, cutOff_of_appended hout (runCommand_inputs hu)⟩

end Sys2Proof.Machine
end
